-- ==== Sys2Proof/Word.lean ====
section
/-! DEFINITION. The word types of PG111-HUFF (R6, R7): the 32-bit command and register word, the byte, bit sequences in
stream order, and the two small index types. -/
namespace Sys2Proof

/-- A 32-bit command word or register value (R6, R7, R70). -/
abbrev Word := BitVec 32

/-- An 8-bit byte; symbols are bytes (R6, R7). -/
abbrev Byte := BitVec 8

/-- A bit sequence in stream order: the first element is the first bit written or read (R8). -/
abbrev Bits := List Bool

/-- A channel number, NCH = 2 (R6, R21). -/
abbrev ChanId := Fin 2

/-- A file id, NFILE = 16 (R6, R34). -/
abbrev FileId := Fin 16

end Sys2Proof
end

