-- ==== Sys2Proof/Config.lean ====
section
/-! DEFINITION. The parameters of the block (R6). The widths and counts fixed by R6 stand in the types of Word.lean and
State.lean; here are the ones that a rule compares against, and the open one, RMAX. -/
namespace Sys2Proof

/-- The capacity of the decoder's residual buffer in bits, `none` when unbounded (R6, R162, U7): the spec's OPEN parameter with
its default. DESIGN CHOICE (log 9): this instance is the default, unbounded one. -/
def Config.rmax : Option Nat := none

/-- Inputs of this many bytes or more are refused: CW = 32 (R6, R25, U6; log 8). -/
def Config.inputLimit : Nat := 4294967296

/-- The longest bulk transfer, DBUFB = 32 bytes = 256 bits (R6, R73, R74). -/
def Config.bulkMax : Nat := 256

/-- CODEMAX, the longest code (R6, R28, R137). -/
def Config.codeMax : Nat := 255

/-- NODEMAX, the node capacity (R6, R27). -/
def Config.nodeMax : Nat := 511

end Sys2Proof
end

