-- ==== Sys2Proof/Syntax.lean ====
section
/-! DEFINITION. The nineteen commands (R71), one constructor per row of the opcode map, operands in the order of R76. -/
namespace Sys2Proof

/-- The 2-bit `mode` field of BSOPEN: RD, WR and the two invalid modes, which decode and then fail (R70, R73, R76). -/
inductive ModeArg where
  | rd
  | wr
  | m2
  | m3
deriving DecidableEq, Repr

/-- A command. A count is held as a number, checked by `Instr.wellFormed` (R73). -/
inductive Instr where
  /-- NOP (R200). -/
  | nop
  /-- CLRERR (R201). -/
  | clrerr
  /-- SRESET (R202). -/
  | sreset
  /-- BSOPEN ch, fa, mode, pad (R101). -/
  | bsopen (ch : ChanId) (fa : FileId) (mode : ModeArg) (pad : Bool)
  /-- BSCLOSE ch (R102). -/
  | bsclose (ch : ChanId)
  /-- RDBIT ch (R104). -/
  | rdbit (ch : ChanId)
  /-- WRBIT ch, bit (R106). -/
  | wrbit (ch : ChanId) (bit : Bool)
  /-- RDBITS ch, n (R107). -/
  | rdbits (ch : ChanId) (n : Nat)
  /-- WRBITS ch, n (R108). -/
  | wrbits (ch : ChanId) (n : Nat)
  /-- FSCAN fa (R120). -/
  | fscan (fa : FileId)
  /-- TBUILD (R122). -/
  | tbuild
  /-- CGEN (R136). -/
  | cgen
  /-- TSER ch (R146). -/
  | tser (ch : ChanId)
  /-- TDES ch (R148). -/
  | tdes (ch : ChanId)
  /-- PENC ch, fa (R160). -/
  | penc (ch : ChanId) (fa : FileId)
  /-- TRAIL ch (R161). -/
  | trail (ch : ChanId)
  /-- PDEC ch, fb (R165). -/
  | pdec (ch : ChanId) (fb : FileId)
  /-- HENC fa, fb (R180). -/
  | henc (fa fb : FileId)
  /-- HDEC fa, fb (R181). -/
  | hdec (fa fb : FileId)
deriving DecidableEq, Repr

end Sys2Proof
end

