-- ==== Sys2Proof/WellFormed.lean ====
section
/-! DEFINITION. The range checks of a command's operands (R73 step 2, R74). Channel numbers and file ids are bounded by their
types; a bulk count must not exceed 256. -/
namespace Sys2Proof

/-- The operand ranges of R73 step (2): the count of RDBITS and WRBITS is 0 to 256. -/
def Instr.wellFormed : Instr → Bool
  | .nop => true
  | .clrerr => true
  | .sreset => true
  | .bsopen _ _ _ _ => true
  | .bsclose _ => true
  | .rdbit _ => true
  | .wrbit _ _ => true
  | .rdbits _ n => decide (n ≤ Config.bulkMax)
  | .wrbits _ n => decide (n ≤ Config.bulkMax)
  | .fscan _ => true
  | .tbuild => true
  | .cgen => true
  | .tser _ => true
  | .tdes _ => true
  | .penc _ _ => true
  | .trail _ => true
  | .pdec _ _ => true
  | .henc _ _ => true
  | .hdec _ _ => true

end Sys2Proof
end

