-- ==== Sys2Proof/Decode.lean ====
section
/-! DEFINITION. The decoder of command words, total on all words (R70 to R75), and the encoder from the same table. -/
namespace Sys2Proof

/-- Why a word is illegal (R73, R74). -/
inductive Illegal where
  /-- The word matches no row: an unknown opcode, or a set bit in an unused field. -/
  | noRow
  /-- `ch` is 2 to 15. -/
  | channelOutOfRange
  /-- A bulk count is 257 to 511. -/
  | countOutOfRange
deriving DecidableEq, Repr

/-- What a word decodes to. -/
inductive Decoded where
  | instr (i : Instr)
  | illegal (why : Illegal)
deriving DecidableEq, Repr

/-- `ch = w[23:20]`, legal values 0 and 1 (R70, R72, R73). -/
def withCh (w : Word) (k : ChanId → Decoded) : Decoded :=
  if h : (w.extractLsb' 20 4).toNat < 2 then k ⟨(w.extractLsb' 20 4).toNat, h⟩ else .illegal .channelOutOfRange

/-- `fa = w[19:16]` (R70, R72). -/
def faOf (w : Word) : FileId := (w.extractLsb' 16 4).toFin

/-- `fb = w[15:12]` (R70, R72). -/
def fbOf (w : Word) : FileId := (w.extractLsb' 12 4).toFin

/-- `mode = w[11:10]` (R70, R72). -/
def modeOf (w : Word) : ModeArg :=
  match w.getLsbD 11, w.getLsbD 10 with
  | false, false => .rd
  | false, true => .wr
  | true, false => .m2
  | true, true => .m3

/-- `pad = w[9]` (R70, R72). -/
def padOf (w : Word) : Bool := w.getLsbD 9

/-- The bit of WRBIT, `imm[0] = w[0]` (R72). -/
def bitOf (w : Word) : Bool := w.getLsbD 0

/-- The count of RDBITS and WRBITS, `imm = w[8:0]`, legal 0 to 256 (R72, R73). -/
def withCount (w : Word) (k : Nat → Decoded) : Decoded :=
  if (w.extractLsb' 0 9).toNat ≤ Config.bulkMax then k (w.extractLsb' 0 9).toNat else .illegal .countOutOfRange

/-- A row of the opcode map (R71): `mask` covers the opcode and every unused field, `pattern` is the match value, and `operands`
reads the used fields with the range checks of R73. -/
structure Row where
  mask : Word
  pattern : Word
  operands : Word → Decoded

/-- The opcode map (R71), in the spec's order. -/
def opcodeMap : List Row := [
  ⟨0xFFFFFFFF#32, 0x00000000#32, fun _ => .instr .nop⟩,
  ⟨0xFFFFFFFF#32, 0x01000000#32, fun _ => .instr .clrerr⟩,
  ⟨0xFFFFFFFF#32, 0x02000000#32, fun _ => .instr .sreset⟩,
  ⟨0xFF00F1FF#32, 0x10000000#32, fun w => withCh w fun ch => .instr (.bsopen ch (faOf w) (modeOf w) (padOf w))⟩,
  ⟨0xFF0FFFFF#32, 0x11000000#32, fun w => withCh w fun ch => .instr (.bsclose ch)⟩,
  ⟨0xFF0FFFFF#32, 0x12000000#32, fun w => withCh w fun ch => .instr (.rdbit ch)⟩,
  ⟨0xFF0FFFFE#32, 0x13000000#32, fun w => withCh w fun ch => .instr (.wrbit ch (bitOf w))⟩,
  ⟨0xFF0FFE00#32, 0x14000000#32, fun w => withCh w fun ch => withCount w fun n => .instr (.rdbits ch n)⟩,
  ⟨0xFF0FFE00#32, 0x15000000#32, fun w => withCh w fun ch => withCount w fun n => .instr (.wrbits ch n)⟩,
  ⟨0xFFF0FFFF#32, 0x20000000#32, fun w => .instr (.fscan (faOf w))⟩,
  ⟨0xFFFFFFFF#32, 0x21000000#32, fun _ => .instr .tbuild⟩,
  ⟨0xFFFFFFFF#32, 0x22000000#32, fun _ => .instr .cgen⟩,
  ⟨0xFF0FFFFF#32, 0x23000000#32, fun w => withCh w fun ch => .instr (.tser ch)⟩,
  ⟨0xFF0FFFFF#32, 0x24000000#32, fun w => withCh w fun ch => .instr (.tdes ch)⟩,
  ⟨0xFF00FFFF#32, 0x30000000#32, fun w => withCh w fun ch => .instr (.penc ch (faOf w))⟩,
  ⟨0xFF0FFFFF#32, 0x31000000#32, fun w => withCh w fun ch => .instr (.trail ch)⟩,
  ⟨0xFF0F0FFF#32, 0x32000000#32, fun w => withCh w fun ch => .instr (.pdec ch (fbOf w))⟩,
  ⟨0xFFF00FFF#32, 0x40000000#32, fun w => .instr (.henc (faOf w) (fbOf w))⟩,
  ⟨0xFFF00FFF#32, 0x41000000#32, fun w => .instr (.hdec (faOf w) (fbOf w))⟩]

/-- The decoding procedure (R73): the row whose masked word matches, then its range checks. -/
def decode (w : Word) : Decoded :=
  match opcodeMap.find? (fun r => w &&& r.mask == r.pattern) with
  | some r => r.operands w
  | none => .illegal .noRow

/-- `ch` placed at bits 23:20 (R70). -/
def chBits (ch : ChanId) : Word := BitVec.ofNat 32 ch.val <<< 20

/-- `fa` placed at bits 19:16 (R70). -/
def faBits (f : FileId) : Word := BitVec.ofNat 32 f.val <<< 16

/-- `fb` placed at bits 15:12 (R70). -/
def fbBits (f : FileId) : Word := BitVec.ofNat 32 f.val <<< 12

/-- `mode` placed at bits 11:10 (R70, R76). -/
def modeBits : ModeArg → Word
  | .rd => 0x000#32
  | .wr => 0x400#32
  | .m2 => 0x800#32
  | .m3 => 0xC00#32

/-- `pad` placed at bit 9 (R70). -/
def padBits (p : Bool) : Word := if p then 0x200#32 else 0#32

/-- The bit of WRBIT placed at bit 0 (R70). -/
def bitBits (b : Bool) : Word := if b then 1#32 else 0#32

/-- The count placed at bits 8:0 (R70). -/
def countBits (n : Nat) : Word := (BitVec.ofNat 9 n).setWidth 32

/-- The word of a command, from the match values of R71 and the fields of R70. -/
def encode : Instr → Word
  | .nop => 0x00000000#32
  | .clrerr => 0x01000000#32
  | .sreset => 0x02000000#32
  | .bsopen ch fa mode pad => 0x10000000#32 ||| chBits ch ||| faBits fa ||| modeBits mode ||| padBits pad
  | .bsclose ch => 0x11000000#32 ||| chBits ch
  | .rdbit ch => 0x12000000#32 ||| chBits ch
  | .wrbit ch b => 0x13000000#32 ||| chBits ch ||| bitBits b
  | .rdbits ch n => 0x14000000#32 ||| chBits ch ||| countBits n
  | .wrbits ch n => 0x15000000#32 ||| chBits ch ||| countBits n
  | .fscan fa => 0x20000000#32 ||| faBits fa
  | .tbuild => 0x21000000#32
  | .cgen => 0x22000000#32
  | .tser ch => 0x23000000#32 ||| chBits ch
  | .tdes ch => 0x24000000#32 ||| chBits ch
  | .penc ch fa => 0x30000000#32 ||| chBits ch ||| faBits fa
  | .trail ch => 0x31000000#32 ||| chBits ch
  | .pdec ch fb => 0x32000000#32 ||| chBits ch ||| fbBits fb
  | .henc fa fb => 0x40000000#32 ||| faBits fa ||| fbBits fb
  | .hdec fa fb => 0x41000000#32 ||| faBits fa ||| fbBits fb

/-- The command word of a table row: its low `nbits` bits are `w`, every bit above them is 0. -/
def tableWord (nbits w : Nat) : Word := BitVec.ofNat 32 (w % 2 ^ nbits)

/-- What the decoder reads from an opcode-table word. A command is moved whole as one 32-bit value, so no byte order arises (R55). -/
def decodeTableWord (nbits w : Nat) : Option Instr :=
  match decode (tableWord nbits w) with
  | .instr i => some i
  | .illegal _ => none

end Sys2Proof
end

