-- ==== Sys2Proof/Machine/State.lean ====
section
/-! DEFINITION. The architectural state of the block (R20 to R39), the file store (R34), the two agents' scripts (R3, R11, R64),
the state after reset (R39), and the ways a step can stop. -/
namespace Sys2Proof.Machine

/-- The `mode` field of a channel: RD = 0, WR = 1 (R21). -/
inductive Mode where
  | rd
  | wr
deriving DecidableEq, Repr

/-- A channel context (R21). `cur` is the 4-bit cursor with values 0 to 8 (R22, R23). -/
structure Channel where
  /-- `open`: the channel holds a live handle. -/
  isOpen : Bool
  mode : Mode
  pad : Bool
  buf : Byte
  cur : Nat
  fid : FileId
  pos : Nat
deriving DecidableEq, Repr

/-- A closed channel: every field at its reset value (R24, R39). -/
def Channel.closed : Channel :=
  { isOpen := false, mode := .rd, pad := false, buf := 0#8, cur := 0, fid := 0, pos := 0 }

/-- A Huffman tree with its weights (R26). -/
inductive HTree where
  | leaf (sym : Byte) (w : Nat)
  | node (left right : HTree) (w : Nat)
deriving DecidableEq, Repr

/-- One entry of the file store: `exists` and `data` (R34). -/
structure FileEntry where
  /-- `exists`. -/
  present : Bool
  data : List Byte
deriving DecidableEq, Repr

/-- A file id that names no file: its `data` is empty (R34). -/
def FileEntry.absent : FileEntry := { present := false, data := [] }

/-- The file store `FS[0..15]` (R34, R50): the only memory. A byte's address is (file id, offset). -/
abbrev Memory := Vector FileEntry 16

/-- The canonical form of the store: an absent file holds no byte (R34), so equal stores are equal data (log 13). -/
def Memory.wf (m : Memory) : Bool := m.toList.all fun e => e.present || e.data.isEmpty

/-- `FREQ[0..255]` (R25): counts are natural numbers. -/
abbrev FreqTable := Vector Nat 256

/-- The all-zero table (R39). -/
def FreqTable.zero : FreqTable := Vector.replicate 256 0

/-- `CODE[0..255]` (R28): each entry `None` or a bit sequence in emission order. -/
abbrev CodeTable := Vector (Option Bits) 256

/-- The table with every entry `None` (R39). -/
def CodeTable.empty : CodeTable := Vector.replicate 256 none

/-- `DBUF[0..31]` (R31). -/
abbrev DataBuffer := Vector Byte 32

/-- All thirty-two registers zero (R39). -/
def DataBuffer.zero : DataBuffer := Vector.replicate 32 0#8

/-- A move of the host between commands, other than issuing the next word of the program (R31, R33, R64). -/
inductive HostMove where
  /-- A register write by number (R33). -/
  | writeReg (n : Nat) (v : Word)
  /-- Create, replace, lengthen or shorten a file (R64). -/
  | putFile (f : FileId) (data : List Byte)
  /-- Remove a file (R64). -/
  | removeFile (f : FileId)
deriving DecidableEq, Repr

/-- The complete state (R20), with the host's program and its index (R11, R37) and the host's other scheduled moves (log 4). -/
structure State where
  /-- `BS[0]`, `BS[1]` (R21). -/
  bs : Vector Channel 2
  /-- `FREQ` (R25). -/
  freq : FreqTable
  /-- `TREE` (R26). -/
  tree : Option HTree
  /-- `CODE` (R28). -/
  code : CodeTable
  /-- `STATUS` (R29). -/
  status : Word
  /-- `RES` (R30). -/
  res : Word
  /-- `DBUF` (R31). -/
  dbuf : DataBuffer
  /-- `FS` (R34). -/
  files : Memory
  /-- The program: the words the host issues in order (R11). -/
  program : List Word
  /-- The index of the next word, the number of commands issued so far (R11, R37). -/
  pc : Nat
  /-- The host's scheduled moves: `(k, m)` is made when `k` commands have been issued (log 4). -/
  hostMoves : List (Nat × HostMove)
deriving DecidableEq, Repr

/-- The block after reset (R39, R240). The files and the program are parameters of the run: none here (log 1, log 2). -/
def State.reset : State :=
  { bs := Vector.replicate 2 Channel.closed
    freq := FreqTable.zero
    tree := none
    code := CodeTable.empty
    status := 0#32
    res := 0#32
    dbuf := DataBuffer.zero
    files := Vector.replicate 16 FileEntry.absent
    program := []
    pc := 0
    hostMoves := [] }

/-- A step that does not exist because the run is over. -/
inductive Fault where
  /-- Raised by `step` when the program is exhausted and no host move is due: the run has ended (R11). Safe: no command is
  left to run (log 3). -/
  | runEnded
deriving DecidableEq, Repr

/-- A step outside every claim of the spec. -/
inductive Refusal where
  /-- Raised by `exec` for a command whose meaning is not written. Safe. No arm raises it. -/
  | notModelled (mnemonic : String)
  /-- Raised by FSCAN, PENC and HENC on an input of 2^32 bytes or more (R6, R25, U6). Safe: the spec refuses such inputs (log 8). -/
  | inputTooLong
  /-- Raised by PDEC and HDEC when a finite RMAX is exceeded (D20, U7). Safe: the spec defines no outcome there (log 9). -/
  | residualTooLong
  /-- Raised by a host move that would change a file bound to an open channel (R64, U9). Safe within the spec: the spec gives
  the host no such move (log 5). -/
  | hostTouchesBoundFile
deriving DecidableEq, Repr

end Sys2Proof.Machine
end

