-- ==== Sys2Proof/Machine/Flags.lean ====
section
/-! DEFINITION. The outcomes of a command and the STATUS register (R29, R210, R215). -/
namespace Sys2Proof.Machine

/-- The outcome of a command (R210). -/
inductive Completion where
  | ok
  | eos
  | fileError
  | formatError
  | cmdError
deriving DecidableEq, Repr

/-- The outcome's code, STATUS bits 2:0 (R29, R210). -/
def Completion.code : Completion → Word
  | .ok => 0#32
  | .eos => 1#32
  | .fileError => 2#32
  | .formatError => 3#32
  | .cmdError => 4#32

/-- The sticky bit an outcome sets: bit 8, 9 or 10 for an error, none for OK and EOS (R29, R210). -/
def Completion.sticky : Completion → Word
  | .ok => 0#32
  | .eos => 0#32
  | .fileError => 0x100#32
  | .formatError => 0x200#32
  | .cmdError => 0x400#32

/-- The three sticky bits of STATUS (R29). -/
def stickyMask : Word := 0x700#32

/-- STATUS at completion: the code is written, the outcome's sticky bit is set, the other sticky bits keep their values, every other
bit is zero (R29, R215 steps 2 and 3; log 16). -/
def statusAfter (old : Word) (o : Completion) : Word := (old &&& stickyMask) ||| o.sticky ||| o.code

/-- `STATUS.code` (R29). -/
def statusCode (w : Word) : Nat := (w.extractLsb' 0 3).toNat

/-- `STATUS.sfile` (R29). -/
def statusSfile (w : Word) : Bool := w.getLsbD 8

/-- `STATUS.sfmt` (R29). -/
def statusSfmt (w : Word) : Bool := w.getLsbD 9

/-- `STATUS.scmd` (R29). -/
def statusScmd (w : Word) : Bool := w.getLsbD 10

end Sys2Proof.Machine
end

