-- ==== Sys2Proof/Machine/Operands.lean ====
section
/-! DEFINITION. Bits of bytes, the bits of DBUF, and the host's register numbers (R7, R8, R31, R33, R52 to R54). -/
namespace Sys2Proof.Machine

/-- A bit as a byte, 0 or 1. -/
def bitByte (b : Bool) : Byte := if b then 1#8 else 0#8

/-- `lsb1(b)`: the least `p` with `b[p] = 1` (R7), used for a non-zero byte only. -/
def lsb1 (b : Byte) : Nat := ((List.range 8).find? fun p => b.getLsbD p).getD 0

/-- `bits8(v)`: the bits of a byte, most significant first (R8, R54). -/
def bits8 (v : Byte) : Bits :=
  [v.getLsbD 7, v.getLsbD 6, v.getLsbD 5, v.getLsbD 4, v.getLsbD 3, v.getLsbD 2, v.getLsbD 1, v.getLsbD 0]

/-- `(sym << 1) | x`, kept to 8 bits (R7, R147): the next symbol bit shifted in. -/
def shiftIn (sym : Byte) (x : Bool) : Byte := (sym <<< 1) ||| bitByte x

/-- Bit `i` of the data buffer, `DBUF[i div 8][i mod 8]` (R31, R53). -/
def DataBuffer.bit (d : DataBuffer) (i : Nat) : Bool := (d[i / 8]?.getD 0#8).getLsbD (i % 8)

/-- `DBUF[m div 8] <- DBUF[m div 8] | (r << (m mod 8))` (R107). -/
def DataBuffer.orBit (d : DataBuffer) (m : Nat) (r : Bool) : DataBuffer :=
  if h : m / 8 < 32 then d.set (m / 8) (d[m / 8] ||| (bitByte r <<< (m % 8))) else d

/-- The bits of a transfer put into the data buffer from index `m` on (R53, R107). -/
def DataBuffer.fill (d : DataBuffer) (m : Nat) : Bits → DataBuffer
  | [] => d
  | r :: rest => DataBuffer.fill (d.orBit m r) (m + 1) rest

/-- The first `n` bits of the data buffer, in transfer order (R53, R108). -/
def DataBuffer.bits (d : DataBuffer) (n : Nat) : Bits := (List.range n).map d.bit

/-- What a host register number names (R33). -/
inductive RegName where
  | cmd
  | status
  | res
  | dbuf (i : Fin 32)
  | unused
deriving DecidableEq, Repr

/-- The register of a number: 0 CMD, 1 STATUS, 2 RES, 32 + i DBUF[i], all others unused (R33). -/
def regName (n : Nat) : RegName :=
  if n = 0 then .cmd
  else if n = 1 then .status
  else if n = 2 then .res
  else if h : 32 ≤ n ∧ n < 64 then .dbuf ⟨n - 32, by omega⟩
  else .unused

end Sys2Proof.Machine
end

