-- ==== Sys2Proof/Machine/Ops.lean ====
section
/-! DEFINITION. The shared operations: the file primitives (R51), binding (R59), the bit primitives GetBit and PutBit (R103, R105),
the closing of a stream (R102), the release of the tables (R180), and the completion sequence (R215), which is all this
block has of taking an exception; there is no return from one (R218). -/
namespace Sys2Proof.Machine

/-- What every meaning answers. -/
abbrev Answer := Host.Outcome State Fault Refusal

/-! ### The file store -/

/-- `FS[f]` (R34). -/
def Memory.file (m : Memory) (f : FileId) : FileEntry := m[f.val]

/-- The store with entry `f` replaced. -/
def Memory.setFile (m : Memory) (f : FileId) (e : FileEntry) : Memory := m.set f.val e

/-- `FS[f].data`. -/
def Memory.data (m : Memory) (f : FileId) : List Byte := (m.file f).data

/-- `FileExists(f)` (R51). -/
def Memory.fileExists (m : Memory) (f : FileId) : Bool := (m.file f).present

/-- `FileLen(f)` (R51). -/
def Memory.fileLen (m : Memory) (f : FileId) : Nat := (m.data f).length

/-- `MemRead((f, off), 1)`, the byte at an address, `none` where the file has no such byte (R51). -/
def Memory.read? (m : Memory) (f : FileId) (off : Nat) : Option Byte := (m.data f)[off]?

/-- `FileAppend` of a byte sequence, in order (R51). -/
def Memory.appendAll (m : Memory) (f : FileId) (vs : List Byte) : Memory :=
  m.setFile f { present := true, data := m.data f ++ vs }

/-- `FileAppend(f, v)` = `MemWrite((f, FileLen(f)), 1, v)` (R51). -/
def Memory.append (m : Memory) (f : FileId) (v : Byte) : Memory := m.appendAll f [v]

/-- `FileTruncate(f)`: the file exists and is empty (R51). -/
def Memory.truncate (m : Memory) (f : FileId) : Memory := m.setFile f { present := true, data := [] }

/-! ### Updates of the state, one per kind of state -/

/-- `BS[ch]` (R21). -/
def State.chan (s : State) (ch : ChanId) : Channel := s.bs[ch.val]

/-- The state with channel `ch` replaced. -/
def State.setChan (s : State) (ch : ChanId) (c : Channel) : State := { s with bs := s.bs.set ch.val c }

/-- The state with the file store replaced. -/
def State.setFiles (s : State) (m : Memory) : State := { s with files := m }

/-- The state with a channel and the file store replaced, as a stream command leaves them. -/
def State.setStream (s : State) (ch : ChanId) (x : Channel × Memory) : State := (s.setChan ch x.1).setFiles x.2

/-- `FREQ <- F` (R120). -/
def State.setFreq (s : State) (F : FreqTable) : State := { s with freq := F }

/-- `TREE <- t` (R122, R148). -/
def State.setTree (s : State) (t : Option HTree) : State := { s with tree := t }

/-- `CODE <- C` (R136). -/
def State.setCode (s : State) (C : CodeTable) : State := { s with code := C }

/-- `RES <- v` (R104, R107). -/
def State.setRes (s : State) (v : Word) : State := { s with res := v }

/-- `DBUF <- d` (R107). -/
def State.setDbuf (s : State) (d : DataBuffer) : State := { s with dbuf := d }

/-- `Release()` (R180): FREQ all zero, TREE `None`, CODE all `None`. -/
def State.release (s : State) : State := { s with freq := FreqTable.zero, tree := none, code := CodeTable.empty }

/-- The completion sequence (R215): STATUS takes the outcome, the command is over, the program index moves on by one (R37).
Nothing is saved and control goes nowhere. -/
def State.complete (s : State) (o : Completion) : State := { s with status := statusAfter s.status o, pc := s.pc + 1 }

/-- A command that ends with outcome `o` in state `s` (R10, R215). -/
def finish (o : Completion) (s : State) : Answer := .next (s.complete o)

/-! ### Binding (R59) and handle checks (R100) -/

/-- The channel is bound to file `f`. -/
def Channel.binds (c : Channel) (f : FileId) : Bool := c.isOpen && decide (c.fid = f)

/-- The channel is write-bound to file `f`. -/
def Channel.writeBinds (c : Channel) (f : FileId) : Bool := c.binds f && decide (c.mode = .wr)

/-- File `f` is bound to some channel. -/
def State.bound (s : State) (f : FileId) : Bool := (s.chan 0).binds f || (s.chan 1).binds f

/-- File `f` is write-bound to some channel. -/
def State.writeBound (s : State) (f : FileId) : Bool := (s.chan 0).writeBinds f || (s.chan 1).writeBinds f

/-- `Readable(f)`. -/
def State.readable (s : State) (f : FileId) : Bool := s.files.fileExists f && !s.writeBound f

/-- `Writable(f)`. -/
def State.writable (s : State) (f : FileId) : Bool := !s.bound f

/-- "Channel `ch` is open for RD" (or WR) (R100). -/
def State.openFor (s : State) (md : Mode) (ch : ChanId) : Bool := (s.chan ch).isOpen && decide ((s.chan ch).mode = md)

/-- An input that the spec refuses: 2^32 bytes or more (R6, U6; log 8). -/
def Memory.tooLong (m : Memory) (f : FileId) : Bool := decide (Config.inputLimit ≤ m.fileLen f)

/-! ### Channels as they are opened -/

/-- A channel just opened for reading (R101). -/
def Channel.openRd (pad : Bool) (f : FileId) : Channel :=
  { isOpen := true, mode := .rd, pad := pad, buf := 0#8, cur := 0, fid := f, pos := 0 }

/-- A channel just opened for writing (R101). -/
def Channel.openWr (pad : Bool) (f : FileId) : Channel :=
  { isOpen := true, mode := .wr, pad := pad, buf := 0#8, cur := 8, fid := f, pos := 0 }

/-! ### GetBit and PutBit -/

/-- The end of `GetBit`: deliver `buf[cur − 1]` (R103). -/
def Channel.deliver (c : Channel) : Option Bool × Channel :=
  (some (c.buf.getLsbD (c.cur - 1)), { c with cur := c.cur - 1 })

/-- The loader of `GetBit` after the byte `b` has been read (R103): `pos` moves on, and the last byte of a padded stream loses its
sentinel and fill. `len` is `FileLen(fid)`. -/
def Channel.load (c : Channel) (len : Nat) (b : Byte) : Channel :=
  if c.pad && decide (c.pos + 1 = len) then
    if b = 0#8 then { c with pos := c.pos + 1, buf := 0#8, cur := 0 }
    else { c with pos := c.pos + 1, buf := b >>> (lsb1 b + 1), cur := 7 - lsb1 b }
  else { c with pos := c.pos + 1, buf := b, cur := 8 }

/-- `GetBit(c)` (R103): a bit, or `none` for EOS, and the channel after it. -/
def getBit (m : Memory) (c : Channel) : Option Bool × Channel :=
  if c.cur = 0 then
    match m.read? c.fid c.pos with
    | none => (none, c)
    | some b =>
      if (c.load (m.fileLen c.fid) b).cur = 0 then (none, c.load (m.fileLen c.fid) b)
      else (c.load (m.fileLen c.fid) b).deliver
  else c.deliver

/-- At most `n` bits read with `GetBit`, stopping at EOS, and the channel after them (R107). -/
def getBits (m : Memory) : Nat → Channel → Bits × Channel
  | 0, c => ([], c)
  | n + 1, c =>
    match getBit m c with
    | (none, c') => ([], c')
    | (some r, c') => (r :: (getBits m n c').1, (getBits m n c').2)

/-- The buffer of `PutBit` after the bit is placed at position `cur − 1` (R105). -/
def Channel.place (c : Channel) (b : Bool) : Channel :=
  { c with buf := c.buf ||| (bitByte b <<< (c.cur - 1)), cur := c.cur - 1 }

/-- `PutBit(c, bit)` (R105): a full byte is appended to the file and the buffer is emptied. -/
def putBit (x : Channel × Memory) (b : Bool) : Channel × Memory :=
  if (x.1.place b).cur = 0 then
    ({ x.1.place b with buf := 0#8, cur := 8 }, x.2.append x.1.fid (x.1.place b).buf)
  else (x.1.place b, x.2)

/-- `PutBit` for each bit of a sequence in order. -/
def putBits (x : Channel × Memory) (bits : Bits) : Channel × Memory := bits.foldl putBit x

/-- The file store after closing a channel (R102): a WR channel appends its sentinel byte (`pad = 1`) or its partial byte, if any
(`pad = 0`); an RD channel touches no file. -/
def Channel.flush (c : Channel) (m : Memory) : Memory :=
  match c.mode with
  | .rd => m
  | .wr =>
    if c.pad then m.append c.fid (c.buf ||| (1#8 <<< (c.cur - 1)))
    else if c.cur < 8 then m.append c.fid c.buf
    else m

/-- An upper bound of the bits a channel can still deliver: those buffered and eight for each byte not yet loaded. It bounds the
recursion of the two readers that run to the end of the stream (log 11). -/
def Channel.bitsLeft (m : Memory) (c : Channel) : Nat := c.cur + 8 * (m.fileLen c.fid - c.pos)

end Sys2Proof.Machine
end

