-- ==== Sys2Proof/Machine/BitStream.lean ====
section
/-! DEFINITION. The BitStream commands (R101 to R108). -/
namespace Sys2Proof.Machine

/-- BSOPEN ch, fa, mode, pad (R101): the checks in the order busy, mode, file. -/
def execBsopen (ch : ChanId) (fa : FileId) (mode : ModeArg) (pad : Bool) (s : State) : Answer :=
  if (s.chan ch).isOpen then finish .fileError s
  else
    match mode with
    | .m2 => finish .fileError s
    | .m3 => finish .fileError s
    | .rd =>
      if s.readable fa then finish .ok (s.setChan ch (Channel.openRd pad fa)) else finish .fileError s
    | .wr =>
      if s.writable fa then finish .ok (s.setStream ch (Channel.openWr pad fa, s.files.truncate fa))
      else finish .fileError s

/-- BSCLOSE ch (R102): the stream is flushed and the channel always released. -/
def execBsclose (ch : ChanId) (s : State) : Answer :=
  if (s.chan ch).isOpen then finish .ok (s.setStream ch (Channel.closed, (s.chan ch).flush s.files))
  else finish .fileError s

/-- RDBIT ch (R104): RES is written only when a bit was delivered. -/
def execRdbit (ch : ChanId) (s : State) : Answer :=
  if s.openFor .rd ch then
    match getBit s.files (s.chan ch) with
    | (some r, c) => finish .ok ((s.setChan ch c).setRes (bitByte r |>.setWidth 32))
    | (none, c) => finish .eos (s.setChan ch c)
  else finish .fileError s

/-- WRBIT ch, bit (R106). -/
def execWrbit (ch : ChanId) (bit : Bool) (s : State) : Answer :=
  if s.openFor .wr ch then finish .ok (s.setStream ch (putBit (s.chan ch, s.files) bit)) else finish .fileError s

/-- RDBITS ch, n (R107): DBUF is cleared, then filled with the bits obtained, and RES holds their count. A count above 256 is a
decode-level CmdError (R73, log 14). -/
def execRdbits (ch : ChanId) (n : Nat) (s : State) : Answer :=
  if Config.bulkMax < n then finish .cmdError s
  else if s.openFor .rd ch then
    finish .ok
      (((s.setChan ch (getBits s.files n (s.chan ch)).2).setDbuf
          (DataBuffer.zero.fill 0 (getBits s.files n (s.chan ch)).1)).setRes
        (BitVec.ofNat 32 (getBits s.files n (s.chan ch)).1.length))
  else finish .fileError s

/-- WRBITS ch, n (R108): the first `n` bits of DBUF. A count above 256 is a decode-level CmdError (R73, log 14). -/
def execWrbits (ch : ChanId) (n : Nat) (s : State) : Answer :=
  if Config.bulkMax < n then finish .cmdError s
  else if s.openFor .wr ch then finish .ok (s.setStream ch (putBits (s.chan ch, s.files) (s.dbuf.bits n)))
  else finish .fileError s

end Sys2Proof.Machine
end

