-- ==== Sys2Proof/Machine/FreqTree.lean ====
section
/-! DEFINITION. Frequency analysis and tree construction: FSCAN (R120), Build (R121), TBUILD (R122). -/
namespace Sys2Proof.Machine

/-- `FREQ[b]` (R25). -/
def FreqTable.get (F : FreqTable) (b : Byte) : Nat := F[b.toFin]

/-- `FREQ[v] <- FREQ[v] + 1` (R120). -/
def FreqTable.bump (F : FreqTable) (v : Byte) : FreqTable := F.set v.toNat (F[v.toFin] + 1) v.toFin.isLt

/-- The counts of a byte sequence, built fresh (R120). -/
def countBytes (data : List Byte) : FreqTable := data.foldl FreqTable.bump FreqTable.zero

/-- FSCAN fa (R120). An input of 2^32 bytes or more is refused (U6, log 8). DESIGN CHOICE: the refusal comes after the Readable check, an order
that U6 does not give (log 17). -/
def execFscan (fa : FileId) (s : State) : Answer :=
  if s.readable fa then
    if s.files.tooLong fa then .refused .inputTooLong else finish .ok (s.setFreq (countBytes (s.files.data fa)))
  else finish .fileError s

/-- The aggregate weight of a node (R26). -/
def HTree.weight : HTree → Nat
  | .leaf _ w => w
  | .node _ _ w => w

/-- The symbols of the leaves, left to right (R26, R27). -/
def HTree.syms : HTree → List Byte
  | .leaf b _ => [b]
  | .node l r _ => l.syms ++ r.syms

/-- The number of internal nodes (R27, R123). -/
def HTree.inner : HTree → Nat
  | .leaf _ _ => 0
  | .node l r _ => l.inner + r.inner + 1

/-- A node put into a list sorted by weight, before every node of equal weight. -/
def insertByWeight (t : HTree) : List HTree → List HTree
  | [] => [t]
  | u :: rest => if t.weight ≤ u.weight then t :: u :: rest else u :: insertByWeight t rest

/-- `StableSortAscendingByWeight` (R121): equal weights keep their list order. -/
def sortByWeight : List HTree → List HTree
  | [] => []
  | t :: rest => insertByWeight t (sortByWeight rest)

/-- The initial node list: one leaf per symbol of non-zero count, in ascending symbol order (R121 (i)). -/
def leavesOf (F : FreqTable) : List HTree :=
  (List.range 256).filterMap fun b =>
    if 0 < F.get (BitVec.ofNat 8 b) then some (.leaf (BitVec.ofNat 8 b) (F.get (BitVec.ofNat 8 b))) else none

/-- The merging loop (R121): the two lowest of the sorted list are merged and the merged node goes to the end of the list (iii).
Each pass shortens the list by one, so `fuel` equal to the list's length is never used up (log 11). -/
def mergeLoop : Nat → List HTree → Option HTree
  | 0, L => L.head?
  | fuel + 1, L =>
    match sortByWeight L with
    | a :: b :: rest => mergeLoop fuel (rest ++ [.node a b (a.weight + b.weight)])
    | L' => L'.head?

/-- `Build(F)` (R121): `None` for the all-zero table, a single leaf for one symbol. -/
def build (F : FreqTable) : Option HTree := mergeLoop (leavesOf F).length (leavesOf F)

/-- TBUILD (R122). -/
def execTbuild (s : State) : Answer := finish .ok (s.setTree (build s.freq))

end Sys2Proof.Machine
end

