-- ==== Sys2Proof/Machine/CodeGen.lean ====
section
/-! DEFINITION. Code-table generation: Codes (R135) and CGEN (R136). -/
namespace Sys2Proof.Machine

/-- `CODE[b]` (R28). -/
def CodeTable.get (C : CodeTable) (b : Byte) : Option Bits := C[b.toFin]

/-- `C[sym] <- w` (R135). -/
def CodeTable.record (C : CodeTable) (b : Byte) (w : Bits) : CodeTable := C.set b.toNat (some w) b.toFin.isLt

/-- `Walk(t, acc)` (R135): a leaf records the accumulated bits; left appends 0, right appends 1, left first. -/
def walkCodes : HTree → Bits → CodeTable → CodeTable
  | .leaf sym _, acc, C => C.record sym acc
  | .node l r _, acc, C => walkCodes r (acc ++ [true]) (walkCodes l (acc ++ [false]) C)

/-- `Codes(t)` (R135): no entry for `None`, the one bit 0 for a single leaf, the walk from the root otherwise. -/
def codes : Option HTree → CodeTable
  | none => CodeTable.empty
  | some (.leaf sym _) => CodeTable.empty.record sym [false]
  | some (.node l r w) => walkCodes (.node l r w) [] CodeTable.empty

/-- The code bits of a symbol, none where the entry is `None` (used only where the entry is present). -/
def CodeTable.bitsOf (C : CodeTable) (b : Byte) : Bits := (C.get b).getD []

/-- The codes of a byte sequence, concatenated in order (R160, R180 step 6). -/
def CodeTable.encodeBytes (C : CodeTable) (data : List Byte) : Bits := data.flatMap C.bitsOf

/-- CGEN (R136). -/
def execCgen (s : State) : Answer := finish .ok (s.setCode (codes s.tree))

end Sys2Proof.Machine
end

