-- ==== Sys2Proof/Machine/TreeCodec.lean ====
section
/-! DEFINITION. The TreeCodec: EmitTree and TSER (R145, R146), ParseTree and TDES (R147, R148). -/
namespace Sys2Proof.Machine

/-- `EmitTree(c, t)` for a tree (R145): a leaf is 1 and its symbol's eight bits, most significant first; a node is 0, left, right. -/
def emitNode : HTree → Channel × Memory → Channel × Memory
  | .leaf sym _, x => putBits (putBit x true) (bits8 sym)
  | .node l r _, x => emitNode r (emitNode l (putBit x false))

/-- `EmitTree(c, t)` (R145): nothing for `None`. -/
def emitTree : Option HTree → Channel × Memory → Channel × Memory
  | none, x => x
  | some t, x => emitNode t x

/-- TSER ch (R146). -/
def execTser (ch : ChanId) (s : State) : Answer :=
  if s.openFor .wr ch then finish .ok (s.setStream ch (emitTree s.tree (s.chan ch, s.files))) else finish .fileError s

/-- The eight symbol bits of a leaf, most significant first (R147): `none` when the stream ends inside them. -/
def readSym (m : Memory) : Nat → Byte → Channel → Option Byte × Channel
  | 0, sym, c => (some sym, c)
  | k + 1, sym, c =>
    match getBit m c with
    | (none, c') => (none, c')
    | (some x, c') => readSym m k (shiftIn sym x) c'

/-- `ParseTree(c, seen)` (R147): `none` is FormatError; the channel keeps the position it reached. Every call reads a tag bit first, so
the recursion is bounded by the bits left in the stream, which `fuel` exceeds (log 11). -/
def parseTree (m : Memory) : Nat → Channel → List Byte → Option (HTree × List Byte) × Channel
  | 0, c, _ => (none, c)
  | fuel + 1, c, seen =>
    match getBit m c with
    | (none, c₁) => (none, c₁)
    | (some true, c₁) =>
      match readSym m 8 0#8 c₁ with
      | (none, c₂) => (none, c₂)
      | (some sym, c₂) =>
        if seen.contains sym then (none, c₂) else (some (.leaf sym 0, sym :: seen), c₂)
    | (some false, c₁) =>
      match parseTree m fuel c₁ seen with
      | (none, c₂) => (none, c₂)
      | (some (l, seen₁), c₂) =>
        match parseTree m fuel c₂ seen₁ with
        | (none, c₃) => (none, c₃)
        | (some (r, seen₂), c₃) => (some (.node l r 0, seen₂), c₃)

/-- `ParseTree(c, {})` (R147, R148). -/
def parseDictionary (m : Memory) (c : Channel) : Option HTree × Channel :=
  ((parseTree m (c.bitsLeft m + 1) c []).1.map Prod.fst, (parseTree m (c.bitsLeft m + 1) c []).2)

/-- TDES ch (R148): on FormatError TREE is `None` and the bits read stay consumed. -/
def execTdes (ch : ChanId) (s : State) : Answer :=
  if s.openFor .rd ch then
    match parseDictionary s.files (s.chan ch) with
    | (some t, c) => finish .ok ((s.setChan ch c).setTree (some t))
    | (none, c) => finish .formatError ((s.setChan ch c).setTree none)
  else finish .fileError s

end Sys2Proof.Machine
end

