-- ==== Sys2Proof/Machine/Payload.lean ====
section
/-! DEFINITION. The payload commands: PENC (R160), TRAIL (R161), PDEC (R162 to R165). -/
namespace Sys2Proof.Machine

/-- PENC ch, fa (R160): the first pass checks that every input byte has a code, the second emits the codes.
DESIGN CHOICE: an input of 2^32 bytes or more is refused (U6, log 8) after the FileError checks, an order that U6 does not give (log 17). -/
def execPenc (ch : ChanId) (fa : FileId) (s : State) : Answer :=
  if s.openFor .wr ch then
    if s.readable fa then
      if s.files.tooLong fa then .refused .inputTooLong
      else if (s.files.data fa).all fun v => (s.code.get v).isSome then
        finish .ok (s.setStream ch (putBits (s.chan ch, s.files) (s.code.encodeBytes (s.files.data fa))))
      else finish .cmdError s
    else finish .fileError s
  else finish .fileError s

/-- `while c.cur ≠ 8: PutBit(c, 0)` (R161). Eight turns suffice from every cursor of an open WR channel (R22, log 11). -/
def padOut : Nat → Channel × Memory → Channel × Memory
  | 0, x => x
  | fuel + 1, x => if x.1.cur = 8 then x else padOut fuel (putBit x false)

/-- The trailer (R161, R180 step 7): one sentinel bit, then 0 bits until the buffer is empty. -/
def trailer (x : Channel × Memory) : Channel × Memory := padOut 8 (putBit x true)

/-- TRAIL ch (R161). -/
def execTrail (ch : ChanId) (s : State) : Answer :=
  if s.openFor .wr ch then finish .ok (s.setStream ch (trailer (s.chan ch, s.files))) else finish .fileError s

/-- `ReadResidual(c)` (R162): every bit up to EOS, and the channel at the end of its stream. -/
def readResidual (m : Memory) (c : Channel) : Bits × Channel := getBits m (c.bitsLeft m + 1) c

/-- The residual is longer than a finite RMAX (D20, U7; log 9). -/
def overRmax : Option Nat → Bits → Bool
  | none, _ => false
  | some k, R => decide (k < R.length)

/-- `StripTrailer(R)` (R163): the bits before the last 1, `none` (FormatError) where there is no 1. -/
def stripTrailer : Bits → Option Bits
  | [] => none
  | b :: rest =>
    match stripTrailer rest with
    | some p => some (b :: p)
    | none => if b then some [] else none

/-- The walk of a payload under a tree that is a node (R164): `t` the root, `n` the present node. The bytes decoded, and whether the walk
ended at the root. -/
def walkNode (t : HTree) : HTree → Bool → Bits → List Byte × Bool
  | _, atRoot, [] => ([], atRoot)
  | n, _, x :: rest =>
    match n with
    | .leaf _ _ => ([], false)
    | .node l r _ =>
      match (if x then r else l) with
      | .leaf sym _ => (sym :: (walkNode t t true rest).1, (walkNode t t true rest).2)
      | .node l' r' w' => walkNode t (.node l' r' w') false rest

/-- The walk of a payload under the degenerate tree (R164): one symbol per 0, FormatError at the first 1. -/
def walkLeaf (sym : Byte) : Bits → List Byte × Bool
  | [] => ([], true)
  | x :: rest => if x then ([], false) else (sym :: (walkLeaf sym rest).1, (walkLeaf sym rest).2)

/-- `WalkPayload(t, Pay, fb)` (R164): the bytes appended to `fb`, in order, and whether no FormatError was raised (log 19). -/
def walkPayload : HTree → Bits → List Byte × Bool
  | .leaf sym _, pay => walkLeaf sym pay
  | .node l r w, pay => walkNode (.node l r w) (.node l r w) true pay

/-- Steps 4 and 5 of the decoder on a residual (R163, R164): the output bytes, and whether no FormatError was raised. -/
def decodeResidual (t : HTree) (R : Bits) : List Byte × Bool :=
  match stripTrailer R with
  | none => ([], false)
  | some pay => walkPayload t pay

/-- The outcome of a decoder that raised FormatError or not. -/
def formatOutcome (good : Bool) : Completion := if good then .ok else .formatError

/-- PDEC for a residual capacity `rmax` (R165, D20). -/
def pdecWith (rmax : Option Nat) (ch : ChanId) (fb : FileId) (s : State) : Answer :=
  if s.openFor .rd ch then
    if s.writable fb then
      match s.tree with
      | none => finish .cmdError s
      | some t =>
        match readResidual (s.files.truncate fb) (s.chan ch) with
        | (R, c) =>
          if overRmax rmax R then .refused .residualTooLong
          else
            finish (formatOutcome (decodeResidual t R).2)
              (s.setStream ch (c, (s.files.truncate fb).appendAll fb (decodeResidual t R).1))
    else finish .fileError s
  else finish .fileError s

/-- PDEC ch, fb (R165). -/
def execPdec (ch : ChanId) (fb : FileId) (s : State) : Answer := pdecWith Config.rmax ch fb s

end Sys2Proof.Machine
end

