-- ==== Sys2Proof/Machine/Pipelines.lean ====
section
/-! DEFINITION. The pipeline commands HENC (R180) and HDEC (R181). Each works on a private channel P (R35) and releases the tables on
every exit. -/
namespace Sys2Proof.Machine

/-- Steps 4 to 8 of the encoder (R180) on the output `fb`: P is opened without padding, the dictionary, the codes and the trailer are
written, and P is closed. -/
def encodeInto (fb : FileId) (t : Option HTree) (data : List Byte) (m : Memory) : Memory :=
  let x := trailer (putBits (emitTree t (Channel.openWr false fb, m.truncate fb)) ((codes t).encodeBytes data))
  x.1.flush x.2

/-- HENC fa, fb (R180). DESIGN CHOICE: an input of 2^32 bytes or more is refused (U6, log 8) after the FileError checks, an order that U6 does
not give (log 17). -/
def execHenc (fa fb : FileId) (s : State) : Answer :=
  if s.readable fa && !decide (fa = fb) then
    if s.writable fb then
      if s.files.tooLong fa then .refused .inputTooLong
      else
        finish .ok
          ((s.setFiles (encodeInto fb (build (countBytes (s.files.data fa))) (s.files.data fa) s.files)).release)
    else finish .fileError s.release
  else finish .fileError s.release

/-- HDEC for a residual capacity `rmax` (R181, D20). -/
def hdecWith (rmax : Option Nat) (fa fb : FileId) (s : State) : Answer :=
  if s.readable fa && !decide (fa = fb) && s.writable fb then
    if s.files.data fa = [0x80#8] then finish .ok ((s.setFiles (s.files.truncate fb)).release)
    else
      match parseDictionary (s.files.truncate fb) (Channel.openRd false fa) with
      | (none, _) => finish .formatError ((s.setFiles (s.files.truncate fb)).release)
      | (some t, c) =>
        match readResidual (s.files.truncate fb) c with
        | (R, _) =>
          if overRmax rmax R then .refused .residualTooLong
          else
            finish (formatOutcome (decodeResidual t R).2)
              ((s.setFiles ((s.files.truncate fb).appendAll fb (decodeResidual t R).1)).release)
  else finish .fileError s.release

/-- HDEC fa, fb (R181). -/
def execHdec (fa fb : FileId) (s : State) : Answer := hdecWith Config.rmax fa fb s

end Sys2Proof.Machine
end

