-- ==== Sys2Proof/Machine/System.lean ====
section
/-! DEFINITION. The system commands NOP, CLRERR and SRESET (R200 to R202), and the completion of an illegal word (R73, R213). -/
namespace Sys2Proof.Machine

/-- NOP (R200): only the completion. -/
def execNop (s : State) : Answer := finish .ok s

/-- CLRERR (R201): the sticky bits are cleared. -/
def execClrerr (s : State) : Answer := finish .ok { s with status := s.status &&& ~~~stickyMask }

/-- SRESET (R202): every element but the file store takes its reset value; the program and the host's moves are not the block's. -/
def execSreset (s : State) : Answer :=
  finish .ok { State.reset with files := s.files, program := s.program, pc := s.pc, hostMoves := s.hostMoves }

/-- An illegal word (R73 step 3, R213): CmdError, and no change but STATUS. -/
def illegalWord (s : State) : Answer := finish .cmdError s

end Sys2Proof.Machine
end

