-- ==== Sys2Proof/Machine/Dispatch.lean ====
section
/-! DEFINITION. One command: the arm of each constructor calls its meaning. -/
namespace Sys2Proof.Machine

def exec (i : Instr) (s : State) : Host.Outcome State Fault Refusal :=
  match i with
  | .nop => Sys2Proof.Machine.execNop s
  | .clrerr => Sys2Proof.Machine.execClrerr s
  | .sreset => Sys2Proof.Machine.execSreset s
  | .bsopen ch fa mode pad => Sys2Proof.Machine.execBsopen ch fa mode pad s
  | .bsclose ch => Sys2Proof.Machine.execBsclose ch s
  | .rdbit ch => Sys2Proof.Machine.execRdbit ch s
  | .wrbit ch bit => Sys2Proof.Machine.execWrbit ch bit s
  | .rdbits ch n => Sys2Proof.Machine.execRdbits ch n s
  | .wrbits ch n => Sys2Proof.Machine.execWrbits ch n s
  | .fscan fa => Sys2Proof.Machine.execFscan fa s
  | .tbuild => Sys2Proof.Machine.execTbuild s
  | .cgen => Sys2Proof.Machine.execCgen s
  | .tser ch => Sys2Proof.Machine.execTser ch s
  | .tdes ch => Sys2Proof.Machine.execTdes ch s
  | .penc ch fa => Sys2Proof.Machine.execPenc ch fa s
  | .trail ch => Sys2Proof.Machine.execTrail ch s
  | .pdec ch fb => Sys2Proof.Machine.execPdec ch fb s
  | .henc fa fb => Sys2Proof.Machine.execHenc fa fb s
  | .hdec fa fb => Sys2Proof.Machine.execHdec fa fb s

end Sys2Proof.Machine
end

