-- ==== Sys2Proof/Machine/HostPort.lean ====
section
/-! DEFINITION. The host's side (R3, R31 to R33, R64): command words, register reads and writes, and changes of unbound files. -/
namespace Sys2Proof.Machine

/-- Execute the command a word encodes (R32, R73): an illegal word completes with CmdError. -/
def runWord (w : Word) (s : State) : Answer :=
  match decode w with
  | .instr i => exec i s
  | .illegal _ => illegalWord s

/-- The word put into the program as the one issued next (log 6). -/
def State.insertCommand (s : State) (w : Word) : State :=
  { s with program := s.program.take s.pc ++ w :: s.program.drop s.pc }

/-- A host write of value `v` to register number `n` (R32, R33): CMD executes the word, DBUF[i] takes the low eight bits (log 7), every
other write is ignored. -/
def hostWriteReg (n : Nat) (v : Word) (s : State) : Answer :=
  match regName n with
  | .cmd => runWord v (s.insertCommand v)
  | .status => .next s
  | .res => .next s
  | .dbuf i => .next (s.setDbuf (s.dbuf.set i.val (v.setWidth 8)))
  | .unused => .next s

/-- A host read of register number `n` (R33): it changes no state, and CMD and unused numbers give 0. -/
def hostReadReg (n : Nat) (s : State) : Word :=
  match regName n with
  | .cmd => 0#32
  | .status => s.status
  | .res => s.res
  | .dbuf i => s.dbuf[i.val].setWidth 32
  | .unused => 0#32

/-- The host puts a file entry in place of `f`, which must not be bound to a channel (R64, U9). -/
def hostSetFile (f : FileId) (e : FileEntry) (s : State) : Answer :=
  if s.bound f then .refused .hostTouchesBoundFile else .next (s.setFiles (s.files.setFile f e))

/-- One move of the host (R33, R64). -/
def hostMove (m : HostMove) (s : State) : Answer :=
  match m with
  | .writeReg n v => hostWriteReg n v s
  | .putFile f data => hostSetFile f { present := true, data := data } s
  | .removeFile f => hostSetFile f FileEntry.absent s

/-- The host's move that is due now, with the moves left after it: the first scheduled one, when its time has come (log 4). -/
def State.dueMove (s : State) : Option (HostMove × List (Nat × HostMove)) :=
  match s.hostMoves with
  | [] => none
  | (k, m) :: rest => if k ≤ s.pc then some (m, rest) else none

/-- The next word of the program (R11). -/
def State.nextWord (s : State) : Option Word := s.program[s.pc]?

/-- The program with `w` as its next word and the host's due moves taken away, so that the next step runs `w` (log 1). -/
def State.placeWord (s : State) (w : Word) : State :=
  { s with
    program := s.program.take s.pc ++ List.replicate (s.pc - s.program.length) 0#32 ++ w :: s.program.drop (s.pc + 1)
    hostMoves := s.hostMoves.dropWhile fun km => decide (km.1 ≤ s.pc) }

end Sys2Proof.Machine
end

