-- ==== Sys2Proof/Machine/Step.lean ====
section
/-! DEFINITION. One step: a due move of the host, else the next command of its program, else the run is over (R2, R3, R11). -/
namespace Sys2Proof.Machine

/-- One action of one agent (R2, R3): every word of the program is executed in order (R11), whatever the outcomes before it (R218). -/
def step (s : State) : Host.Outcome State Fault Refusal :=
  match s.dueMove with
  | some (m, rest) => hostMove m { s with hostMoves := rest }
  | none =>
    match s.nextWord with
    | some w => runWord w s
    | none => .fault .runEnded

/-- `s` with the command word `w` where the next step fetches it: at index `pc` of the program, no host move due (log 1). -/
def State.withFetchWord (s : State) (nbits w : Nat) : State := s.placeWord (tableWord nbits w)

end Sys2Proof.Machine
end

