-- ==== Sys2Proof/Machine/Format.lean ====
section
/-! DEFINITION. The stream formats as pure functions (R8, R77 to R83), the pure form of the pipelines (R182), and what a channel still
delivers or has been given (R22, R23, R61). The commands do not call them: statements compare the commands with them. -/
namespace Sys2Proof.Machine

/-- Eight bits as a byte, the first one most significant (R8, R52). -/
def packByte (b₇ b₆ b₅ b₄ b₃ b₂ b₁ b₀ : Bool) : Byte :=
  BitVec.ofBoolListBE [b₇, b₆, b₅, b₄, b₃, b₂, b₁, b₀]

/-- `pack(s)` for a length that is a multiple of 8 (R8); bits after the last whole byte are left out. -/
def pack : Bits → List Byte
  | b₇ :: b₆ :: b₅ :: b₄ :: b₃ :: b₂ :: b₁ :: b₀ :: rest => packByte b₇ b₆ b₅ b₄ b₃ b₂ b₁ b₀ :: pack rest
  | _ => []

/-- `unpack(F)` (R8, R77): every byte's bits, most significant first. -/
def unpack (F : List Byte) : Bits := F.flatMap bits8

/-- The least number of 0 bits that makes a length a multiple of 8 (R77, R78, R81). -/
def fill (n : Nat) : Bits := List.replicate ((8 - n % 8) % 8) false

/-- A sequence filled with 0 bits to a byte boundary. -/
def fillOut (s : Bits) : Bits := s ++ fill s.length

/-- The file of an unpadded write session (R77). -/
def unpaddedFile (s : Bits) : List Byte := pack (fillOut s)

/-- The file of a padded write session (R78): the sentinel, then the fill. -/
def paddedFile (s : Bits) : List Byte := pack (fillOut (s ++ [true]))

/-- The bits of the last byte of a padded file (R79): none of 0x00, else the top 7 − p bits, p the place of the sentinel. -/
def lastByteBits (b : Byte) : Bits := if b = 0#8 then [] else (bits8 b).take (7 - lsb1 b)

/-- What a padded file delivers (R79). -/
def readPadded : List Byte → Bits
  | [] => []
  | [b] => lastByteBits b
  | b :: c :: rest => bits8 b ++ readPadded (c :: rest)

/-- `Ser(t)` of a tree (R80). -/
def HTree.ser : HTree → Bits
  | .leaf sym _ => true :: bits8 sym
  | .node l r _ => false :: (l.ser ++ r.ser)

/-- `Ser` with `Ser(None) = []` (R80). -/
def serialise : Option HTree → Bits
  | none => []
  | some t => t.ser

/-- The bits of a message before its trailer (R81): dictionary, then payload. -/
def messageBits (X : List Byte) : Bits :=
  serialise (build (countBytes X)) ++ (codes (build (countBytes X))).encodeBytes X

/-- `Message(X)` (R81) = `enc(X)` (R182). -/
def message (X : List Byte) : List Byte := paddedFile (messageBits X)

/-- A symbol read from the front of a bit sequence (R147). -/
def takeSym : Nat → Byte → Bits → Option (Byte × Bits)
  | 0, sym, bits => some (sym, bits)
  | _ + 1, _, [] => none
  | k + 1, sym, x :: rest => takeSym k (shiftIn sym x) rest

/-- A tree parsed from the front of a bit sequence (R147, R182), with the bits after it: the grammar of R80 with distinct leaves. -/
def parseBits : Nat → Bits → List Byte → Option (HTree × List Byte × Bits)
  | 0, _, _ => none
  | _ + 1, [], _ => none
  | _ + 1, true :: rest, seen =>
    match takeSym 8 0#8 rest with
    | none => none
    | some (sym, rest') => if seen.contains sym then none else some (.leaf sym 0, sym :: seen, rest')
  | fuel + 1, false :: rest, seen =>
    match parseBits fuel rest seen with
    | none => none
    | some (l, seen₁, rest₁) =>
      match parseBits fuel rest₁ seen₁ with
      | none => none
      | some (r, seen₂, rest₂) => some (.node l r 0, seen₂, rest₂)

/-- The dictionary at the front of a bit sequence, and the residual after it. -/
def splitDictionary (bits : Bits) : Option (HTree × Bits) :=
  (parseBits (bits.length + 1) bits []).map fun p => (p.1, p.2.2)

/-- How many bits a parse asks for before it ends, in success or in FormatError (R147): one for a tag, nine where the tag is a leaf's (a
stream that ends inside them gives fewer), and for a node those of the left subtree and, if that one parsed, of the right. -/
def parseReads : Nat → Bits → List Byte → Nat
  | 0, _, _ => 0
  | _ + 1, [], _ => 1
  | _ + 1, true :: _, _ => 9
  | fuel + 1, false :: rest, seen =>
    1 + parseReads fuel rest seen +
      match parseBits fuel rest seen with
      | none => 0
      | some (_, seen₁, rest₁) => parseReads fuel rest₁ seen₁

/-- The bits asked for by the parse of the dictionary at the front of a bit sequence (R147, R148). -/
def dictionaryReads (bits : Bits) : Nat := parseReads (bits.length + 1) bits []

/-- `dec(F)` (R182): the bytes in the output file, and whether there was no FormatError. -/
def dec (F : List Byte) : List Byte × Bool :=
  if F = [0x80#8] then ([], true)
  else
    match splitDictionary (unpack F) with
    | none => ([], false)
    | some (t, R) => decodeResidual t R

/-- The bits in the buffer of an open RD channel that are not yet consumed, in delivery order (R23). -/
def Channel.unread (c : Channel) : Bits := ((List.range c.cur).map c.buf.getLsbD).reverse

/-- Every bit an open RD channel will still deliver (R23, R77, R79). -/
def Channel.toRead (c : Channel) (m : Memory) : Bits :=
  c.unread ++ (if c.pad then readPadded ((m.data c.fid).drop c.pos) else unpack ((m.data c.fid).drop c.pos))

/-- The bits in the buffer of an open WR channel, in the order written (R22). -/
def Channel.buffered (c : Channel) : Bits := (List.range (8 - c.cur)).map fun i => c.buf.getLsbD (7 - i)

/-- Every bit an open WR channel has been given since it was opened: those in its file and those buffered (R22, R61). -/
def Channel.written (c : Channel) (m : Memory) : Bits := unpack (m.data c.fid) ++ c.buffered

/-- The commands of a list executed in order, each from the state the one before left (R11). -/
def execAll : List Instr → State → Answer
  | [], s => .next s
  | i :: rest, s =>
    match exec i s with
    | .next t => execAll rest t
    | .fault r => .fault r
    | .refused r => .refused r

end Sys2Proof.Machine
end

