-- ==== Sys2Proof/Safety.lean ====
section
/-! DEFINITION. What statements about this machine are written in: the invariants of the spec (R22 to R30, R59), what each command may
write (R20 to R34, R51, R57), and the effect of a command on a stream (R22, R23, R61). -/
namespace Sys2Proof.Machine

/-! ### Invariants -/

/-- The invariant of one channel: closed with every field reset (R24), or open on an existing file with the read-mode (R21, R23) or
write-mode (R22) bounds. -/
abbrev Channel.Ok (m : Memory) (c : Channel) : Prop :=
  (c.isOpen = false → c = Channel.closed) ∧
  (c.isOpen = true → m.fileExists c.fid = true) ∧
  (c.isOpen = true → c.mode = .rd → c.cur ≤ 8 ∧ c.pos ≤ m.fileLen c.fid) ∧
  (c.isOpen = true → c.mode = .wr → 1 ≤ c.cur ∧ c.cur ≤ 8 ∧ c.pos = 0 ∧ ∀ i, i < c.cur → c.buf.getLsbD i = false)

/-- No file that one channel writes is bound to the other (R59). -/
abbrev State.Exclusive (s : State) : Prop :=
  (s.chan 0).isOpen = true → (s.chan 1).isOpen = true → (s.chan 0).fid = (s.chan 1).fid →
    (s.chan 0).mode = .rd ∧ (s.chan 1).mode = .rd

/-- The invariant of the streams: the store's canonical form (R34), both channels (R22 to R24), and exclusion (R59). -/
abbrev State.StreamsOk (s : State) : Prop :=
  s.files.wf = true ∧ (s.chan 0).Ok s.files ∧ (s.chan 1).Ok s.files ∧ s.Exclusive

/-- The invariant of the host-visible registers: the reserved bits of STATUS read 0 and its code is a named outcome (R29, R210), RES is a bit
or a count up to 256 (R30), and the program index does not pass the program's end (R11). -/
abbrev State.RegistersOk (s : State) : Prop :=
  s.status &&& 0xFFFFF8F8#32 = 0#32 ∧ statusCode s.status ≤ 4 ∧ s.res.toNat ≤ 256 ∧ s.pc ≤ s.program.length

/-- Every internal weight is the sum of its children's (R26, R27). -/
def HTree.sums : HTree → Bool
  | .leaf _ _ => true
  | .node l r w => l.sums && r.sums && decide (w = l.weight + r.weight)

/-- The weights of the leaves, left to right. -/
def HTree.leafWeights : HTree → List Nat
  | .leaf _ w => [w]
  | .node l r _ => l.leafWeights ++ r.leafWeights

/-- The tree with every weight 0, as a parse gives it (R27, R147). -/
def HTree.zeroed : HTree → HTree
  | .leaf b _ => .leaf b 0
  | .node l r _ => .node l.zeroed r.zeroed 0

/-- The invariant of a tree in TREE (R26, R27): leaves pairwise distinct, weights sums, and either every leaf counts at least one (TBUILD)
or every leaf weighs nothing (TDES). -/
def HTree.Ok (t : HTree) : Prop :=
  t.syms.Nodup ∧ t.sums = true ∧ ((∀ w ∈ t.leafWeights, 1 ≤ w) ∨ (∀ w ∈ t.leafWeights, w = 0))

/-- The invariant of the code table: lengths 1 to 255 (R28) and prefix freedom (R137). -/
def CodeTable.Ok (C : CodeTable) : Prop :=
  (∀ b w, C.get b = some w → 1 ≤ w.length ∧ w.length ≤ Config.codeMax) ∧
  (∀ a b v w, C.get a = some v → C.get b = some w → a ≠ b → ¬ v <+: w)

/-- The invariant of the datapath tables (R25 to R28): counts fit 32 bits, the tree and the codes are well formed. -/
def State.TablesOk (s : State) : Prop :=
  (∀ b, s.freq.get b < 4294967296) ∧ (∀ t, s.tree = some t → t.Ok) ∧ s.code.Ok

/-- Every element of the block at the value of the reset table (R39, R240). -/
abbrev State.AtReset (s : State) : Prop :=
  (∀ ch, s.chan ch = { isOpen := false, mode := .rd, pad := false, buf := 0#8, cur := 0, fid := 0, pos := 0 }) ∧
  (∀ b, s.freq.get b = 0) ∧ s.tree = none ∧ (∀ b, s.code.get b = none) ∧ s.status = 0#32 ∧ s.res = 0#32 ∧
  ∀ i : Fin 32, s.dbuf[i.val] = 0#8

/-! ### Paths in a tree -/

/-- The subtree reached from the root by a bit sequence: 0 goes left, 1 goes right (R135, R164). -/
def HTree.follow : HTree → Bits → Option HTree
  | t, [] => some t
  | .leaf _ _, _ :: _ => none
  | .node l r _, x :: rest => if x then r.follow rest else l.follow rest

/-! ### What a command may write -/

/-- The commands that write FREQ (R25). -/
def writesFreq : Instr → Bool
  | .fscan _ | .henc _ _ | .hdec _ _ | .sreset => true
  | .nop | .clrerr | .bsopen _ _ _ _ | .bsclose _ | .rdbit _ | .wrbit _ _ | .rdbits _ _ | .wrbits _ _ | .tbuild | .cgen
  | .tser _ | .tdes _ | .penc _ _ | .trail _ | .pdec _ _ => false

/-- The commands that write TREE (R26). -/
def writesTree : Instr → Bool
  | .tbuild | .tdes _ | .henc _ _ | .hdec _ _ | .sreset => true
  | .nop | .clrerr | .bsopen _ _ _ _ | .bsclose _ | .rdbit _ | .wrbit _ _ | .rdbits _ _ | .wrbits _ _ | .fscan _ | .cgen
  | .tser _ | .penc _ _ | .trail _ | .pdec _ _ => false

/-- The commands that write CODE (R28). -/
def writesCode : Instr → Bool
  | .cgen | .henc _ _ | .hdec _ _ | .sreset => true
  | .nop | .clrerr | .bsopen _ _ _ _ | .bsclose _ | .rdbit _ | .wrbit _ _ | .rdbits _ _ | .wrbits _ _ | .fscan _ | .tbuild
  | .tser _ | .tdes _ | .penc _ _ | .trail _ | .pdec _ _ => false

/-- The commands that write RES (R30). -/
def writesRes : Instr → Bool
  | .rdbit _ | .rdbits _ _ | .sreset => true
  | .nop | .clrerr | .bsopen _ _ _ _ | .bsclose _ | .wrbit _ _ | .wrbits _ _ | .fscan _ | .tbuild | .cgen
  | .tser _ | .tdes _ | .penc _ _ | .trail _ | .pdec _ _ | .henc _ _ | .hdec _ _ => false

/-- The commands that write DBUF (R31). -/
def writesDbuf : Instr → Bool
  | .rdbits _ _ | .sreset => true
  | .nop | .clrerr | .bsopen _ _ _ _ | .bsclose _ | .rdbit _ | .wrbit _ _ | .wrbits _ _ | .fscan _ | .tbuild | .cgen
  | .tser _ | .tdes _ | .penc _ _ | .trail _ | .pdec _ _ | .henc _ _ | .hdec _ _ => false

/-- The channel a command names (R71). SRESET resets both and names none. -/
def channelOf : Instr → Option ChanId
  | .bsopen ch _ _ _ | .bsclose ch | .rdbit ch | .wrbit ch _ | .rdbits ch _ | .wrbits ch _ | .tser ch | .tdes ch
  | .penc ch _ | .trail ch | .pdec ch _ => some ch
  | .nop | .clrerr | .sreset | .fscan _ | .tbuild | .cgen | .henc _ _ | .hdec _ _ => none

/-- The file of channel `ch` if the channel is open for WR (R22, R61). -/
def writtenFile (s : State) (ch : ChanId) : Option FileId :=
  if s.openFor .wr ch then some (s.chan ch).fid else none

/-- The file a command stores to from state `s`: a channel's own file, appended to (R61, R102, R105), or the output file it creates or
truncates (R101, R165, R180, R181). All other commands store nothing. -/
def storesTo (s : State) : Instr → Option FileId
  | .bsopen _ fa .wr _ => some fa
  | .bsopen _ _ .rd _ | .bsopen _ _ .m2 _ | .bsopen _ _ .m3 _ => none
  | .bsclose ch | .wrbit ch _ | .wrbits ch _ | .tser ch | .penc ch _ | .trail ch => writtenFile s ch
  | .pdec _ fb | .henc _ fb | .hdec _ fb => some fb
  | .nop | .clrerr | .sreset | .rdbit _ | .rdbits _ _ | .fscan _ | .tbuild | .cgen | .tdes _ => none

/-- The commands that store only by appending to their channel's file: every byte already in it stays (R51, R57). -/
def appendsOnly : Instr → Bool
  | .bsclose _ | .wrbit _ _ | .wrbits _ _ | .tser _ | .penc _ _ | .trail _ => true
  | .nop | .clrerr | .sreset | .bsopen _ _ _ _ | .rdbit _ | .rdbits _ _ | .fscan _ | .tbuild | .cgen | .tdes _ | .pdec _ _
  | .henc _ _ | .hdec _ _ => false

/-- The pipelines, which release the tables on every exit (R180, R181). -/
def releases : Instr → Bool
  | .henc _ _ | .hdec _ _ => true
  | .nop | .clrerr | .sreset | .bsopen _ _ _ _ | .bsclose _ | .rdbit _ | .wrbit _ _ | .rdbits _ _ | .wrbits _ _ | .fscan _
  | .tbuild | .cgen | .tser _ | .tdes _ | .penc _ _ | .trail _ | .pdec _ _ => false

/-! ### The effect on a stream -/

/-- Two contexts of one handle: the fields fixed at open agree (R21). -/
def Channel.sameHandle (c d : Channel) : Prop :=
  c.isOpen = d.isOpen ∧ c.mode = d.mode ∧ c.pad = d.pad ∧ c.fid = d.fid

/-- `t` is `s` after an OK command that put the bits `bits` on the WR channel `ch` and did nothing else: the stream has grown by exactly these
bits, the bytes already in the file stay, and no other file changes (R22, R52, R61, R105). -/
def Wrote (s : State) (ch : ChanId) (bits : Bits) (t : State) : Prop :=
  ∃ c m, t = (s.setStream ch (c, m)).complete .ok ∧ c.sameHandle (s.chan ch) ∧ c.Ok m ∧
    c.written m = (s.chan ch).written s.files ++ bits ∧
    (∀ f, f ≠ (s.chan ch).fid → m.file f = s.files.file f) ∧
    (∀ off, off < s.files.fileLen (s.chan ch).fid → m.read? (s.chan ch).fid off = s.files.read? (s.chan ch).fid off)

/-- `c` is the RD channel `d` later in its stream, with exactly `rest` left to deliver (R23, R79). -/
def Channel.leaves (c d : Channel) (m : Memory) (rest : Bits) : Prop :=
  c.sameHandle d ∧ c.Ok m ∧ c.toRead m = rest

end Sys2Proof.Machine
end

