-- ==== Sys2Proof/Certificates/Slice0/Obligations.lean ====
section
/-! DEFINITION. The statements about the model, each from the rules of the spec its docstring names. -/

open Sys2Proof Sys2Proof.Machine

/-! ### Encodings -/

/-- R71, R73: decoding the encoding of every well-formed command gives it back, with every operand at every value. -/
def Obligations.DecodeEncodeIsIdentity : Prop :=
  ∀ i : Instr, i.wellFormed = true → decode (encode i) = .instr i

/-- R71, R73, R74: every word that decodes at all is the encoding of the well-formed command it decodes to, so no bit of a legal word is
ignored and every set bit of an unused field makes the word illegal. -/
def Obligations.LegalWordsAreEncodings : Prop :=
  ∀ (w : Word) (i : Instr), decode w = .instr i → i.wellFormed = true ∧ encode i = w

/-- R71: the rows of the opcode map are disjoint: no word matches two of them. -/
def Obligations.OpcodeRowsAreDisjoint : Prop :=
  ∀ (w : Word) (j k : Fin 19) (r q : Row), opcodeMap[j.val]? = some r → opcodeMap[k.val]? = some q →
    w &&& r.mask = r.pattern → w &&& q.mask = q.pattern → j = k

/-- R76: the spec's own examples of command words decode to the commands they are given for. -/
def Obligations.SpecExampleWordsDecode : Prop :=
  decode 0x10010600#32 = .instr (.bsopen 0 1 .wr true) ∧
  decode 0x10110000#32 = .instr (.bsopen 1 1 .rd false) ∧
  decode 0x13000001#32 = .instr (.wrbit 0 true) ∧
  decode 0x1410000C#32 = .instr (.rdbits 1 12) ∧
  decode 0x30000000#32 = .instr (.penc 0 0) ∧
  decode 0x32102000#32 = .instr (.pdec 1 2) ∧
  decode 0x40001000#32 = .instr (.henc 0 1) ∧
  decode 0x41012000#32 = .instr (.hdec 1 2)

/-- R74, R73 (3): the illegal encodings, each of which completes with CmdError and changes nothing but STATUS (and the program index):
every opcode not in the map, every word of a listed opcode with a set bit in an unused field, a channel from 2 to 15, a count from
257 to 511. -/
def Obligations.IllegalWordsEndInCmdError : Prop :=
  (∀ w : Word, (∀ r ∈ opcodeMap, w.extractLsb' 24 8 ≠ r.pattern.extractLsb' 24 8) → ∃ why, decode w = .illegal why) ∧
  (∀ w : Word, ∀ r ∈ opcodeMap, w.extractLsb' 24 8 = r.pattern.extractLsb' 24 8 → w &&& r.mask ≠ r.pattern →
    ∃ why, decode w = .illegal why) ∧
  (∀ w : Word, (w.extractLsb' 24 8).toNat ∈ [0x10, 0x11, 0x12, 0x13, 0x14, 0x15, 0x23, 0x24, 0x30, 0x31, 0x32] →
    2 ≤ (w.extractLsb' 20 4).toNat → ∃ why, decode w = .illegal why) ∧
  (∀ w : Word, (w.extractLsb' 24 8).toNat ∈ [0x14, 0x15] → 257 ≤ (w.extractLsb' 0 9).toNat → ∃ why, decode w = .illegal why) ∧
  (∀ (w : Word) (s : State) (why : Illegal), decode w = .illegal why →
    runWord w s = .next { s with status := (s.status &&& 0x700#32) ||| 0x404#32, pc := s.pc + 1 })

/-! ### The step -/

/-- R2, R11, R73 (3): when no host move is due, a step executes the command its next word decodes to, completes an illegal word with
CmdError, and there is no step after the program's last word (that the missing step is the fault `runEnded` is the model's choice, log 3). -/
def Obligations.StepRunsTheDecodedCommand : Prop :=
  (∀ (s : State) (w : Word) (i : Instr), s.dueMove = none → s.program[s.pc]? = some w → decode w = .instr i →
    step s = exec i s) ∧
  (∀ (s : State) (w : Word) (why : Illegal), s.dueMove = none → s.program[s.pc]? = some w → decode w = .illegal why →
    step s = .next { s with status := (s.status &&& 0x700#32) ||| 0x404#32, pc := s.pc + 1 }) ∧
  (∀ s : State, s.dueMove = none → s.program.length ≤ s.pc → step s = .fault .runEnded)

/-- R3, R33, R64: a due move of the host is a step of its own. A put file has exactly the given bytes and a removed one does not exist, an
unbound file being the only one the host may change (a bound one refuses, U9); a write of DBUF[i] stores the low eight bits
(log 7), a write of STATUS, RES or an unused number is ignored, and a write of CMD executes the word, an illegal one
completing with CmdError. The schedule is the model's (log 4, log 6). -/
def Obligations.HostMovesAct : Prop :=
  ∀ (s : State) (k : Nat) (rest : List (Nat × HostMove)), k ≤ s.pc →
    (∀ f data, s.hostMoves = (k, .putFile f data) :: rest → s.bound f = false →
      step s = .next { s with hostMoves := rest, files := s.files.setFile f { present := true, data := data } }) ∧
    (∀ f, s.hostMoves = (k, .removeFile f) :: rest → s.bound f = false →
      step s = .next { s with hostMoves := rest, files := s.files.setFile f { present := false, data := [] } }) ∧
    (∀ f data, s.hostMoves = (k, .putFile f data) :: rest ∨ s.hostMoves = (k, .removeFile f) :: rest → s.bound f = true →
      step s = .refused .hostTouchesBoundFile) ∧
    (∀ (i : Fin 32) (v : Word), s.hostMoves = (k, .writeReg (32 + i.val) v) :: rest →
      step s = .next { s with hostMoves := rest, dbuf := s.dbuf.set i.val (v.extractLsb' 0 8) }) ∧
    (∀ (n : Nat) (v : Word), s.hostMoves = (k, .writeReg n v) :: rest → 1 ≤ n → n < 32 ∨ 64 ≤ n →
      step s = .next { s with hostMoves := rest }) ∧
    (∀ (v : Word) (i : Instr), s.hostMoves = (k, .writeReg 0 v) :: rest → decode v = .instr i →
      step s = exec i { s with
        hostMoves := rest, program := s.program.take s.pc ++ v :: s.program.drop s.pc }) ∧
    (∀ (v : Word) (why : Illegal), s.hostMoves = (k, .writeReg 0 v) :: rest → decode v = .illegal why →
      step s = .next { s with
        hostMoves := rest, program := s.program.take s.pc ++ v :: s.program.drop s.pc,
        status := (s.status &&& 0x700#32) ||| 0x404#32, pc := s.pc + 1 })

/-- R33, R32, R31: what the host reads from each register number, that a write to STATUS, RES or an unused number is ignored, and that a
write of DBUF[i] changes that register alone. That a DBUF write keeps the low byte of its 32-bit value and that a DBUF read is zero-extended is
the model's choice (log 7). -/
def Obligations.RegisterMap : Prop :=
  ∀ s : State,
    hostReadReg 0 s = 0#32 ∧ hostReadReg 1 s = s.status ∧ hostReadReg 2 s = s.res ∧
    (∀ i : Fin 32, hostReadReg (32 + i.val) s = s.dbuf[i.val].setWidth 32) ∧
    (∀ n, 3 ≤ n → n ≤ 31 ∨ 64 ≤ n → hostReadReg n s = 0#32) ∧
    (∀ n v, 1 ≤ n → n ≤ 31 ∨ 64 ≤ n → hostWriteReg n v s = .next s) ∧
    (∀ (i : Fin 32) v, ∃ t, hostWriteReg (32 + i.val) v s = .next t ∧ t = { s with dbuf := t.dbuf } ∧
      t.dbuf[i.val] = v.extractLsb' 0 8 ∧ ∀ j : Fin 32, j ≠ i → t.dbuf[j.val] = s.dbuf[j.val])

/-- The model's interface to a program (log 1): with a legal word placed where the next step fetches, that step executes its command. -/
def Obligations.PlacedWordRunsNext : Prop :=
  ∀ (s : State) (w : Word) (i : Instr), decode w = .instr i →
    step (s.withFetchWord 32 w.toNat) = exec i (s.withFetchWord 32 w.toNat)

/-- R39, R240, R202: the reset table holds after power-on reset, where `pc` is 0, and after SRESET, which leaves the file store and
moves the program index on by one. -/
def Obligations.ResetTableHolds : Prop :=
  State.reset.AtReset ∧ State.reset.pc = 0 ∧ encode .sreset = 0x02000000#32 ∧
  ∀ s : State, ∃ t, exec .sreset s = .next t ∧ t.AtReset ∧ t.files = s.files ∧ t.pc = s.pc + 1 ∧
    t.program = s.program ∧ t.hostMoves = s.hostMoves

/-! ### Outcomes (R210 to R218) -/

/-- R210, R215, R37: every command that completes records exactly one outcome code in STATUS, sets the sticky bit of an error,
keeps the other sticky bits (CLRERR and SRESET apart, which clear them), leaves the reserved bits zero, and moves the program index
on by exactly one. -/
def Obligations.EveryCommandRecordsOneOutcome : Prop :=
  ∀ (i : Instr) (s t : State), exec i s = .next t →
    statusCode t.status ≤ 4 ∧ t.status &&& 0xFFFFF8F8#32 = 0#32 ∧ t.pc = s.pc + 1 ∧ t.program = s.program ∧
    t.hostMoves = s.hostMoves ∧
    (i ≠ .clrerr → i ≠ .sreset →
      statusSfile t.status = (statusSfile s.status || decide (statusCode t.status = 2)) ∧
      statusSfmt t.status = (statusSfmt s.status || decide (statusCode t.status = 3)) ∧
      statusScmd t.status = (statusScmd s.status || decide (statusCode t.status = 4)))

/-- R211 to R214: which commands can end with EOS, with FormatError and with CmdError, and which always end OK. -/
def Obligations.OutcomesByCommand : Prop :=
  ∀ (i : Instr) (s t : State), i.wellFormed = true → exec i s = .next t →
    (statusCode t.status = 1 → ∃ ch, i = .rdbit ch) ∧
    (statusCode t.status = 3 → (∃ ch, i = .tdes ch) ∨ (∃ ch fb, i = .pdec ch fb) ∨ ∃ fa fb, i = .hdec fa fb) ∧
    (statusCode t.status = 4 → (∃ ch fa, i = .penc ch fa) ∨ ∃ ch fb, i = .pdec ch fb) ∧
    (i = .nop ∨ i = .clrerr ∨ i = .sreset ∨ i = .tbuild ∨ i = .cgen → statusCode t.status = 0)

/-- R216: a command that ends with FileError or CmdError changes nothing but STATUS and, for HENC and HDEC, releases the tables. -/
def Obligations.FileAndCmdErrorsChangeOnlyStatus : Prop :=
  ∀ (i : Instr) (s t : State), exec i s = .next t → statusCode t.status = 2 ∨ statusCode t.status = 4 →
    t = { (if releases i then s.release else s) with status := t.status, pc := s.pc + 1 }

/-- R218: errors do not block, mask or skip later commands: what a command does never depends on what STATUS held. -/
def Obligations.StatusNeverSteersACommand : Prop :=
  ∀ (i : Instr) (s t : State) (w : Word), exec i s = .next t →
    ∃ t', exec i { s with status := w } = .next t' ∧ t' = { t with status := t'.status } ∧
      statusCode t'.status = statusCode t.status

/-- R2, R249, U6 (with the parameter RMAX at its default, log 9): every command completes from every state whose files are shorter than
2^32 bytes; on a longer readable input FSCAN, PENC and HENC refuse, where the spec gives no meaning (log 8). -/
def Obligations.EveryCommandCompletes : Prop :=
  (∀ (i : Instr) (s : State), (∀ f, s.files.fileLen f < 4294967296) → ∃ t, exec i s = .next t) ∧
  (∀ (fa : FileId) (s : State), s.readable fa = true → 4294967296 ≤ s.files.fileLen fa →
    exec (.fscan fa) s = .refused .inputTooLong ∧
    (∀ ch, s.openFor .wr ch = true → exec (.penc ch fa) s = .refused .inputTooLong) ∧
    ∀ fb, fa ≠ fb → s.writable fb = true → exec (.henc fa fb) s = .refused .inputTooLong)

/-! ### Frames -/

/-- R25, R26, R28, R30, R31: FREQ, TREE, CODE, RES and DBUF are written only by the commands these rules name. -/
def Obligations.TablesAndRegistersFrame : Prop :=
  ∀ (i : Instr) (s t : State), exec i s = .next t →
    (writesFreq i = false → t.freq = s.freq) ∧ (writesTree i = false → t.tree = s.tree) ∧
    (writesCode i = false → t.code = s.code) ∧ (writesRes i = false → t.res = s.res) ∧
    (writesDbuf i = false → t.dbuf = s.dbuf)

/-- R20, R21: a command changes no channel but the one it names (SRESET apart), and only BSOPEN, BSCLOSE and SRESET change the fields that
are fixed at open. -/
def Obligations.ChannelsFrame : Prop :=
  ∀ (i : Instr) (s t : State) (ch : ChanId), exec i s = .next t → i ≠ .sreset →
    (channelOf i ≠ some ch → t.chan ch = s.chan ch) ∧
    ((∀ fa md pad, i ≠ .bsopen ch fa md pad) → i ≠ .bsclose ch → (t.chan ch).sameHandle (s.chan ch))

/-- R34, R51, R57, R61: every byte of the file store reads as before, but those of the one file the command stores to; a command that appends
to its channel's file leaves every byte already in it; existence changes nowhere else. -/
def Obligations.FileStoreFrame : Prop :=
  ∀ (i : Instr) (s t : State) (f : FileId), exec i s = .next t →
    (storesTo s i ≠ some f → (∀ off, t.files.read? f off = s.files.read? f off) ∧
      t.files.fileExists f = s.files.fileExists f) ∧
    (appendsOnly i = true → ∀ off, off < s.files.fileLen f → t.files.read? f off = s.files.read? f off)

/-! ### Invariants -/

/-- The stream invariants hold after reset (R39). The empty file store of reset is the model's choice (log 2). -/
def Obligations.ResetMeetsTheInvariants : Prop :=
  State.reset.StreamsOk ∧ State.reset.RegistersOk ∧ State.reset.TablesOk

/-- R22, R23, R24, R34, R59: every step, of the engine or of the host, keeps the canonical form of the store, the read-mode,
write-mode and closed-channel invariants, and the exclusion of writers. -/
def Obligations.StepKeepsStreamInvariants : Prop :=
  ∀ s t : State, s.StreamsOk → step s = .next t → t.StreamsOk

/-- R11, R29, R30: every step keeps STATUS legal with its reserved bits zero, RES at most 256, and the program index inside the program. -/
def Obligations.StepKeepsRegisterInvariants : Prop :=
  ∀ s t : State, s.RegistersOk → step s = .next t → t.RegistersOk

/-- R25 to R28, R137: every step keeps the counts below 2^32, the tree's leaves distinct and its weights sums, and the codes prefix-free
with lengths from 1 to 255. -/
def Obligations.StepKeepsTableInvariants : Prop :=
  ∀ s t : State, s.TablesOk → step s = .next t → t.TablesOk

/-! ### System commands -/

/-- R200: NOP is the word 0, changes nothing but STATUS.code, and any other word of opcode 0 is illegal. -/
def Obligations.NopOnlyCompletes : Prop :=
  encode .nop = 0x00000000#32 ∧
  (∀ s : State, exec .nop s = .next { s with status := s.status &&& 0x700#32, pc := s.pc + 1 }) ∧
  (∀ (w : Word) (s : State), w.extractLsb' 24 8 = 0x00#8 → w ≠ 0#32 →
    runWord w s = .next { s with status := (s.status &&& 0x700#32) ||| 0x404#32, pc := s.pc + 1 })

/-- R201: CLRERR leaves STATUS zero and changes nothing else. -/
def Obligations.ClrerrClearsStatus : Prop :=
  encode .clrerr = 0x01000000#32 ∧
  ∀ s : State, exec .clrerr s = .next { s with status := 0#32, pc := s.pc + 1 }

/-! ### The file store and binding -/

/-- R51: the file primitives. That an append to an absent file makes it exist is the model's choice (log 12), for R51 sets only the data. -/
def Obligations.FilePrimitives : Prop :=
  ∀ (m : Memory) (f g : FileId) (v : Byte) (off : Nat),
    m.fileExists f = (m.file f).present ∧ m.fileLen f = (m.file f).data.length ∧
    (∀ h : off < (m.file f).data.length, m.read? f off = some (m.file f).data[off]) ∧
    ((m.file f).data.length ≤ off → m.read? f off = none) ∧
    (m.append f v).file f = { present := true, data := (m.file f).data ++ [v] } ∧
    (m.truncate f).file f = { present := true, data := [] } ∧
    (g ≠ f → (m.append f v).file g = m.file g ∧ (m.truncate f).file g = m.file g)

/-- R59: a file is readable when it exists and no open channel writes it, writable when no open channel is bound to it. -/
def Obligations.ReadableAndWritable : Prop :=
  ∀ (s : State) (f : FileId),
    (s.readable f = true ↔ s.files.fileExists f = true ∧
      ∀ ch, ¬ ((s.chan ch).isOpen = true ∧ (s.chan ch).fid = f ∧ (s.chan ch).mode = .wr)) ∧
    (s.writable f = true ↔ ∀ ch, ¬ ((s.chan ch).isOpen = true ∧ (s.chan ch).fid = f))

/-! ### BitStream -/

/-- R101: BSOPEN, its checks in their order and the two contexts it makes. -/
def Obligations.BsopenOpensOrFails : Prop :=
  ∀ (ch : ChanId) (fa : FileId) (mode : ModeArg) (pad : Bool) (s : State),
    (encode (.bsopen ch fa mode pad)).extractLsb' 24 8 = 0x10#8 ∧
    ((s.chan ch).isOpen = true → exec (.bsopen ch fa mode pad) s = .next (s.complete .fileError)) ∧
    (mode = .m2 ∨ mode = .m3 → exec (.bsopen ch fa mode pad) s = .next (s.complete .fileError)) ∧
    ((s.chan ch).isOpen = false → s.readable fa = false →
      exec (.bsopen ch fa .rd pad) s = .next (s.complete .fileError)) ∧
    ((s.chan ch).isOpen = false → s.readable fa = true →
      exec (.bsopen ch fa .rd pad) s = .next ((s.setChan ch
        { isOpen := true, mode := .rd, pad := pad, buf := 0#8, cur := 0, fid := fa, pos := 0 }).complete .ok)) ∧
    ((s.chan ch).isOpen = false → s.writable fa = false →
      exec (.bsopen ch fa .wr pad) s = .next (s.complete .fileError)) ∧
    ((s.chan ch).isOpen = false → s.writable fa = true →
      exec (.bsopen ch fa .wr pad) s = .next (((s.setChan ch
        { isOpen := true, mode := .wr, pad := pad, buf := 0#8, cur := 8, fid := fa, pos := 0 }).setFiles
          (s.files.setFile fa { present := true, data := [] })).complete .ok))

/-- R102: BSCLOSE, case by case. In the states that the invariant of R22 excludes (a channel open for WR with a cursor that is not 1 to 8), where
the clauses follow the pseudocode with natural-number subtraction, they are the model's choice (log 12). -/
def Obligations.BscloseFlushesAndReleases : Prop :=
  ∀ (ch : ChanId) (s : State),
    (encode (.bsclose ch)).extractLsb' 24 8 = 0x11#8 ∧
    ((s.chan ch).isOpen = false → exec (.bsclose ch) s = .next (s.complete .fileError)) ∧
    ((s.chan ch).isOpen = true → (s.chan ch).mode = .rd →
      exec (.bsclose ch) s = .next ((s.setChan ch Channel.closed).complete .ok)) ∧
    ((s.chan ch).isOpen = true → (s.chan ch).mode = .wr → (s.chan ch).pad = true →
      exec (.bsclose ch) s = .next (((s.setChan ch Channel.closed).setFiles
        (s.files.append (s.chan ch).fid ((s.chan ch).buf ||| (1#8 <<< ((s.chan ch).cur - 1))))).complete .ok)) ∧
    ((s.chan ch).isOpen = true → (s.chan ch).mode = .wr → (s.chan ch).pad = false → (s.chan ch).cur < 8 →
      exec (.bsclose ch) s = .next (((s.setChan ch Channel.closed).setFiles
        (s.files.append (s.chan ch).fid (s.chan ch).buf)).complete .ok)) ∧
    ((s.chan ch).isOpen = true → (s.chan ch).mode = .wr → (s.chan ch).pad = false → (s.chan ch).cur = 8 →
      exec (.bsclose ch) s = .next ((s.setChan ch Channel.closed).complete .ok))

/-- R103: GetBit and its loader, case by case, `p` being the place of the lowest set bit; after EOS the channel is
empty at the end of its file, and EOS is final. In the states that R21 and R23 exclude (a context not open for RD, a cursor above 8, a position past
the end of the file), where the clauses follow the pseudocode, they are the model's choice (log 12). -/
def Obligations.GetBitFollowsTheLoader : Prop :=
  ∀ (m : Memory) (c : Channel),
    (c.cur ≠ 0 → getBit m c = (some (c.buf.getLsbD (c.cur - 1)), { c with cur := c.cur - 1 })) ∧
    (c.cur = 0 → c.pos = m.fileLen c.fid → getBit m c = (none, c)) ∧
    (∀ b, c.cur = 0 → m.read? c.fid c.pos = some b → ¬ (c.pad = true ∧ c.pos + 1 = m.fileLen c.fid) →
      getBit m c = (some (b.getLsbD 7), { c with pos := c.pos + 1, buf := b, cur := 7 })) ∧
    (c.cur = 0 → m.read? c.fid c.pos = some 0#8 → c.pad = true → c.pos + 1 = m.fileLen c.fid →
      getBit m c = (none, { c with pos := c.pos + 1, buf := 0#8, cur := 0 })) ∧
    (∀ b p, c.cur = 0 → m.read? c.fid c.pos = some b → c.pad = true → c.pos + 1 = m.fileLen c.fid → p < 8 →
      b.getLsbD p = true → (∀ q, q < p → b.getLsbD q = false) →
      (p = 7 → getBit m c = (none, { c with pos := c.pos + 1, buf := 0#8, cur := 0 })) ∧
      (p < 7 → getBit m c = (some (b.getLsbD 7), { c with pos := c.pos + 1, buf := b >>> (p + 1), cur := 6 - p }))) ∧
    (∀ c', getBit m c = (none, c') → getBit m c' = (none, c') ∧
      (c.pos ≤ m.fileLen c.fid → c'.cur = 0 ∧ c'.pos = m.fileLen c.fid))

/-- R105: PutBit places the bit at position `cur − 1` and flushes a full byte. -/
def Obligations.PutBitPlacesAndFlushes : Prop :=
  ∀ (m : Memory) (c : Channel) (b : Bool), 1 ≤ c.cur → c.cur ≤ 8 →
    (c.cur ≠ 1 → putBit (c, m) b =
      ({ c with buf := c.buf ||| ((if b then 1#8 else 0#8) <<< (c.cur - 1)), cur := c.cur - 1 }, m)) ∧
    (c.cur = 1 → putBit (c, m) b =
      ({ c with buf := 0#8, cur := 8 }, m.append c.fid (c.buf ||| (if b then 1#8 else 0#8))))

/-- R104 with R23, R79: RDBIT delivers exactly the next bit left in the channel's stream and leaves the rest; at the end of the stream it
ends with EOS and RES keeps its value; a channel not open for RD is FileError. -/
def Obligations.RdbitDeliversTheNextBit : Prop :=
  ∀ (ch : ChanId) (s : State),
    (s.openFor .rd ch = false → exec (.rdbit ch) s = .next (s.complete .fileError)) ∧
    (∀ b rest, s.openFor .rd ch = true → (s.chan ch).Ok s.files → (s.chan ch).toRead s.files = b :: rest →
      ∃ c, exec (.rdbit ch) s = .next (((s.setChan ch c).setRes (if b then 1#32 else 0#32)).complete .ok) ∧
        c.leaves (s.chan ch) s.files rest) ∧
    (s.openFor .rd ch = true → (s.chan ch).Ok s.files → (s.chan ch).toRead s.files = [] →
      ∃ c, exec (.rdbit ch) s = .next ((s.setChan ch c).complete .eos) ∧ c.leaves (s.chan ch) s.files [])

/-- R106 with R22, R52: WRBIT adds exactly its bit to the channel's stream; a channel not open for WR is FileError. -/
def Obligations.WrbitAppendsItsBit : Prop :=
  ∀ (ch : ChanId) (b : Bool) (s : State),
    (s.openFor .wr ch = false → exec (.wrbit ch b) s = .next (s.complete .fileError)) ∧
    (s.openFor .wr ch = true → (s.chan ch).Ok s.files → ∃ t, exec (.wrbit ch b) s = .next t ∧ Wrote s ch [b] t)

/-- R107 with R53: RDBITS takes the first n bits left (all of them when fewer are left, still OK), RES is their count, bit i of DBUF is
the i-th of them and every other bit of DBUF is 0. A count above 256, which no word decodes to (R74), is CmdError (log 14). -/
def Obligations.RdbitsFillsTheBuffer : Prop :=
  ∀ (ch : ChanId) (n : Nat) (s : State),
    (256 < n → exec (.rdbits ch n) s = .next (s.complete .cmdError)) ∧
    (n ≤ 256 → s.openFor .rd ch = false → exec (.rdbits ch n) s = .next (s.complete .fileError)) ∧
    (n ≤ 256 → s.openFor .rd ch = true → (s.chan ch).Ok s.files →
      ∃ c d, exec (.rdbits ch n) s = .next ((((s.setChan ch c).setDbuf d).setRes
          (BitVec.ofNat 32 (min n ((s.chan ch).toRead s.files).length))).complete .ok) ∧
        c.leaves (s.chan ch) s.files (((s.chan ch).toRead s.files).drop n) ∧
        ∀ i, i < 256 → d.bit i = ((((s.chan ch).toRead s.files).take n)[i]?).getD false)

/-- R108 with R53: WRBITS adds to the channel's stream the bits `DBUF[i div 8][i mod 8]` for i below n, in order. That a count above 256,
which no word decodes to (R74), is CmdError is the model's choice (log 14). -/
def Obligations.WrbitsAppendsBufferBits : Prop :=
  ∀ (ch : ChanId) (n : Nat) (s : State),
    (256 < n → exec (.wrbits ch n) s = .next (s.complete .cmdError)) ∧
    (n ≤ 256 → s.openFor .wr ch = false → exec (.wrbits ch n) s = .next (s.complete .fileError)) ∧
    (n ≤ 256 → s.openFor .wr ch = true → (s.chan ch).Ok s.files →
      ∃ bits t, exec (.wrbits ch n) s = .next t ∧ Wrote s ch bits t ∧ bits.length = n ∧
        ∀ (i : Nat) (h : i < 256), i < n → bits[i]? = some ((s.dbuf[i / 8]'(by omega)).getLsbD (i % 8)))

/-- R77, R78: a write session, opened on any writable file and closed after any bits, produces exactly the unpadded or padded file of the bits written,
and touches no other file. -/
def Obligations.WriteSessionProducesItsFile : Prop :=
  ∀ (ch : ChanId) (f : FileId) (pad : Bool) (bits : Bits) (s : State), (s.chan ch).isOpen = false → s.writable f = true →
    ∃ t, execAll (.bsopen ch f .wr pad :: (bits.map fun b => .wrbit ch b) ++ [.bsclose ch]) s = .next t ∧
      t.files.file f = { present := true, data := if pad then paddedFile bits else unpaddedFile bits } ∧
      (∀ g, g ≠ f → t.files.file g = s.files.file g) ∧ t.chan ch = Channel.closed

/-- R77, R79: a read session on any readable file delivers exactly the file's bits: the k-th RDBIT gives the k-th of them, and EOS once
there are no more. -/
def Obligations.ReadSessionDeliversTheFile : Prop :=
  ∀ (ch : ChanId) (f : FileId) (pad : Bool) (k : Nat) (s : State), (s.chan ch).isOpen = false → s.readable f = true →
    ∃ t, execAll (.bsopen ch f .rd pad :: List.replicate (k + 1) (.rdbit ch)) s = .next t ∧
      (∀ b, (if pad then readPadded (s.files.data f) else unpack (s.files.data f))[k]? = some b →
        statusCode t.status = 0 ∧ t.res = if b then 1#32 else 0#32) ∧
      ((if pad then readPadded (s.files.data f) else unpack (s.files.data f)).length ≤ k → statusCode t.status = 1)

/-- R109: sentinel correctness: a padded session produces the file of R78, whose trailer is 8 − (len mod 8) bits, and reading it back with
padding delivers exactly the bits written and then EOS; without padding on both sides the reader delivers them and the fill, then EOS. -/
def Obligations.SentinelRoundTrip : Prop :=
  (∀ bits : Bits, 8 * (paddedFile bits).length = bits.length + (8 - bits.length % 8)) ∧
  ∀ (ch : ChanId) (f : FileId) (bits : Bits) (k : Nat) (s : State), (s.chan ch).isOpen = false → s.writable f = true →
    (∃ t u, execAll (.bsopen ch f .wr true :: (bits.map fun b => .wrbit ch b) ++ [.bsclose ch]) s = .next t ∧
      t.files.data f = paddedFile bits ∧
      execAll (.bsopen ch f .rd true :: List.replicate (k + 1) (.rdbit ch)) t = .next u ∧
      (∀ b, bits[k]? = some b → statusCode u.status = 0 ∧ u.res = if b then 1#32 else 0#32) ∧
      (bits.length ≤ k → statusCode u.status = 1)) ∧
    (∃ t u, execAll (.bsopen ch f .wr false :: (bits.map fun b => .wrbit ch b) ++ [.bsclose ch]) s = .next t ∧
      execAll (.bsopen ch f .rd false :: List.replicate (k + 1) (.rdbit ch)) t = .next u ∧
      (∀ b, (fillOut bits)[k]? = some b → statusCode u.status = 0 ∧ u.res = if b then 1#32 else 0#32) ∧
      ((fillOut bits).length ≤ k → statusCode u.status = 1))

/-! ### Frequency, tree and codes -/

/-- R120: FSCAN counts every byte of a readable file; the counts sum to its length. Files of 2^32 bytes or more are
outside the spec (U6), and FileError on an unreadable one of that length is the model's choice (log 17). -/
def Obligations.FscanCountsBytes : Prop :=
  ∀ (fa : FileId) (s : State),
    (encode (.fscan fa)).extractLsb' 24 8 = 0x20#8 ∧
    (s.readable fa = false → exec (.fscan fa) s = .next (s.complete .fileError)) ∧
    (s.readable fa = true → s.files.fileLen fa < 4294967296 →
      ∃ F, exec (.fscan fa) s = .next ((s.setFreq F).complete .ok) ∧
        (∀ b, F.get b = (s.files.data fa).count b) ∧
        ((List.range 256).map fun b => F.get (BitVec.ofNat 8 b)).sum = s.files.fileLen fa)

/-- R122: TBUILD puts Build(FREQ) into TREE: nothing for the all-zero table, a single leaf for one symbol, a node for more. -/
def Obligations.TbuildSetsTheTree : Prop :=
  ∀ s : State, ∃ t, exec .tbuild s = .next ((s.setTree t).complete .ok) ∧
    encode .tbuild = 0x21000000#32 ∧ t = build s.freq ∧
    ((∀ b, s.freq.get b = 0) → t = none) ∧
    (∀ v, 0 < s.freq.get v → (∀ b, b ≠ v → s.freq.get b = 0) → t = some (.leaf v (s.freq.get v))) ∧
    (∀ a b, a ≠ b → 0 < s.freq.get a → 0 < s.freq.get b → ∃ l r w, t = some (.node l r w))

/-- R123, R27: the tree Build makes of a table with a count: exactly one leaf per counted symbol, one internal node less than leaves, every
leaf weighs its count, weights are sums, and the root weighs the total. -/
def Obligations.BuildCountsAndWeights : Prop :=
  ∀ (F : FreqTable) (t : HTree), build F = some t →
    t.syms.Nodup ∧ (∀ b, b ∈ t.syms ↔ 0 < F.get b) ∧ t.inner + 1 = t.syms.length ∧
    t.leafWeights = t.syms.map F.get ∧ t.sums = true ∧
    t.weight = ((List.range 256).map fun b => F.get (BitVec.ofNat 8 b)).sum

/-- R121, U2: the order in which Build merges. The list begins with the leaves of the counted symbols in ascending symbol order; the sort is by
ascending weight and keeps the list order of equal weights; while there are two nodes the two at the front of the sorted list are merged, the first as
the left child, and the merged node goes to the end; the last node is the tree, and an empty list has none. -/
def Obligations.BuildFollowsTheMergeOrder : Prop :=
  (∀ F : FreqTable, build F = mergeLoop (leavesOf F).length (leavesOf F)) ∧
  (∀ (F : FreqTable) (t : HTree), t ∈ leavesOf F ↔ ∃ b, 0 < F.get b ∧ t = .leaf b (F.get b)) ∧
  (∀ F : FreqTable, (leavesOf F).Pairwise fun t u =>
    ∃ a b v w, t = .leaf a v ∧ u = .leaf b w ∧ a.toNat < b.toNat) ∧
  (∀ L : List HTree, (sortByWeight L).Perm L ∧ (sortByWeight L).Pairwise (fun t u => t.weight ≤ u.weight) ∧
    ∀ k, (sortByWeight L).filter (fun t => t.weight = k) = L.filter (fun t => t.weight = k)) ∧
  (mergeLoop 0 [] = none) ∧
  (∀ t : HTree, mergeLoop 1 [t] = some t) ∧
  (∀ (L rest : List HTree) (a b : HTree), sortByWeight L = a :: b :: rest →
    mergeLoop L.length L = mergeLoop (rest.length + 1) (rest ++ [.node a b (a.weight + b.weight)]))

/-- R136, R135: CGEN puts Codes(TREE) into CODE: no entry without a tree, the one bit 0 for a single leaf, and the codes do not depend
on the weights. -/
def Obligations.CgenSetsTheCodes : Prop :=
  (∀ s : State, exec .cgen s = .next ((s.setCode (codes s.tree)).complete .ok)) ∧ encode .cgen = 0x22000000#32 ∧
  (∀ b, (codes none).get b = none) ∧
  (∀ sym w b, (codes (some (.leaf sym w))).get b = if b = sym then some [false] else none) ∧
  (∀ t : HTree, codes (some t.zeroed) = codes (some t))

/-- R135, R137: the code of a symbol is the path from the root to its leaf (the one bit 0 in the degenerate tree), exactly the leaves have
codes, no code is a prefix of another, and a code of a tree with k ≥ 2 leaves has between 1 and k − 1 bits. -/
def Obligations.CodesAreLeafPaths : Prop :=
  ∀ t : HTree, t.syms.Nodup →
    (∀ b, (codes (some t)).get b ≠ none ↔ b ∈ t.syms) ∧
    (∀ b w, 1 ≤ t.inner → ((codes (some t)).get b = some w ↔ ∃ n, t.follow w = some (.leaf b n))) ∧
    (∀ a b v w, (codes (some t)).get a = some v → (codes (some t)).get b = some w → a ≠ b → ¬ v <+: w) ∧
    (∀ b w, 2 ≤ t.syms.length → (codes (some t)).get b = some w → 1 ≤ w.length ∧ w.length ≤ t.syms.length - 1)

/-! ### TreeCodec -/

/-- R146, R80: TSER adds exactly Ser(TREE) to the channel's stream, nothing for `None`, whatever the channel already holds. -/
def Obligations.TserWritesTheDictionary : Prop :=
  ∀ (ch : ChanId) (s : State),
    (encode (.tser ch)).extractLsb' 24 8 = 0x23#8 ∧
    (s.openFor .wr ch = false → exec (.tser ch) s = .next (s.complete .fileError)) ∧
    (s.openFor .wr ch = true → (s.chan ch).Ok s.files →
      ∃ t, exec (.tser ch) s = .next t ∧ Wrote s ch (serialise s.tree) t)

/-- R80: a tree with k leaves serialises to 10k − 1 bits. -/
def Obligations.DictionaryLength : Prop :=
  ∀ t : HTree, t.inner + 1 = t.syms.length ∧ (t.ser).length + 1 = 10 * t.syms.length

/-- R148, R147, R216: TDES parses one tree from the bits left in the stream, leaves the channel at the first bit after it, and puts it into
TREE; when the bits hold no tree, it is FormatError and TREE is `None`. Either way the channel stays open and is exactly the one that GetBit leaves
after the bits the parse asked for: those are consumed and nothing is read ahead. -/
def Obligations.TdesReadsTheDictionary : Prop :=
  ∀ (ch : ChanId) (s : State),
    (s.openFor .rd ch = false → exec (.tdes ch) s = .next (s.complete .fileError)) ∧
    (∀ t rest, s.openFor .rd ch = true → (s.chan ch).Ok s.files →
      splitDictionary ((s.chan ch).toRead s.files) = some (t, rest) →
      ∃ c, exec (.tdes ch) s = .next (((s.setChan ch c).setTree (some t)).complete .ok) ∧
        c = (getBits s.files (dictionaryReads ((s.chan ch).toRead s.files)) (s.chan ch)).2 ∧
        c.leaves (s.chan ch) s.files rest ∧
        rest = ((s.chan ch).toRead s.files).drop (dictionaryReads ((s.chan ch).toRead s.files))) ∧
    (s.openFor .rd ch = true → (s.chan ch).Ok s.files → splitDictionary ((s.chan ch).toRead s.files) = none →
      ∃ c, exec (.tdes ch) s = .next (((s.setChan ch c).setTree none).complete .formatError) ∧
        c = (getBits s.files (dictionaryReads ((s.chan ch).toRead s.files)) (s.chan ch)).2 ∧
        c.leaves (s.chan ch) s.files
          (((s.chan ch).toRead s.files).drop (dictionaryReads ((s.chan ch).toRead s.files))))

/-- R149: parsing Ser(t) gives back t with every weight 0, having consumed exactly Ser(t), so the codes are the same. -/
def Obligations.DictionaryRoundTrip : Prop :=
  ∀ (t : HTree) (rest : Bits), t.syms.Nodup →
    splitDictionary (t.ser ++ rest) = some (t.zeroed, rest) ∧ codes (some t.zeroed) = codes (some t)

/-! ### Payload -/

/-- R160: PENC adds the codes of the input's bytes in order to the channel's stream; an input byte without a code is CmdError before
anything is written. FileError before the refusal of an input of 2^32 bytes or more is the model's choice (log 17). -/
def Obligations.PencWritesTheCodes : Prop :=
  ∀ (ch : ChanId) (fa : FileId) (s : State),
    (encode (.penc ch fa)).extractLsb' 24 8 = 0x30#8 ∧
    (s.openFor .wr ch = false ∨ s.readable fa = false → exec (.penc ch fa) s = .next (s.complete .fileError)) ∧
    (s.openFor .wr ch = true → s.readable fa = true → s.files.fileLen fa < 4294967296 →
      (∃ v ∈ s.files.data fa, s.code.get v = none) → exec (.penc ch fa) s = .next (s.complete .cmdError)) ∧
    (s.openFor .wr ch = true → s.readable fa = true → s.files.fileLen fa < 4294967296 → (s.chan ch).Ok s.files →
      (∀ v ∈ s.files.data fa, s.code.get v ≠ none) →
      ∃ t, exec (.penc ch fa) s = .next t ∧
        Wrote s ch ((s.files.data fa).flatMap fun v => (s.code.get v).getD []) t)

/-- R161: TRAIL appends exactly one byte, the buffer with the sentinel at its next unused position, and empties the buffer; it is the bit 1
and then 0 bits to the byte boundary. -/
def Obligations.TrailAppendsOneByte : Prop :=
  ∀ (ch : ChanId) (s : State),
    (encode (.trail ch)).extractLsb' 24 8 = 0x31#8 ∧
    (s.openFor .wr ch = false → exec (.trail ch) s = .next (s.complete .fileError)) ∧
    (s.openFor .wr ch = true → (s.chan ch).Ok s.files →
      exec (.trail ch) s = .next (((s.setChan ch { s.chan ch with buf := 0#8, cur := 8 }).setFiles
        (s.files.append (s.chan ch).fid ((s.chan ch).buf ||| (1#8 <<< ((s.chan ch).cur - 1))))).complete .ok) ∧
      ∃ t, exec (.trail ch) s = .next t ∧
        Wrote s ch (true :: List.replicate ((s.chan ch).cur - 1) false) t)

/-- R161, R244 (a): on an unpadded channel TRAIL and BSCLOSE leave the file that BSCLOSE alone leaves on a padded channel in the same state; on
a padded channel the file ends with two sentinel bytes. -/
def Obligations.OneSentinelPerStream : Prop :=
  ∀ (ch : ChanId) (s : State), s.openFor .wr ch = true → (s.chan ch).Ok s.files →
    ((s.chan ch).pad = false →
      ∃ t u, execAll [.trail ch, .bsclose ch] s = .next t ∧
        exec (.bsclose ch) (s.setChan ch { s.chan ch with pad := true }) = .next u ∧ t.files = u.files) ∧
    ((s.chan ch).pad = true →
      ∃ t, execAll [.trail ch, .bsclose ch] s = .next t ∧
        t.files.data (s.chan ch).fid = s.files.data (s.chan ch).fid ++
          [(s.chan ch).buf ||| (1#8 <<< ((s.chan ch).cur - 1)), 0x80#8])

/-- R163: the trailer is the last 1 and what follows it; without a 1 there is none. -/
def Obligations.StripTrailerTakesTheLastOne : Prop :=
  ∀ (R p : Bits), (stripTrailer R = some p ↔ ∃ z, R = p ++ true :: List.replicate z false) ∧
    (stripTrailer R = none ↔ ∃ z, R = List.replicate z false)

/-- R164, R137: walking a payload under a tree with distinct leaves gives exactly the longest sequence of symbols whose codes begin the payload;
it is free of FormatError exactly when their codes are the whole payload. -/
def Obligations.WalkDecodesTheCodewords : Prop :=
  ∀ (t : HTree) (pay : Bits) (X : List Byte) (good : Bool), t.syms.Nodup → walkPayload t pay = (X, good) →
    (∀ x ∈ X, x ∈ t.syms) ∧ (codes (some t)).encodeBytes X <+: pay ∧
    (good = true ↔ (codes (some t)).encodeBytes X = pay) ∧
    (∀ b ∈ t.syms, ¬ (codes (some t)).encodeBytes (X ++ [b]) <+: pay)

/-- R165, R162: PDEC decodes every bit left in the stream with TREE into a fresh output file and leaves the channel at the end of its stream;
a FormatError keeps the bytes decoded before it; without a tree it is CmdError and nothing is created. RMAX is at its default (log 9). -/
def Obligations.PdecDecodesTheResidual : Prop :=
  ∀ (ch : ChanId) (fb : FileId) (s : State),
    (s.openFor .rd ch = false ∨ s.writable fb = false → exec (.pdec ch fb) s = .next (s.complete .fileError)) ∧
    (s.openFor .rd ch = true → s.writable fb = true → s.tree = none →
      exec (.pdec ch fb) s = .next (s.complete .cmdError)) ∧
    (∀ t, s.openFor .rd ch = true → s.writable fb = true → s.tree = some t → (s.chan ch).Ok s.files →
      ∃ c, exec (.pdec ch fb) s = .next (((s.setChan ch c).setFiles (s.files.setFile fb
          { present := true, data := (decodeResidual t ((s.chan ch).toRead s.files)).1 })).complete
            (if (decodeResidual t ((s.chan ch).toRead s.files)).2 then .ok else .formatError)) ∧
        c.leaves (s.chan ch) s.files [] ∧ c.cur = 0 ∧ c.pos = s.files.fileLen c.fid)

/-! ### Pipelines -/

/-- R180, R81: HENC writes the message of its input into the output file and releases the tables; its FileErrors change no file.
FileError before the refusal of an input of 2^32 bytes or more is the model's choice (log 17). -/
def Obligations.HencWritesTheMessage : Prop :=
  ∀ (fa fb : FileId) (s : State),
    (encode (.henc fa fb)).extractLsb' 24 8 = 0x40#8 ∧
    (s.readable fa = false ∨ fa = fb ∨ s.writable fb = false →
      exec (.henc fa fb) s = .next (s.release.complete .fileError)) ∧
    (s.readable fa = true → fa ≠ fb → s.writable fb = true → s.files.fileLen fa < 4294967296 →
      exec (.henc fa fb) s = .next ((s.release.setFiles (s.files.setFile fb
        { present := true, data := message (s.files.data fa) })).complete .ok))

/-- R181, R182: HDEC writes what the pure decoder gives for its input into the output file, with a FormatError the bytes decoded
before it, and releases the tables; its FileErrors change no file. RMAX is at its default (log 9). -/
def Obligations.HdecWritesTheDecoding : Prop :=
  ∀ (fa fb : FileId) (s : State),
    (encode (.hdec fa fb)).extractLsb' 24 8 = 0x41#8 ∧
    (s.readable fa = false ∨ fa = fb ∨ s.writable fb = false →
      exec (.hdec fa fb) s = .next (s.release.complete .fileError)) ∧
    (s.readable fa = true → fa ≠ fb → s.writable fb = true →
      exec (.hdec fa fb) s = .next ((s.release.setFiles (s.files.setFile fb
        { present := true, data := (dec (s.files.data fa)).1 })).complete
          (if (dec (s.files.data fa)).2 then .ok else .formatError)))

/-- R82: the message of the empty input is the one byte 0x80, and no other input has a message of one byte. -/
def Obligations.EmptyMessageIsUnique : Prop :=
  message [] = [0x80#8] ∧ ∀ X : List Byte, X ≠ [] → 2 ≤ (message X).length

/-- R83: m ≥ 1 copies of one byte have a single leaf as tree, the one bit 0 as code, and as message the leaf, m bits 0, the sentinel, the
fill. -/
def Obligations.DegenerateMessage : Prop :=
  ∀ (v : Byte) (m : Nat), 1 ≤ m →
    build (countBytes (List.replicate m v)) = some (.leaf v m) ∧
    (codes (some (.leaf v m))).get v = some [false] ∧
    message (List.replicate m v) =
      pack (fillOut (true :: bits8 v ++ List.replicate m false ++ [true]))

/-- R183: the stage commands in the encoder's order leave the same output file as HENC. -/
def Obligations.EncoderStagesEqualHenc : Prop :=
  ∀ (fa fb : FileId) (s : State), (s.chan 0).isOpen = false → fa ≠ fb → s.readable fa = true → s.writable fb = true →
    s.files.fileLen fa < 4294967296 →
    ∃ t u, execAll [.fscan fa, .tbuild, .cgen, .bsopen 0 fb .wr false, .tser 0, .penc 0 fa, .trail 0, .bsclose 0] s = .next t ∧
      exec (.henc fa fb) s = .next u ∧ t.files = u.files

/-- R183: the stage commands in the decoder's order leave the same output file as HDEC whenever the dictionary parses and the input is not
the empty message. RMAX is at its default (log 9). -/
def Obligations.DecoderStagesEqualHdec : Prop :=
  ∀ (fa fb : FileId) (s : State), (s.chan 1).isOpen = false → fa ≠ fb → s.readable fa = true → s.writable fb = true →
    s.files.data fa ≠ [0x80#8] → splitDictionary (unpack (s.files.data fa)) ≠ none →
    ∃ t u, execAll [.bsopen 1 fa .rd false, .tdes 1, .pdec 1 fb, .bsclose 1] s = .next t ∧
      exec (.hdec fa fb) s = .next u ∧ t.files = u.files

/-- R184: for every byte sequence shorter than 2^32, HENC and then HDEC reproduce it, both OK. RMAX is at its default (log 9). -/
def Obligations.HuffmanRoundTrip : Prop :=
  ∀ (fa fb fc : FileId) (s : State), fa ≠ fb → fb ≠ fc → s.readable fa = true → s.writable fb = true → s.writable fc = true →
    s.files.fileLen fa < 4294967296 →
    ∃ t u, exec (.henc fa fb) s = .next t ∧ statusCode t.status = 0 ∧
      exec (.hdec fb fc) t = .next u ∧ statusCode u.status = 0 ∧ u.files.file fc = { present := true, data := s.files.data fa }
end

