-- ==== Sys2Proof/Laws/Bits.lean ====
section
/-! SUPPORT. The laws of bytes as bit sequences: `bits8`, `pack`, `unpack`, the sentinel scan (R7, R8, R77 to R79). -/
namespace Sys2Proof.Machine

@[simp] theorem length_bits8 (v : Byte) : (bits8 v).length = 8 := rfl

/-- A byte is determined by its bits, most significant first. -/
@[simp] theorem packByte_bits8 (b₇ b₆ b₅ b₄ b₃ b₂ b₁ b₀ : Bool) :
    bits8 (packByte b₇ b₆ b₅ b₄ b₃ b₂ b₁ b₀) = [b₇, b₆, b₅, b₄, b₃, b₂, b₁, b₀] := by
  revert b₇ b₆ b₅ b₄ b₃ b₂ b₁ b₀; decide

set_option maxRecDepth 4000 in
/-- Packing the bits of a byte gives it back. -/
theorem pack_bits8 (v : Byte) : pack (bits8 v) = [v] := by revert v; decide

@[simp] theorem unpack_nil : unpack [] = [] := rfl

@[simp] theorem unpack_cons (v : Byte) (F : List Byte) : unpack (v :: F) = bits8 v ++ unpack F := rfl

@[simp] theorem unpack_append (F G : List Byte) : unpack (F ++ G) = unpack F ++ unpack G := by simp [unpack]

@[simp] theorem length_unpack (F : List Byte) : (unpack F).length = 8 * F.length := by
  induction F with
  | nil => rfl
  | cons v F ih => simp [ih]; omega

/-- `pack` undoes one byte at the front. -/
@[simp] theorem pack_bits8_append (v : Byte) (rest : Bits) : pack (bits8 v ++ rest) = v :: pack rest := by
  have h := pack_bits8 v
  simp only [bits8, pack, List.cons.injEq, and_true, List.cons_append, List.nil_append] at h ⊢
  exact h

/-- `unpack` is the inverse of `pack` on files (R8). -/
@[simp] theorem pack_unpack (F : List Byte) : pack (unpack F) = F := by
  induction F with
  | nil => rfl
  | cons v F ih => simp [ih]

theorem pack_unpack_append (F : List Byte) (rest : Bits) : pack (unpack F ++ rest) = F ++ pack rest := by
  induction F with
  | nil => rfl
  | cons v F ih => simp [List.append_assoc, ih]

/-- A bit sequence of a whole number of bytes is the bits of its bytes (R8). -/
theorem unpack_pack (s : Bits) (h : s.length % 8 = 0) : unpack (pack s) = s := by
  match s, h with
  | [], _ => rfl
  | b₇ :: b₆ :: b₅ :: b₄ :: b₃ :: b₂ :: b₁ :: b₀ :: rest, h =>
    have hr : rest.length % 8 = 0 := by simp only [List.length_cons] at h; omega
    rw [pack, unpack_cons, packByte_bits8, unpack_pack rest hr]
    rfl

/-- Filling out reaches a byte boundary (R77). -/
theorem length_fillOut (s : Bits) : (fillOut s).length % 8 = 0 := by
  simp only [fillOut, fill, List.length_append, List.length_replicate]; omega

set_option maxRecDepth 4000 in
/-- The sentinel scan finds the lowest set bit of a non-zero byte (R7). -/
theorem lsb1_spec (b : Byte) (h : b ≠ 0#8) :
    lsb1 b < 8 ∧ b.getLsbD (lsb1 b) = true ∧ ∀ q, q < lsb1 b → b.getLsbD q = false := by
  revert b; decide

/-- The lowest set bit is the only place with the property of R7. -/
theorem lsb1_unique (b : Byte) (p : Nat) (h : b.getLsbD p = true) (hq : ∀ q, q < p → b.getLsbD q = false) : lsb1 b = p := by
  have hb : b ≠ 0#8 := by rintro rfl; simp at h
  obtain ⟨_, h₂, h₃⟩ := lsb1_spec b hb
  rcases Nat.lt_trichotomy (lsb1 b) p with hlt | heq | hgt
  · simp [hq _ hlt] at h₂
  · exact heq
  · simp [h₃ _ hgt] at h

set_option maxRecDepth 4000 in
/-- The last byte of a padded stream, shifted right past its sentinel, holds exactly its data bits (R79, R103). -/
theorem unread_lastByte (b : Byte) (h : b ≠ 0#8) :
    ((List.range (7 - lsb1 b)).map (b >>> (lsb1 b + 1)).getLsbD).reverse = lastByteBits b := by
  revert b; decide

/-- A freshly loaded byte delivers its eight bits, most significant first (R103). -/
theorem unread_byte (b : Byte) : ((List.range 8).map b.getLsbD).reverse = bits8 b := rfl

/-- A full write buffer is the eight bits written (R105). -/
theorem buffered_byte (b : Byte) : (List.range 8).map (fun i => b.getLsbD (7 - i)) = bits8 b := rfl

@[simp] theorem readPadded_singleton (b : Byte) : readPadded [b] = lastByteBits b := rfl

theorem readPadded_cons_of_ne (b : Byte) {F : List Byte} (h : F ≠ []) : readPadded (b :: F) = bits8 b ++ readPadded F := by
  cases F with
  | nil => exact absurd rfl h
  | cons c rest => rfl

theorem length_lastByteBits_le (b : Byte) : (lastByteBits b).length ≤ 8 := by
  unfold lastByteBits; split <;> simp

theorem length_readPadded_le (F : List Byte) : (readPadded F).length ≤ 8 * F.length := by
  match F with
  | [] => simp [readPadded]
  | [b] => simpa using length_lastByteBits_le b
  | b :: c :: rest =>
    have := length_readPadded_le (c :: rest)
    rw [readPadded_cons_of_ne b (by simp)]
    simp only [List.length_append, length_bits8, List.length_cons] at this ⊢
    omega

end Sys2Proof.Machine
end

