-- ==== Sys2Proof/Laws/Flags.lean ====
section
/-! SUPPORT. The laws of STATUS at completion (R29, R210, R215). -/
namespace Sys2Proof.Machine

/-- A bit of STATUS after completion. -/
theorem getLsbD_statusAfter (w : Word) (o : Completion) (i : Nat) :
    (statusAfter w o).getLsbD i =
      ((w.getLsbD i && stickyMask.getLsbD i) || o.sticky.getLsbD i || o.code.getLsbD i) := by
  simp [statusAfter]

/-- The code recorded is the outcome's (R210). -/
@[simp] theorem statusCode_statusAfter (w : Word) (o : Completion) : statusCode (statusAfter w o) = o.code.toNat := by
  have h : (statusAfter w o).extractLsb' 0 3 = o.code.setWidth 3 := by
    apply BitVec.eq_of_getLsbD_eq
    intro i hi
    rw [BitVec.getLsbD_extractLsb', BitVec.getLsbD_setWidth, getLsbD_statusAfter]
    have : i = 0 ∨ i = 1 ∨ i = 2 := by omega
    cases o <;> rcases this with rfl | rfl | rfl <;> simp [stickyMask, Completion.sticky, Completion.code]
  rw [statusCode, h]
  cases o <;> rfl

/-- The sticky bits: kept, and set by their own error (R215). -/
@[simp] theorem statusSfile_statusAfter (w : Word) (o : Completion) :
    statusSfile (statusAfter w o) = (statusSfile w || decide (o = .fileError)) := by
  rw [statusSfile, getLsbD_statusAfter]
  cases o <;> simp [stickyMask, Completion.sticky, Completion.code, statusSfile]

@[simp] theorem statusSfmt_statusAfter (w : Word) (o : Completion) :
    statusSfmt (statusAfter w o) = (statusSfmt w || decide (o = .formatError)) := by
  rw [statusSfmt, getLsbD_statusAfter]
  cases o <;> simp [stickyMask, Completion.sticky, Completion.code, statusSfmt]

@[simp] theorem statusScmd_statusAfter (w : Word) (o : Completion) :
    statusScmd (statusAfter w o) = (statusScmd w || decide (o = .cmdError)) := by
  rw [statusScmd, getLsbD_statusAfter]
  cases o <;> simp [stickyMask, Completion.sticky, Completion.code, statusScmd]

/-- The reserved bits read 0 after every completion (R29). -/
theorem statusAfter_reserved (w : Word) (o : Completion) : statusAfter w o &&& 0xFFFFF8F8#32 = 0#32 := by
  have h : stickyMask &&& 0xFFFFF8F8#32 = 0#32 := by decide
  have h₁ : (w &&& stickyMask) &&& 0xFFFFF8F8#32 = 0#32 := by rw [BitVec.and_assoc, h]; simp
  have h₂ : o.sticky &&& 0xFFFFF8F8#32 = 0#32 := by cases o <;> decide
  have h₃ : o.code &&& 0xFFFFF8F8#32 = 0#32 := by cases o <;> decide
  apply BitVec.eq_of_getLsbD_eq
  intro i _
  have e₁ := congrArg (fun v : Word => v.getLsbD i) h₁
  have e₂ := congrArg (fun v : Word => v.getLsbD i) h₂
  have e₃ := congrArg (fun v : Word => v.getLsbD i) h₃
  simp only [BitVec.getLsbD_and, BitVec.getLsbD_zero] at e₁ e₂ e₃ ⊢
  rw [getLsbD_statusAfter]
  cases hm : (0xFFFFF8F8#32).getLsbD i <;> simp_all

/-- An OK completion keeps the sticky bits and nothing else (R200). -/
theorem statusAfter_ok (w : Word) : statusAfter w .ok = w &&& 0x700#32 := by
  simp [statusAfter, Completion.sticky, Completion.code, stickyMask]

end Sys2Proof.Machine
end

