-- ==== Sys2Proof/Laws/Memory.lean ====
section
/-! SUPPORT. The laws of the file store (R34, R51): read after write, no other file touched, canonical form kept. -/
namespace Sys2Proof.Machine

@[simp] theorem Memory.file_setFile_self (m : Memory) (f : FileId) (e : FileEntry) : (m.setFile f e).file f = e := by
  simp [Memory.file, Memory.setFile]

@[simp] theorem Memory.file_setFile_of_ne (m : Memory) {f g : FileId} (e : FileEntry) (h : g ≠ f) :
    (m.setFile f e).file g = m.file g := by
  have : f.val ≠ g.val := fun k => h (Fin.ext k.symm)
  simp [Memory.file, Memory.setFile, this]

@[simp] theorem Memory.setFile_setFile (m : Memory) (f : FileId) (e e' : FileEntry) :
    (m.setFile f e).setFile f e' = m.setFile f e' := by
  simp [Memory.setFile]

@[simp] theorem Memory.setFile_file_self (m : Memory) (f : FileId) : m.setFile f (m.file f) = m := by
  simp [Memory.setFile, Memory.file]

/-- Two stores with the same entries are the same store. -/
theorem Memory.ext_file {m n : Memory} (h : ∀ f, m.file f = n.file f) : m = n := by
  apply Vector.ext
  intro i hi
  exact h ⟨i, hi⟩

theorem Memory.setFile_eq_of_file {m : Memory} {f : FileId} {e : FileEntry} (h : m.file f = e) : m.setFile f e = m := by
  subst h; simp

/-! ### Data, length and existence after each primitive -/

@[simp] theorem Memory.data_setFile_self (m : Memory) (f : FileId) (e : FileEntry) : (m.setFile f e).data f = e.data := by
  simp [Memory.data]

@[simp] theorem Memory.data_setFile_of_ne (m : Memory) {f g : FileId} (e : FileEntry) (h : g ≠ f) :
    (m.setFile f e).data g = m.data g := by
  simp [Memory.data, h]

@[simp] theorem Memory.file_appendAll_self (m : Memory) (f : FileId) (vs : List Byte) :
    (m.appendAll f vs).file f = { present := true, data := m.data f ++ vs } := by
  simp [Memory.appendAll]

@[simp] theorem Memory.file_appendAll_of_ne (m : Memory) {f g : FileId} (vs : List Byte) (h : g ≠ f) :
    (m.appendAll f vs).file g = m.file g := by
  simp [Memory.appendAll, h]

@[simp] theorem Memory.data_appendAll_self (m : Memory) (f : FileId) (vs : List Byte) :
    (m.appendAll f vs).data f = m.data f ++ vs := by
  simp [Memory.appendAll]

@[simp] theorem Memory.file_append_self (m : Memory) (f : FileId) (v : Byte) :
    (m.append f v).file f = { present := true, data := m.data f ++ [v] } := by
  simp [Memory.append]

@[simp] theorem Memory.file_append_of_ne (m : Memory) {f g : FileId} (v : Byte) (h : g ≠ f) :
    (m.append f v).file g = m.file g := by
  simp [Memory.append, h]

@[simp] theorem Memory.data_append_self (m : Memory) (f : FileId) (v : Byte) : (m.append f v).data f = m.data f ++ [v] := by
  simp [Memory.append]

@[simp] theorem Memory.data_append_of_ne (m : Memory) {f g : FileId} (v : Byte) (h : g ≠ f) :
    (m.append f v).data g = m.data g := by
  simp [Memory.data, h]

@[simp] theorem Memory.fileExists_append_self (m : Memory) (f : FileId) (v : Byte) : (m.append f v).fileExists f = true := by
  simp [Memory.fileExists]

@[simp] theorem Memory.file_truncate_self (m : Memory) (f : FileId) :
    (m.truncate f).file f = { present := true, data := [] } := by
  simp [Memory.truncate]

@[simp] theorem Memory.file_truncate_of_ne (m : Memory) {f g : FileId} (h : g ≠ f) : (m.truncate f).file g = m.file g := by
  simp [Memory.truncate, h]

@[simp] theorem Memory.data_truncate_self (m : Memory) (f : FileId) : (m.truncate f).data f = [] := by
  simp [Memory.data]

@[simp] theorem Memory.data_truncate_of_ne (m : Memory) {f g : FileId} (h : g ≠ f) : (m.truncate f).data g = m.data g := by
  simp [Memory.data, h]

@[simp] theorem Memory.truncate_appendAll (m : Memory) (f : FileId) (vs : List Byte) :
    (m.truncate f).appendAll f vs = m.setFile f { present := true, data := vs } := by
  simp [Memory.appendAll, Memory.truncate]

/-- What a reader sees of a file depends on that file's entry alone. -/
theorem Memory.read_congr {m n : Memory} {f : FileId} (h : m.file f = n.file f) :
    m.data f = n.data f ∧ m.fileLen f = n.fileLen f ∧ m.fileExists f = n.fileExists f ∧ ∀ off, m.read? f off = n.read? f off := by
  simp [Memory.data, Memory.fileLen, Memory.fileExists, Memory.read?, h]

/-- A byte read after an append: the bytes already there, then the appended ones (R51). -/
theorem Memory.read?_appendAll_of_lt (m : Memory) (f : FileId) (vs : List Byte) {off : Nat} (h : off < m.fileLen f) :
    (m.appendAll f vs).read? f off = m.read? f off := by
  simp [Memory.read?, List.getElem?_append_left h]

/-! ### Canonical form -/

/-- The canonical form says that an absent file holds no byte (R34). -/
theorem Memory.wf_iff (m : Memory) : m.wf = true ↔ ∀ f, (m.file f).present = false → (m.file f).data = [] := by
  simp only [Memory.wf, List.all_eq_true, Memory.file]
  constructor
  · intro h f hf
    have := h m[f.val] (by simp)
    simpa [hf] using this
  · intro h e he
    obtain ⟨i, hi, rfl⟩ := List.mem_iff_getElem.1 he
    have hi' : i < 16 := by simpa using hi
    have := h ⟨i, hi'⟩
    simp only [Vector.getElem_toList]
    cases hp : m[i].present <;> simp_all

/-- Putting a canonical entry keeps the canonical form. -/
theorem Memory.wf_setFile {m : Memory} (hm : m.wf = true) (f : FileId) {e : FileEntry} (he : e.present = false → e.data = []) :
    (m.setFile f e).wf = true := by
  rw [Memory.wf_iff] at hm ⊢
  intro g
  by_cases h : g = f
  · subst h; simpa using he
  · simpa [h] using hm g

theorem Memory.wf_appendAll {m : Memory} (hm : m.wf = true) (f : FileId) (vs : List Byte) : (m.appendAll f vs).wf = true :=
  Memory.wf_setFile hm f (by simp)

theorem Memory.wf_append {m : Memory} (hm : m.wf = true) (f : FileId) (v : Byte) : (m.append f v).wf = true :=
  Memory.wf_appendAll hm f [v]

theorem Memory.wf_truncate {m : Memory} (hm : m.wf = true) (f : FileId) : (m.truncate f).wf = true :=
  Memory.wf_setFile hm f (by simp)

/-- The reset store has the canonical form. -/
theorem Memory.wf_reset : State.reset.files.wf = true := by decide

end Sys2Proof.Machine
end

