-- ==== Sys2Proof/Laws/State.lean ====
section
/-! SUPPORT. One lemma per field per update of the state, and the laws of the channel accessor, so that no proof unfolds a record update. -/
namespace Sys2Proof.Machine

/-! ### setChan -/

@[simp] theorem State.setChan_bs (s : State) (ch : ChanId) (c : Channel) : (s.setChan ch c).bs = s.bs.set ch.val c := rfl
@[simp] theorem State.setChan_freq (s : State) (ch : ChanId) (c : Channel) : (s.setChan ch c).freq = s.freq := rfl
@[simp] theorem State.setChan_tree (s : State) (ch : ChanId) (c : Channel) : (s.setChan ch c).tree = s.tree := rfl
@[simp] theorem State.setChan_code (s : State) (ch : ChanId) (c : Channel) : (s.setChan ch c).code = s.code := rfl
@[simp] theorem State.setChan_status (s : State) (ch : ChanId) (c : Channel) : (s.setChan ch c).status = s.status := rfl
@[simp] theorem State.setChan_res (s : State) (ch : ChanId) (c : Channel) : (s.setChan ch c).res = s.res := rfl
@[simp] theorem State.setChan_dbuf (s : State) (ch : ChanId) (c : Channel) : (s.setChan ch c).dbuf = s.dbuf := rfl
@[simp] theorem State.setChan_files (s : State) (ch : ChanId) (c : Channel) : (s.setChan ch c).files = s.files := rfl
@[simp] theorem State.setChan_program (s : State) (ch : ChanId) (c : Channel) : (s.setChan ch c).program = s.program := rfl
@[simp] theorem State.setChan_pc (s : State) (ch : ChanId) (c : Channel) : (s.setChan ch c).pc = s.pc := rfl
@[simp] theorem State.setChan_hostMoves (s : State) (ch : ChanId) (c : Channel) : (s.setChan ch c).hostMoves = s.hostMoves := rfl

/-! ### setFiles -/

@[simp] theorem State.setFiles_bs (s : State) (m : Memory) : (s.setFiles m).bs = s.bs := rfl
@[simp] theorem State.setFiles_freq (s : State) (m : Memory) : (s.setFiles m).freq = s.freq := rfl
@[simp] theorem State.setFiles_tree (s : State) (m : Memory) : (s.setFiles m).tree = s.tree := rfl
@[simp] theorem State.setFiles_code (s : State) (m : Memory) : (s.setFiles m).code = s.code := rfl
@[simp] theorem State.setFiles_status (s : State) (m : Memory) : (s.setFiles m).status = s.status := rfl
@[simp] theorem State.setFiles_res (s : State) (m : Memory) : (s.setFiles m).res = s.res := rfl
@[simp] theorem State.setFiles_dbuf (s : State) (m : Memory) : (s.setFiles m).dbuf = s.dbuf := rfl
@[simp] theorem State.setFiles_files (s : State) (m : Memory) : (s.setFiles m).files = m := rfl
@[simp] theorem State.setFiles_program (s : State) (m : Memory) : (s.setFiles m).program = s.program := rfl
@[simp] theorem State.setFiles_pc (s : State) (m : Memory) : (s.setFiles m).pc = s.pc := rfl
@[simp] theorem State.setFiles_hostMoves (s : State) (m : Memory) : (s.setFiles m).hostMoves = s.hostMoves := rfl
@[simp] theorem State.setFiles_chan (s : State) (m : Memory) (k : ChanId) : (s.setFiles m).chan k = s.chan k := rfl
@[simp] theorem State.setFiles_bound (s : State) (m : Memory) (f : FileId) : (s.setFiles m).bound f = s.bound f := rfl
@[simp] theorem State.setFiles_writeBound (s : State) (m : Memory) (f : FileId) : (s.setFiles m).writeBound f = s.writeBound f := rfl
@[simp] theorem State.setFiles_writable (s : State) (m : Memory) (f : FileId) : (s.setFiles m).writable f = s.writable f := rfl
@[simp] theorem State.setFiles_openFor (s : State) (m : Memory) (md : Mode) (k : ChanId) :
    (s.setFiles m).openFor md k = s.openFor md k := rfl

/-! ### setFreq -/

@[simp] theorem State.setFreq_bs (s : State) (F : FreqTable) : (s.setFreq F).bs = s.bs := rfl
@[simp] theorem State.setFreq_freq (s : State) (F : FreqTable) : (s.setFreq F).freq = F := rfl
@[simp] theorem State.setFreq_tree (s : State) (F : FreqTable) : (s.setFreq F).tree = s.tree := rfl
@[simp] theorem State.setFreq_code (s : State) (F : FreqTable) : (s.setFreq F).code = s.code := rfl
@[simp] theorem State.setFreq_status (s : State) (F : FreqTable) : (s.setFreq F).status = s.status := rfl
@[simp] theorem State.setFreq_res (s : State) (F : FreqTable) : (s.setFreq F).res = s.res := rfl
@[simp] theorem State.setFreq_dbuf (s : State) (F : FreqTable) : (s.setFreq F).dbuf = s.dbuf := rfl
@[simp] theorem State.setFreq_files (s : State) (F : FreqTable) : (s.setFreq F).files = s.files := rfl
@[simp] theorem State.setFreq_program (s : State) (F : FreqTable) : (s.setFreq F).program = s.program := rfl
@[simp] theorem State.setFreq_pc (s : State) (F : FreqTable) : (s.setFreq F).pc = s.pc := rfl
@[simp] theorem State.setFreq_hostMoves (s : State) (F : FreqTable) : (s.setFreq F).hostMoves = s.hostMoves := rfl
@[simp] theorem State.setFreq_chan (s : State) (F : FreqTable) (k : ChanId) : (s.setFreq F).chan k = s.chan k := rfl
@[simp] theorem State.setFreq_bound (s : State) (F : FreqTable) (f : FileId) : (s.setFreq F).bound f = s.bound f := rfl
@[simp] theorem State.setFreq_writeBound (s : State) (F : FreqTable) (f : FileId) : (s.setFreq F).writeBound f = s.writeBound f := rfl
@[simp] theorem State.setFreq_readable (s : State) (F : FreqTable) (f : FileId) : (s.setFreq F).readable f = s.readable f := rfl
@[simp] theorem State.setFreq_writable (s : State) (F : FreqTable) (f : FileId) : (s.setFreq F).writable f = s.writable f := rfl
@[simp] theorem State.setFreq_openFor (s : State) (F : FreqTable) (md : Mode) (k : ChanId) :
    (s.setFreq F).openFor md k = s.openFor md k := rfl

/-! ### setTree -/

@[simp] theorem State.setTree_bs (s : State) (t : Option HTree) : (s.setTree t).bs = s.bs := rfl
@[simp] theorem State.setTree_freq (s : State) (t : Option HTree) : (s.setTree t).freq = s.freq := rfl
@[simp] theorem State.setTree_tree (s : State) (t : Option HTree) : (s.setTree t).tree = t := rfl
@[simp] theorem State.setTree_code (s : State) (t : Option HTree) : (s.setTree t).code = s.code := rfl
@[simp] theorem State.setTree_status (s : State) (t : Option HTree) : (s.setTree t).status = s.status := rfl
@[simp] theorem State.setTree_res (s : State) (t : Option HTree) : (s.setTree t).res = s.res := rfl
@[simp] theorem State.setTree_dbuf (s : State) (t : Option HTree) : (s.setTree t).dbuf = s.dbuf := rfl
@[simp] theorem State.setTree_files (s : State) (t : Option HTree) : (s.setTree t).files = s.files := rfl
@[simp] theorem State.setTree_program (s : State) (t : Option HTree) : (s.setTree t).program = s.program := rfl
@[simp] theorem State.setTree_pc (s : State) (t : Option HTree) : (s.setTree t).pc = s.pc := rfl
@[simp] theorem State.setTree_hostMoves (s : State) (t : Option HTree) : (s.setTree t).hostMoves = s.hostMoves := rfl
@[simp] theorem State.setTree_chan (s : State) (t : Option HTree) (k : ChanId) : (s.setTree t).chan k = s.chan k := rfl
@[simp] theorem State.setTree_bound (s : State) (t : Option HTree) (f : FileId) : (s.setTree t).bound f = s.bound f := rfl
@[simp] theorem State.setTree_writeBound (s : State) (t : Option HTree) (f : FileId) : (s.setTree t).writeBound f = s.writeBound f := rfl
@[simp] theorem State.setTree_readable (s : State) (t : Option HTree) (f : FileId) : (s.setTree t).readable f = s.readable f := rfl
@[simp] theorem State.setTree_writable (s : State) (t : Option HTree) (f : FileId) : (s.setTree t).writable f = s.writable f := rfl
@[simp] theorem State.setTree_openFor (s : State) (t : Option HTree) (md : Mode) (k : ChanId) :
    (s.setTree t).openFor md k = s.openFor md k := rfl

/-! ### setCode -/

@[simp] theorem State.setCode_bs (s : State) (C : CodeTable) : (s.setCode C).bs = s.bs := rfl
@[simp] theorem State.setCode_freq (s : State) (C : CodeTable) : (s.setCode C).freq = s.freq := rfl
@[simp] theorem State.setCode_tree (s : State) (C : CodeTable) : (s.setCode C).tree = s.tree := rfl
@[simp] theorem State.setCode_code (s : State) (C : CodeTable) : (s.setCode C).code = C := rfl
@[simp] theorem State.setCode_status (s : State) (C : CodeTable) : (s.setCode C).status = s.status := rfl
@[simp] theorem State.setCode_res (s : State) (C : CodeTable) : (s.setCode C).res = s.res := rfl
@[simp] theorem State.setCode_dbuf (s : State) (C : CodeTable) : (s.setCode C).dbuf = s.dbuf := rfl
@[simp] theorem State.setCode_files (s : State) (C : CodeTable) : (s.setCode C).files = s.files := rfl
@[simp] theorem State.setCode_program (s : State) (C : CodeTable) : (s.setCode C).program = s.program := rfl
@[simp] theorem State.setCode_pc (s : State) (C : CodeTable) : (s.setCode C).pc = s.pc := rfl
@[simp] theorem State.setCode_hostMoves (s : State) (C : CodeTable) : (s.setCode C).hostMoves = s.hostMoves := rfl
@[simp] theorem State.setCode_chan (s : State) (C : CodeTable) (k : ChanId) : (s.setCode C).chan k = s.chan k := rfl
@[simp] theorem State.setCode_bound (s : State) (C : CodeTable) (f : FileId) : (s.setCode C).bound f = s.bound f := rfl
@[simp] theorem State.setCode_writeBound (s : State) (C : CodeTable) (f : FileId) : (s.setCode C).writeBound f = s.writeBound f := rfl
@[simp] theorem State.setCode_readable (s : State) (C : CodeTable) (f : FileId) : (s.setCode C).readable f = s.readable f := rfl
@[simp] theorem State.setCode_writable (s : State) (C : CodeTable) (f : FileId) : (s.setCode C).writable f = s.writable f := rfl
@[simp] theorem State.setCode_openFor (s : State) (C : CodeTable) (md : Mode) (k : ChanId) :
    (s.setCode C).openFor md k = s.openFor md k := rfl

/-! ### setRes -/

@[simp] theorem State.setRes_bs (s : State) (v : Word) : (s.setRes v).bs = s.bs := rfl
@[simp] theorem State.setRes_freq (s : State) (v : Word) : (s.setRes v).freq = s.freq := rfl
@[simp] theorem State.setRes_tree (s : State) (v : Word) : (s.setRes v).tree = s.tree := rfl
@[simp] theorem State.setRes_code (s : State) (v : Word) : (s.setRes v).code = s.code := rfl
@[simp] theorem State.setRes_status (s : State) (v : Word) : (s.setRes v).status = s.status := rfl
@[simp] theorem State.setRes_res (s : State) (v : Word) : (s.setRes v).res = v := rfl
@[simp] theorem State.setRes_dbuf (s : State) (v : Word) : (s.setRes v).dbuf = s.dbuf := rfl
@[simp] theorem State.setRes_files (s : State) (v : Word) : (s.setRes v).files = s.files := rfl
@[simp] theorem State.setRes_program (s : State) (v : Word) : (s.setRes v).program = s.program := rfl
@[simp] theorem State.setRes_pc (s : State) (v : Word) : (s.setRes v).pc = s.pc := rfl
@[simp] theorem State.setRes_hostMoves (s : State) (v : Word) : (s.setRes v).hostMoves = s.hostMoves := rfl
@[simp] theorem State.setRes_chan (s : State) (v : Word) (k : ChanId) : (s.setRes v).chan k = s.chan k := rfl
@[simp] theorem State.setRes_bound (s : State) (v : Word) (f : FileId) : (s.setRes v).bound f = s.bound f := rfl
@[simp] theorem State.setRes_writeBound (s : State) (v : Word) (f : FileId) : (s.setRes v).writeBound f = s.writeBound f := rfl
@[simp] theorem State.setRes_readable (s : State) (v : Word) (f : FileId) : (s.setRes v).readable f = s.readable f := rfl
@[simp] theorem State.setRes_writable (s : State) (v : Word) (f : FileId) : (s.setRes v).writable f = s.writable f := rfl
@[simp] theorem State.setRes_openFor (s : State) (v : Word) (md : Mode) (k : ChanId) :
    (s.setRes v).openFor md k = s.openFor md k := rfl

/-! ### setDbuf -/

@[simp] theorem State.setDbuf_bs (s : State) (d : DataBuffer) : (s.setDbuf d).bs = s.bs := rfl
@[simp] theorem State.setDbuf_freq (s : State) (d : DataBuffer) : (s.setDbuf d).freq = s.freq := rfl
@[simp] theorem State.setDbuf_tree (s : State) (d : DataBuffer) : (s.setDbuf d).tree = s.tree := rfl
@[simp] theorem State.setDbuf_code (s : State) (d : DataBuffer) : (s.setDbuf d).code = s.code := rfl
@[simp] theorem State.setDbuf_status (s : State) (d : DataBuffer) : (s.setDbuf d).status = s.status := rfl
@[simp] theorem State.setDbuf_res (s : State) (d : DataBuffer) : (s.setDbuf d).res = s.res := rfl
@[simp] theorem State.setDbuf_dbuf (s : State) (d : DataBuffer) : (s.setDbuf d).dbuf = d := rfl
@[simp] theorem State.setDbuf_files (s : State) (d : DataBuffer) : (s.setDbuf d).files = s.files := rfl
@[simp] theorem State.setDbuf_program (s : State) (d : DataBuffer) : (s.setDbuf d).program = s.program := rfl
@[simp] theorem State.setDbuf_pc (s : State) (d : DataBuffer) : (s.setDbuf d).pc = s.pc := rfl
@[simp] theorem State.setDbuf_hostMoves (s : State) (d : DataBuffer) : (s.setDbuf d).hostMoves = s.hostMoves := rfl
@[simp] theorem State.setDbuf_chan (s : State) (d : DataBuffer) (k : ChanId) : (s.setDbuf d).chan k = s.chan k := rfl
@[simp] theorem State.setDbuf_bound (s : State) (d : DataBuffer) (f : FileId) : (s.setDbuf d).bound f = s.bound f := rfl
@[simp] theorem State.setDbuf_writeBound (s : State) (d : DataBuffer) (f : FileId) : (s.setDbuf d).writeBound f = s.writeBound f := rfl
@[simp] theorem State.setDbuf_readable (s : State) (d : DataBuffer) (f : FileId) : (s.setDbuf d).readable f = s.readable f := rfl
@[simp] theorem State.setDbuf_writable (s : State) (d : DataBuffer) (f : FileId) : (s.setDbuf d).writable f = s.writable f := rfl
@[simp] theorem State.setDbuf_openFor (s : State) (d : DataBuffer) (md : Mode) (k : ChanId) :
    (s.setDbuf d).openFor md k = s.openFor md k := rfl

/-! ### release -/

@[simp] theorem State.release_bs (s : State) : s.release.bs = s.bs := rfl
@[simp] theorem State.release_freq (s : State) : s.release.freq = FreqTable.zero := rfl
@[simp] theorem State.release_tree (s : State) : s.release.tree = none := rfl
@[simp] theorem State.release_code (s : State) : s.release.code = CodeTable.empty := rfl
@[simp] theorem State.release_status (s : State) : s.release.status = s.status := rfl
@[simp] theorem State.release_res (s : State) : s.release.res = s.res := rfl
@[simp] theorem State.release_dbuf (s : State) : s.release.dbuf = s.dbuf := rfl
@[simp] theorem State.release_files (s : State) : s.release.files = s.files := rfl
@[simp] theorem State.release_program (s : State) : s.release.program = s.program := rfl
@[simp] theorem State.release_pc (s : State) : s.release.pc = s.pc := rfl
@[simp] theorem State.release_hostMoves (s : State) : s.release.hostMoves = s.hostMoves := rfl
@[simp] theorem State.release_chan (s : State) (k : ChanId) : s.release.chan k = s.chan k := rfl
@[simp] theorem State.release_bound (s : State) (f : FileId) : s.release.bound f = s.bound f := rfl
@[simp] theorem State.release_writeBound (s : State) (f : FileId) : s.release.writeBound f = s.writeBound f := rfl
@[simp] theorem State.release_readable (s : State) (f : FileId) : s.release.readable f = s.readable f := rfl
@[simp] theorem State.release_writable (s : State) (f : FileId) : s.release.writable f = s.writable f := rfl
@[simp] theorem State.release_openFor (s : State) (md : Mode) (k : ChanId) :
    s.release.openFor md k = s.openFor md k := rfl

/-! ### complete -/

@[simp] theorem State.complete_bs (s : State) (o : Completion) : (s.complete o).bs = s.bs := rfl
@[simp] theorem State.complete_freq (s : State) (o : Completion) : (s.complete o).freq = s.freq := rfl
@[simp] theorem State.complete_tree (s : State) (o : Completion) : (s.complete o).tree = s.tree := rfl
@[simp] theorem State.complete_code (s : State) (o : Completion) : (s.complete o).code = s.code := rfl
@[simp] theorem State.complete_status (s : State) (o : Completion) : (s.complete o).status = statusAfter s.status o := rfl
@[simp] theorem State.complete_res (s : State) (o : Completion) : (s.complete o).res = s.res := rfl
@[simp] theorem State.complete_dbuf (s : State) (o : Completion) : (s.complete o).dbuf = s.dbuf := rfl
@[simp] theorem State.complete_files (s : State) (o : Completion) : (s.complete o).files = s.files := rfl
@[simp] theorem State.complete_program (s : State) (o : Completion) : (s.complete o).program = s.program := rfl
@[simp] theorem State.complete_pc (s : State) (o : Completion) : (s.complete o).pc = s.pc + 1 := rfl
@[simp] theorem State.complete_hostMoves (s : State) (o : Completion) : (s.complete o).hostMoves = s.hostMoves := rfl
@[simp] theorem State.complete_chan (s : State) (o : Completion) (k : ChanId) : (s.complete o).chan k = s.chan k := rfl
@[simp] theorem State.complete_bound (s : State) (o : Completion) (f : FileId) : (s.complete o).bound f = s.bound f := rfl
@[simp] theorem State.complete_writeBound (s : State) (o : Completion) (f : FileId) : (s.complete o).writeBound f = s.writeBound f := rfl
@[simp] theorem State.complete_readable (s : State) (o : Completion) (f : FileId) : (s.complete o).readable f = s.readable f := rfl
@[simp] theorem State.complete_writable (s : State) (o : Completion) (f : FileId) : (s.complete o).writable f = s.writable f := rfl
@[simp] theorem State.complete_openFor (s : State) (o : Completion) (md : Mode) (k : ChanId) :
    (s.complete o).openFor md k = s.openFor md k := rfl

/-! ### insertCommand -/

@[simp] theorem State.insertCommand_bs (s : State) (w : Word) : (s.insertCommand w).bs = s.bs := rfl
@[simp] theorem State.insertCommand_freq (s : State) (w : Word) : (s.insertCommand w).freq = s.freq := rfl
@[simp] theorem State.insertCommand_tree (s : State) (w : Word) : (s.insertCommand w).tree = s.tree := rfl
@[simp] theorem State.insertCommand_code (s : State) (w : Word) : (s.insertCommand w).code = s.code := rfl
@[simp] theorem State.insertCommand_status (s : State) (w : Word) : (s.insertCommand w).status = s.status := rfl
@[simp] theorem State.insertCommand_res (s : State) (w : Word) : (s.insertCommand w).res = s.res := rfl
@[simp] theorem State.insertCommand_dbuf (s : State) (w : Word) : (s.insertCommand w).dbuf = s.dbuf := rfl
@[simp] theorem State.insertCommand_files (s : State) (w : Word) : (s.insertCommand w).files = s.files := rfl
@[simp] theorem State.insertCommand_program (s : State) (w : Word) : (s.insertCommand w).program = s.program.take s.pc ++ w :: s.program.drop s.pc := rfl
@[simp] theorem State.insertCommand_pc (s : State) (w : Word) : (s.insertCommand w).pc = s.pc := rfl
@[simp] theorem State.insertCommand_hostMoves (s : State) (w : Word) : (s.insertCommand w).hostMoves = s.hostMoves := rfl
@[simp] theorem State.insertCommand_chan (s : State) (w : Word) (k : ChanId) : (s.insertCommand w).chan k = s.chan k := rfl
@[simp] theorem State.insertCommand_bound (s : State) (w : Word) (f : FileId) : (s.insertCommand w).bound f = s.bound f := rfl
@[simp] theorem State.insertCommand_writeBound (s : State) (w : Word) (f : FileId) : (s.insertCommand w).writeBound f = s.writeBound f := rfl
@[simp] theorem State.insertCommand_readable (s : State) (w : Word) (f : FileId) : (s.insertCommand w).readable f = s.readable f := rfl
@[simp] theorem State.insertCommand_writable (s : State) (w : Word) (f : FileId) : (s.insertCommand w).writable f = s.writable f := rfl
@[simp] theorem State.insertCommand_openFor (s : State) (w : Word) (md : Mode) (k : ChanId) :
    (s.insertCommand w).openFor md k = s.openFor md k := rfl

/-! ### Channels -/

@[simp] theorem State.chan_setChan_self (s : State) (ch : ChanId) (c : Channel) : (s.setChan ch c).chan ch = c := by
  simp [State.chan]

@[simp] theorem State.chan_setChan_of_ne (s : State) {ch k : ChanId} (c : Channel) (h : k ≠ ch) :
    (s.setChan ch c).chan k = s.chan k := by
  have : ch.val ≠ k.val := fun e => h (Fin.ext e.symm)
  simp [State.chan, this]

@[simp] theorem State.setChan_chan_self (s : State) (ch : ChanId) : s.setChan ch (s.chan ch) = s := by
  simp [State.setChan, State.chan]

@[simp] theorem State.setStream_eq (s : State) (ch : ChanId) (x : Channel × Memory) :
    s.setStream ch x = (s.setChan ch x.1).setFiles x.2 := rfl

/-- Any property of both channels is a property of channel 0 and of channel 1. -/
theorem forall_chan {P : ChanId → Prop} : (∀ ch, P ch) ↔ P 0 ∧ P 1 :=
  ⟨fun h => ⟨h 0, h 1⟩, fun h ch => by
    match ch with
    | 0 => exact h.1
    | 1 => exact h.2⟩

/-! ### Binding -/

/-- A file is bound when some channel is open on it (R59). -/
theorem State.bound_iff (s : State) (f : FileId) :
    s.bound f = true ↔ ∃ ch, (s.chan ch).isOpen = true ∧ (s.chan ch).fid = f := by
  simp [State.bound, Channel.binds, Fin.exists_fin_two]

/-- A file is write-bound when some channel is open on it for writing (R59). -/
theorem State.writeBound_iff (s : State) (f : FileId) :
    s.writeBound f = true ↔ ∃ ch, ((s.chan ch).isOpen = true ∧ (s.chan ch).fid = f) ∧ (s.chan ch).mode = .wr := by
  simp [State.writeBound, Channel.writeBinds, Channel.binds, Fin.exists_fin_two]

/-- "Open for" unfolded (R100). -/
theorem State.openFor_iff (s : State) (md : Mode) (ch : ChanId) :
    s.openFor md ch = true ↔ (s.chan ch).isOpen = true ∧ (s.chan ch).mode = md := by
  simp [State.openFor]

/-- The file an open channel is bound to is not writable (R59). -/
theorem State.ne_fid_of_writable {s : State} {f : FileId} {ch : ChanId} (hw : s.writable f = true)
    (ho : (s.chan ch).isOpen = true) : (s.chan ch).fid ≠ f := by
  intro h
  have : s.bound f = true := (s.bound_iff f).2 ⟨ch, ho, h⟩
  simp [State.writable, this] at hw

/-! ### The completion -/

@[simp] theorem finish_eq (o : Completion) (s : State) : finish o s = .next (s.complete o) := rfl

end Sys2Proof.Machine
end

