-- ==== Sys2Proof/Laws/Exec.lean ====
section
/-! SUPPORT. Everything a command, a host move and a step can do, once for each: if it answers a next state, one of these cases holds. -/
namespace Sys2Proof.Machine

/-- A command that checks a channel's mode first: it fails with FileError, or goes on (R100). -/
theorem ite_finish_cases {b : Bool} {s t : State} {A : Answer} (h : (if b then A else finish .fileError s) = .next t) :
    (b = false ∧ t = s.complete .fileError) ∨ (b = true ∧ A = .next t) := by
  cases b with
  | false => exact .inl ⟨rfl, by simpa using h.symm⟩
  | true => exact .inr ⟨rfl, h⟩

theorem execBsopen_cases {ch : ChanId} {fa : FileId} {md : ModeArg} {pad : Bool} {s t : State}
    (h : execBsopen ch fa md pad s = .next t) :
    t = s.complete .fileError ∨
    ((s.chan ch).isOpen = false ∧ md = .rd ∧ s.readable fa = true ∧ t = (s.setChan ch (Channel.openRd pad fa)).complete .ok) ∨
    ((s.chan ch).isOpen = false ∧ md = .wr ∧ s.writable fa = true ∧
      t = ((s.setChan ch (Channel.openWr pad fa)).setFiles (s.files.truncate fa)).complete .ok) := by
  unfold execBsopen at h
  split at h
  · exact .inl (by simpa using h.symm)
  · rename_i ho
    cases md with
    | m2 => exact .inl (by simpa using h.symm)
    | m3 => exact .inl (by simpa using h.symm)
    | rd =>
      rcases ite_finish_cases h with ⟨_, rfl⟩ | ⟨hr, h⟩
      · exact .inl rfl
      · exact .inr (.inl ⟨by simpa using ho, rfl, hr, by simpa using h.symm⟩)
    | wr =>
      rcases ite_finish_cases h with ⟨_, rfl⟩ | ⟨hr, h⟩
      · exact .inl rfl
      · exact .inr (.inr ⟨by simpa using ho, rfl, hr, by simpa using h.symm⟩)

theorem execBsclose_cases {ch : ChanId} {s t : State} (h : execBsclose ch s = .next t) :
    ((s.chan ch).isOpen = false ∧ t = s.complete .fileError) ∨
    ((s.chan ch).isOpen = true ∧
      t = ((s.setChan ch Channel.closed).setFiles ((s.chan ch).flush s.files)).complete .ok) := by
  rcases ite_finish_cases h with h | ⟨ho, h⟩
  · exact .inl h
  · exact .inr ⟨ho, by simpa using h.symm⟩

theorem execRdbit_cases {ch : ChanId} {s t : State} (h : execRdbit ch s = .next t) :
    (s.openFor .rd ch = false ∧ t = s.complete .fileError) ∨
    (∃ r c, s.openFor .rd ch = true ∧ getBit s.files (s.chan ch) = (some r, c) ∧
      t = ((s.setChan ch c).setRes ((bitByte r).setWidth 32)).complete .ok) ∨
    (∃ c, s.openFor .rd ch = true ∧ getBit s.files (s.chan ch) = (none, c) ∧ t = (s.setChan ch c).complete .eos) := by
  rcases ite_finish_cases h with h | ⟨ho, h⟩
  · exact .inl h
  · split at h
    · rename_i r c hg
      exact .inr (.inl ⟨r, c, ho, hg, by simpa using h.symm⟩)
    · rename_i c hg
      exact .inr (.inr ⟨c, ho, hg, by simpa using h.symm⟩)

theorem execWrbit_cases {ch : ChanId} {b : Bool} {s t : State} (h : execWrbit ch b s = .next t) :
    (s.openFor .wr ch = false ∧ t = s.complete .fileError) ∨
    (s.openFor .wr ch = true ∧ t = (s.setStream ch (putBit (s.chan ch, s.files) b)).complete .ok) := by
  rcases ite_finish_cases h with h | ⟨ho, h⟩
  · exact .inl h
  · exact .inr ⟨ho, by simpa using h.symm⟩

theorem execRdbits_cases {ch : ChanId} {n : Nat} {s t : State} (h : execRdbits ch n s = .next t) :
    (Config.bulkMax < n ∧ t = s.complete .cmdError) ∨
    (n ≤ Config.bulkMax ∧ s.openFor .rd ch = false ∧ t = s.complete .fileError) ∨
    (∃ bits c, n ≤ Config.bulkMax ∧ s.openFor .rd ch = true ∧ getBits s.files n (s.chan ch) = (bits, c) ∧
      t = (((s.setChan ch c).setDbuf (DataBuffer.zero.fill 0 bits)).setRes (BitVec.ofNat 32 bits.length)).complete .ok) := by
  unfold execRdbits at h
  split at h
  · rename_i hn
    exact .inl ⟨hn, by simpa using h.symm⟩
  · rename_i hn
    rcases ite_finish_cases h with ⟨ho, h⟩ | ⟨ho, h⟩
    · exact .inr (.inl ⟨by omega, ho, h⟩)
    · exact .inr (.inr ⟨_, _, by omega, ho, rfl, by simpa using h.symm⟩)

theorem execWrbits_cases {ch : ChanId} {n : Nat} {s t : State} (h : execWrbits ch n s = .next t) :
    (Config.bulkMax < n ∧ t = s.complete .cmdError) ∨
    (n ≤ Config.bulkMax ∧ s.openFor .wr ch = false ∧ t = s.complete .fileError) ∨
    (n ≤ Config.bulkMax ∧ s.openFor .wr ch = true ∧
      t = (s.setStream ch (putBits (s.chan ch, s.files) (s.dbuf.bits n))).complete .ok) := by
  unfold execWrbits at h
  split at h
  · rename_i hn
    exact .inl ⟨hn, by simpa using h.symm⟩
  · rename_i hn
    rcases ite_finish_cases h with ⟨ho, h⟩ | ⟨ho, h⟩
    · exact .inr (.inl ⟨by omega, ho, h⟩)
    · exact .inr (.inr ⟨by omega, ho, by simpa using h.symm⟩)

theorem execFscan_cases {fa : FileId} {s t : State} (h : execFscan fa s = .next t) :
    (s.readable fa = false ∧ t = s.complete .fileError) ∨
    (s.readable fa = true ∧ s.files.tooLong fa = false ∧ t = (s.setFreq (countBytes (s.files.data fa))).complete .ok) := by
  rcases ite_finish_cases h with h | ⟨hr, h⟩
  · exact .inl h
  · split at h
    · cases h
    · rename_i hl
      exact .inr ⟨hr, by simpa using hl, by simpa using h.symm⟩

theorem execTser_cases {ch : ChanId} {s t : State} (h : execTser ch s = .next t) :
    (s.openFor .wr ch = false ∧ t = s.complete .fileError) ∨
    (s.openFor .wr ch = true ∧ t = (s.setStream ch (emitTree s.tree (s.chan ch, s.files))).complete .ok) := by
  rcases ite_finish_cases h with h | ⟨ho, h⟩
  · exact .inl h
  · exact .inr ⟨ho, by simpa using h.symm⟩

theorem execTdes_cases {ch : ChanId} {s t : State} (h : execTdes ch s = .next t) :
    (s.openFor .rd ch = false ∧ t = s.complete .fileError) ∨
    (∃ tr c, s.openFor .rd ch = true ∧ parseDictionary s.files (s.chan ch) = (some tr, c) ∧
      t = ((s.setChan ch c).setTree (some tr)).complete .ok) ∨
    (∃ c, s.openFor .rd ch = true ∧ parseDictionary s.files (s.chan ch) = (none, c) ∧
      t = ((s.setChan ch c).setTree none).complete .formatError) := by
  rcases ite_finish_cases h with h | ⟨ho, h⟩
  · exact .inl h
  · split at h
    · rename_i tr c hp
      exact .inr (.inl ⟨tr, c, ho, hp, by simpa using h.symm⟩)
    · rename_i c hp
      exact .inr (.inr ⟨c, ho, hp, by simpa using h.symm⟩)

theorem execPenc_cases {ch : ChanId} {fa : FileId} {s t : State} (h : execPenc ch fa s = .next t) :
    (t = s.complete .fileError) ∨ (t = s.complete .cmdError) ∨
    (s.openFor .wr ch = true ∧ s.readable fa = true ∧ s.files.tooLong fa = false ∧
      t = (s.setStream ch (putBits (s.chan ch, s.files) (s.code.encodeBytes (s.files.data fa)))).complete .ok) := by
  rcases ite_finish_cases h with ⟨_, h⟩ | ⟨ho, h⟩
  · exact .inl h
  · rcases ite_finish_cases h with ⟨_, h⟩ | ⟨hr, h⟩
    · exact .inl h
    · split at h
      · cases h
      · rename_i hl
        split at h
        · exact .inr (.inr ⟨ho, hr, by simpa using hl, by simpa using h.symm⟩)
        · exact .inr (.inl (by simpa using h.symm))

theorem execTrail_cases {ch : ChanId} {s t : State} (h : execTrail ch s = .next t) :
    (s.openFor .wr ch = false ∧ t = s.complete .fileError) ∨
    (s.openFor .wr ch = true ∧ t = (s.setStream ch (trailer (s.chan ch, s.files))).complete .ok) := by
  rcases ite_finish_cases h with h | ⟨ho, h⟩
  · exact .inl h
  · exact .inr ⟨ho, by simpa using h.symm⟩

theorem execPdec_cases {ch : ChanId} {fb : FileId} {s t : State} (h : execPdec ch fb s = .next t) :
    (t = s.complete .fileError) ∨ (s.tree = none ∧ t = s.complete .cmdError) ∨
    (∃ tr R c, s.openFor .rd ch = true ∧ s.writable fb = true ∧ s.tree = some tr ∧
      readResidual (s.files.truncate fb) (s.chan ch) = (R, c) ∧
      t = ((s.setChan ch c).setFiles (s.files.setFile fb { present := true, data := (decodeResidual tr R).1 })).complete
        (formatOutcome (decodeResidual tr R).2)) := by
  rcases ite_finish_cases h with ⟨_, h⟩ | ⟨ho, h⟩
  · exact .inl h
  · rcases ite_finish_cases h with ⟨_, h⟩ | ⟨hw, h⟩
    · exact .inl h
    · split at h
      · rename_i ht
        exact .inr (.inl ⟨ht, by simpa using h.symm⟩)
      · rename_i tr ht
        split at h
        rename_i R c hr
        simp only [Config.rmax, overRmax, Bool.false_eq_true, if_false] at h
        exact .inr (.inr ⟨tr, R, c, ho, hw, ht, hr, by simpa using h.symm⟩)

theorem execHenc_cases {fa fb : FileId} {s t : State} (h : execHenc fa fb s = .next t) :
    (t = s.release.complete .fileError) ∨
    (s.readable fa = true ∧ fa ≠ fb ∧ s.writable fb = true ∧ s.files.tooLong fa = false ∧
      t = ((s.release).setFiles
        (encodeInto fb (build (countBytes (s.files.data fa))) (s.files.data fa) s.files)).complete .ok) := by
  rcases ite_finish_cases h with ⟨_, h⟩ | ⟨hr, h⟩
  · exact .inl h
  · rcases ite_finish_cases h with ⟨_, h⟩ | ⟨hw, h⟩
    · exact .inl h
    · split at h
      · cases h
      · rename_i hl
        simp only [Bool.and_eq_true, Bool.not_eq_true', decide_eq_false_iff_not] at hr
        simp only [finish_eq, Host.Outcome.next.injEq] at h
        exact .inr ⟨hr.1, hr.2, hw, by simpa using hl, h.symm⟩

theorem execHdec_cases {fa fb : FileId} {s t : State} (h : execHdec fa fb s = .next t) :
    (t = s.release.complete .fileError) ∨
    (∃ data o, s.readable fa = true ∧ fa ≠ fb ∧ s.writable fb = true ∧ (o = .ok ∨ o = .formatError) ∧
      t = ((s.release).setFiles (s.files.setFile fb { present := true, data := data })).complete o) := by
  rcases ite_finish_cases h with ⟨_, h⟩ | ⟨hr, h⟩
  · exact .inl h
  · simp only [Bool.and_eq_true, Bool.not_eq_true', decide_eq_false_iff_not] at hr
    obtain ⟨⟨hr, hne⟩, hw⟩ := hr
    refine .inr ?_
    split at h
    · simp only [finish_eq, Host.Outcome.next.injEq] at h
      exact ⟨[], .ok, hr, hne, hw, .inl rfl, h.symm⟩
    · split at h
      · simp only [finish_eq, Host.Outcome.next.injEq] at h
        exact ⟨[], .formatError, hr, hne, hw, .inr rfl, h.symm⟩
      · split at h
        rename_i tr c _ R c' _
        simp only [Config.rmax, overRmax, Bool.false_eq_true, if_false, finish_eq, Host.Outcome.next.injEq,
          Memory.truncate_appendAll] at h
        refine ⟨_, _, hr, hne, hw, ?_, h.symm⟩
        unfold formatOutcome
        split <;> simp

/-- A host move that answers a next state: a command word was executed, a register was written, or an unbound file was changed (R33, R64). -/
theorem hostMove_cases {mv : HostMove} {s t : State} (h : hostMove mv s = .next t) :
    (∃ v, mv = .writeReg 0 v ∧ runWord v (s.insertCommand v) = .next t) ∨
    (∃ d, t = s.setDbuf d) ∨
    (∃ f e, s.bound f = false ∧ (e.present = false → e.data = []) ∧ t = s.setFiles (s.files.setFile f e)) := by
  cases mv with
  | writeReg n v =>
    simp only [hostMove, hostWriteReg] at h
    split at h
    · rename_i hn
      have hn0 : n = 0 := by
        unfold regName at hn
        split at hn
        · assumption
        · repeat' (split at hn)
          all_goals cases hn
      exact .inl ⟨v, by rw [hn0], h⟩
    all_goals
      simp only [Host.Outcome.next.injEq] at h
    · exact .inr (.inl ⟨s.dbuf, h.symm⟩)
    · exact .inr (.inl ⟨s.dbuf, h.symm⟩)
    · exact .inr (.inl ⟨_, h.symm⟩)
    · exact .inr (.inl ⟨s.dbuf, h.symm⟩)
  | putFile f data =>
    simp only [hostMove, hostSetFile] at h
    split at h
    · cases h
    · rename_i hb
      simp only [Host.Outcome.next.injEq] at h
      exact .inr (.inr ⟨f, _, by simpa using hb, by simp, h.symm⟩)
  | removeFile f =>
    simp only [hostMove, hostSetFile] at h
    split at h
    · cases h
    · rename_i hb
      simp only [Host.Outcome.next.injEq] at h
      exact .inr (.inr ⟨f, _, by simpa using hb, by simp [FileEntry.absent], h.symm⟩)

/-- The execution of a word: its command's meaning, or the completion with CmdError (R73). -/
theorem runWord_cases {w : Word} {s t : State} (h : runWord w s = .next t) :
    (∃ i, decode w = .instr i ∧ exec i s = .next t) ∨ (∃ why, decode w = .illegal why ∧ t = s.complete .cmdError) := by
  unfold runWord at h
  split at h
  · rename_i i hd
    exact .inl ⟨i, hd, h⟩
  · rename_i why hd
    exact .inr ⟨why, hd, by simpa [illegalWord] using h.symm⟩

/-- A step that answers a next state: a due move of the host, or the next word of the program (R2, R3, R11). -/
theorem step_cases {s t : State} (h : step s = .next t) :
    (∃ mv rest, s.dueMove = some (mv, rest) ∧ hostMove mv { s with hostMoves := rest } = .next t) ∨
    (∃ w, s.dueMove = none ∧ s.nextWord = some w ∧ runWord w s = .next t) := by
  unfold step at h
  split at h
  · rename_i mv rest hd
    exact .inl ⟨mv, rest, hd, h⟩
  · rename_i hd
    split at h
    · rename_i w hw
      exact .inr ⟨w, hd, hw, h⟩
    · cases h

end Sys2Proof.Machine
end

