-- ==== Sys2Proof/Laws/Stream.lean ====
section
/-! SUPPORT. What PutBit, GetBit and the operations built from them do to a stream (R22, R23, R102, R103, R105): one lemma for each, so
that no proof about a command unfolds them. -/
namespace Sys2Proof.Machine

/-! ### Handles -/

@[simp] theorem Channel.sameHandle_refl (c : Channel) : c.sameHandle c := ⟨rfl, rfl, rfl, rfl⟩

theorem Channel.sameHandle.trans {c d e : Channel} (h : c.sameHandle d) (k : d.sameHandle e) : c.sameHandle e :=
  ⟨h.1.trans k.1, h.2.1.trans k.2.1, h.2.2.1.trans k.2.2.1, h.2.2.2.trans k.2.2.2⟩

/-- A channel's invariant depends on its own file alone. -/
theorem Channel.Ok.congr {m n : Memory} {c : Channel} (h : c.Ok m) (hf : n.file c.fid = m.file c.fid) : c.Ok n := by
  obtain ⟨_, hl, he, _⟩ := Memory.read_congr hf
  simpa only [Channel.Ok, hl, he] using h

/-- What a channel still delivers depends on its own file alone. -/
theorem Channel.toRead_congr {m n : Memory} (c : Channel) (hf : n.file c.fid = m.file c.fid) : c.toRead n = c.toRead m := by
  simp only [Channel.toRead, (Memory.read_congr hf).1]

/-- Two stores that agree on the channel's file give the same `GetBit`. -/
theorem getBit_congr {m n : Memory} {c : Channel} (hf : n.file c.fid = m.file c.fid) : getBit n c = getBit m c := by
  obtain ⟨_, hl, _, hr⟩ := Memory.read_congr hf
  simp only [getBit, hl, hr]

/-! ### Writing -/

/-- `x` is the WR channel `c` with its store `m` after the bits `bits` were put on it: nothing else has changed. -/
structure Grew (c : Channel) (m : Memory) (bits : Bits) (x : Channel × Memory) : Prop where
  handle : x.1.sameHandle c
  ok : x.1.Ok x.2
  written : x.1.written x.2 = c.written m ++ bits
  others : ∀ f, f ≠ c.fid → x.2.file f = m.file f
  prefixed : ∃ vs, x.2.data c.fid = m.data c.fid ++ vs

theorem Grew.refl {c : Channel} {m : Memory} (h : c.Ok m) : Grew c m [] (c, m) :=
  ⟨c.sameHandle_refl, h, by simp, fun _ _ => rfl, [], by simp⟩

theorem Grew.trans {c : Channel} {m : Memory} {s t : Bits} {x y : Channel × Memory} (h : Grew c m s x) (k : Grew x.1 x.2 t y) :
    Grew c m (s ++ t) y := by
  have hfid := h.handle.2.2.2
  obtain ⟨vs, hv⟩ := h.prefixed
  obtain ⟨ws, hw⟩ := k.prefixed
  refine ⟨k.handle.trans h.handle, k.ok, ?_, ?_, vs ++ ws, ?_⟩
  · rw [k.written, h.written, List.append_assoc]
  · intro f hf
    rw [k.others f (hfid ▸ hf), h.others f hf]
  · rw [← hfid, hw, hfid, hv, List.append_assoc]

/-- A WR channel that is open and meets its invariant. -/
def Channel.Writing (c : Channel) (m : Memory) : Prop := c.isOpen = true ∧ c.mode = .wr ∧ c.Ok m

theorem Grew.writing {c : Channel} {m : Memory} {s : Bits} {x : Channel × Memory} (h : Grew c m s x) (hc : c.Writing m) :
    x.1.Writing x.2 :=
  ⟨h.handle.1.trans hc.1, h.handle.2.1.trans hc.2.1, h.ok⟩

/-- The buffer after the next bit is placed: the bits already written, then this one (R22, R105). -/
theorem buffered_place {c : Channel} {m : Memory} (hc : c.Writing m) (b : Bool) :
    (List.range (8 - (c.cur - 1))).map (fun i => (c.place b).buf.getLsbD (7 - i)) = c.buffered ++ [b] := by
  obtain ⟨ho, hm, hok⟩ := hc
  obtain ⟨h1, h8, _, hz⟩ := hok.2.2.2 ho hm
  have hr : 8 - (c.cur - 1) = (8 - c.cur) + 1 := by omega
  rw [hr, List.range_succ, List.map_append, Channel.buffered]
  congr 1
  · apply List.map_congr_left
    intro i hi
    have hi' : i < 8 - c.cur := List.mem_range.1 hi
    have hne : ¬ (7 - i < c.cur - 1) := by omega
    have : 7 - i - (c.cur - 1) ≠ 0 := by omega
    cases b <;> simp [Channel.place, bitByte, this]
  · have h7 : 7 - (8 - c.cur) = c.cur - 1 := by omega
    have hlow : c.buf.getLsbD (c.cur - 1) = false := hz _ (by omega)
    have hlt : c.cur - 1 < 8 := by omega
    have hlow' : c.buf[c.cur - 1]'hlt = false := by rw [← BitVec.getLsbD_eq_getElem]; exact hlow
    cases b <;> simp [Channel.place, bitByte, h7, hlow', hlt]

/-- Below the place of the bit the buffer stays 0 (R22). -/
theorem place_low {c : Channel} {m : Memory} (hc : c.Writing m) (b : Bool) :
    ∀ i, i < c.cur - 1 → (c.place b).buf.getLsbD i = false := by
  obtain ⟨ho, hm, hok⟩ := hc
  intro i hi
  have := (hok.2.2.2 ho hm).2.2.2 i (by omega)
  cases b <;> simp [Channel.place, bitByte, this, hi]

/-- PutBit adds exactly its bit to the stream (R105). -/
theorem putBit_grew {c : Channel} {m : Memory} (hc : c.Writing m) (b : Bool) : Grew c m [b] (putBit (c, m) b) := by
  have hbuf := buffered_place hc b
  have hlow := place_low hc b
  obtain ⟨ho, hm, hok⟩ := hc
  obtain ⟨h1, h8, hp, hz⟩ := hok.2.2.2 ho hm
  have hex := hok.2.1 ho
  unfold putBit
  split
  · rename_i h0
    have h0' : c.cur - 1 = 0 := h0
    refine ⟨⟨rfl, rfl, rfl, rfl⟩, ?_, ?_, ?_, ?_⟩
    · refine ⟨fun h => by simp [Channel.place, ho] at h, fun _ => ?_, fun _ h => by simp [Channel.place, hm] at h, fun _ _ => ?_⟩
      · simp [Channel.place]
      · simp [Channel.place, hp]
    · rw [h0'] at hbuf
      have e : (c.place b).fid = c.fid := rfl
      simp only [Channel.written, Channel.buffered, e, Memory.data_append_self, unpack_append, List.append_assoc]
      have e8 : (List.range (8 - 0)).map (fun i => (c.place b).buf.getLsbD (7 - i)) = unpack [(c.place b).buf] := rfl
      rw [← e8, hbuf]
      simp [Channel.buffered]
    · intro f hf
      exact Memory.file_append_of_ne m _ hf
    · exact ⟨[(c.place b).buf], by simp⟩
  · rename_i h0
    have h0' : c.cur - 1 ≠ 0 := h0
    refine ⟨⟨rfl, rfl, rfl, rfl⟩, ?_, ?_, fun _ _ => rfl, [], by simp⟩
    · refine ⟨fun h => by simp [Channel.place, ho] at h, fun _ => hex, fun _ h => by simp [Channel.place, hm] at h, fun _ _ => ?_⟩
      exact ⟨by simp only [Channel.place]; omega, by simp only [Channel.place]; omega, hp, hlow⟩
    · have e : (c.place b).buffered = c.buffered ++ [b] := hbuf
      have e' : (c.place b).fid = c.fid := rfl
      simp only [Channel.written, e, e', List.append_assoc]

/-- A sequence of PutBits adds exactly its bits (R105). -/
theorem putBits_grew {c : Channel} {m : Memory} (hc : c.Writing m) (bits : Bits) : Grew c m bits (putBits (c, m) bits) := by
  induction bits generalizing c m with
  | nil => exact Grew.refl hc.2.2
  | cons b rest ih =>
    have h := putBit_grew hc b
    exact h.trans (ih (h.writing hc))

theorem putBits_append (x : Channel × Memory) (s t : Bits) : putBits x (s ++ t) = putBits (putBits x s) t := by
  simp [putBits]

theorem putBits_cons (x : Channel × Memory) (b : Bool) (t : Bits) : putBits x (b :: t) = putBits (putBit x b) t := rfl

/-- EmitTree puts exactly Ser(t) on the stream (R80, R145). -/
theorem emitNode_eq (t : HTree) (x : Channel × Memory) : emitNode t x = putBits x t.ser := by
  induction t generalizing x with
  | leaf sym w => rfl
  | node l r w ihl ihr => simp only [emitNode, HTree.ser, ihl, ihr, putBits_cons, putBits_append]

/-- EmitTree puts exactly Ser(t) on the stream, nothing for `None` (R80, R145). -/
theorem emitTree_eq (t : Option HTree) (x : Channel × Memory) : emitTree t x = putBits x (serialise t) := by
  cases t with
  | none => rfl
  | some t => exact emitNode_eq t x

/-- The bits given so far fix how many are buffered: the cursor is what is missing to a byte (R22). -/
theorem length_written (c : Channel) (m : Memory) :
    (c.written m).length = 8 * (m.fileLen c.fid) + (8 - c.cur) := by
  simp [Channel.written, Channel.buffered, Memory.fileLen]

/-- Filling with 0 bits ends at an empty buffer (R161). -/
theorem padOut_eq {c : Channel} {m : Memory} (hc : c.Writing m) (fuel : Nat) (hf : c.cur % 8 ≤ fuel) :
    padOut fuel (c, m) = putBits (c, m) (List.replicate (c.cur % 8) false) := by
  induction fuel generalizing c m with
  | zero =>
    have h0 : c.cur % 8 = 0 := by omega
    simp [padOut, h0, putBits]
  | succ fuel ih =>
    obtain ⟨h1, h8, _, _⟩ := hc.2.2.2.2.2 hc.1 hc.2.1
    unfold padOut
    split
    · rename_i h
      have h : c.cur = 8 := h
      simp [h, putBits]
    · rename_i h
      have h : c.cur ≠ 8 := h
      have hg := putBit_grew hc false
      have hw := hg.writing hc
      have hcur : (putBit (c, m) false).1.cur % 8 = c.cur - 1 := by
        unfold putBit
        split
        · rename_i h0
          have h0 : c.cur - 1 = 0 := h0
          simp [h0]
        · simp only [Channel.place]; omega
      have hmod : c.cur % 8 = (c.cur - 1) + 1 := by omega
      have hle : (putBit (c, m) false).1.cur % 8 ≤ fuel := by omega
      rw [hmod, List.replicate_succ, putBits_cons, ← hcur]
      exact ih hw hle

/-- The trailer is the sentinel and the 0 bits to the byte boundary (R161). -/
theorem trailer_eq {c : Channel} {m : Memory} (hc : c.Writing m) :
    trailer (c, m) = putBits (c, m) (true :: List.replicate (c.cur - 1) false) := by
  obtain ⟨h1, h8, _, _⟩ := hc.2.2.2.2.2 hc.1 hc.2.1
  have hw := (putBit_grew hc true).writing hc
  have hcur : (putBit (c, m) true).1.cur % 8 = c.cur - 1 := by
    unfold putBit
    split
    · rename_i h0
      have h0 : c.cur - 1 = 0 := h0
      simp [h0]
    · simp only [Channel.place]; omega
  have hle : (putBit (c, m) true).1.cur % 8 ≤ 8 := by omega
  rw [putBits_cons, ← hcur]
  exact padOut_eq hw 8 hle

/-! ### Reading -/

/-- An RD channel that is open and meets its invariant. -/
def Channel.Reading (c : Channel) (m : Memory) : Prop := c.isOpen = true ∧ c.mode = .rd ∧ c.Ok m

theorem Channel.leaves.reading {c d : Channel} {m : Memory} {rest : Bits} (h : c.leaves d m rest) (hd : d.Reading m) :
    c.Reading m :=
  ⟨h.1.1.trans hd.1, h.1.2.1.trans hd.2.1, h.2.1⟩

theorem Channel.leaves.trans {c d e : Channel} {m : Memory} {s t : Bits} (h : c.leaves d m t) (k : d.leaves e m s) :
    c.leaves e m t :=
  ⟨h.1.trans k.1, h.2.1, h.2.2⟩

theorem Channel.leaves_refl {c : Channel} {m : Memory} (h : c.Ok m) : c.leaves c m (c.toRead m) :=
  ⟨c.sameHandle_refl, h, rfl⟩

/-- The invariant of an RD channel from its bounds. -/
theorem Channel.ok_rd {c : Channel} {m : Memory} (ho : c.isOpen = true) (hm : c.mode = .rd) (he : m.fileExists c.fid = true)
    (hc : c.cur ≤ 8) (hp : c.pos ≤ m.fileLen c.fid) : c.Ok m :=
  ⟨fun h => by simp [ho] at h, fun _ => he, fun _ _ => ⟨hc, hp⟩, fun _ h => by simp [hm] at h⟩

/-- Delivery of a buffered bit (R23, R103). -/
theorem deliver_spec {c : Channel} {m : Memory} (hc : c.Reading m) (h0 : c.cur ≠ 0) :
    ∃ b c', c.deliver = (some b, c') ∧ c.toRead m = b :: c'.toRead m ∧ c'.leaves c m (c'.toRead m) ∧
      c'.pos = c.pos := by
  obtain ⟨ho, hm, hok⟩ := hc
  obtain ⟨h8, hp⟩ := hok.2.2.1 ho hm
  refine ⟨_, _, rfl, ?_, ⟨⟨rfl, rfl, rfl, rfl⟩, ?_, rfl⟩, rfl⟩
  · obtain ⟨k, hk⟩ := Nat.exists_eq_succ_of_ne_zero h0
    simp [Channel.toRead, Channel.unread, hk, List.range_succ]
  · exact Channel.ok_rd ho hm (hok.2.1 ho) (by simp only; omega) hp

/-- What an RD channel with an empty buffer still delivers when a byte is left (R79, R103). -/
theorem toRead_load {c : Channel} {m : Memory} (hc : c.Reading m) (h0 : c.cur = 0) {b : Byte}
    (hb : m.read? c.fid c.pos = some b) :
    (c.load (m.fileLen c.fid) b).toRead m = c.toRead m ∧ (c.load (m.fileLen c.fid) b).Reading m ∧
      (c.load (m.fileLen c.fid) b).sameHandle c ∧ (c.load (m.fileLen c.fid) b).pos = c.pos + 1 := by
  obtain ⟨ho, hm, hok⟩ := hc
  have hlt : c.pos < (m.data c.fid).length := by
    simp only [Memory.read?, List.getElem?_eq_some_iff] at hb
    exact hb.1
  have hget : (m.data c.fid)[c.pos] = b := by
    simp only [Memory.read?, List.getElem?_eq_some_iff] at hb
    exact hb.2
  have hdrop : (m.data c.fid).drop c.pos = b :: (m.data c.fid).drop (c.pos + 1) := by
    rw [List.drop_eq_getElem_cons hlt, hget]
  have hle : c.pos + 1 ≤ m.fileLen c.fid := hlt
  have hex := hok.2.1 ho
  have hun : c.unread = [] := by simp [Channel.unread, h0]
  unfold Channel.load
  split
  · rename_i hlast
    simp only [Bool.and_eq_true, decide_eq_true_eq] at hlast
    obtain ⟨hpad, hl⟩ := hlast
    have hend : (m.data c.fid).drop (c.pos + 1) = [] := by
      apply List.drop_of_length_le
      simp only [Memory.fileLen] at hl; omega
    split
    · rename_i hz
      refine ⟨?_, ⟨ho, hm, Channel.ok_rd ho hm hex (by simp) hle⟩, ⟨rfl, rfl, rfl, rfl⟩, rfl⟩
      simp [Channel.toRead, Channel.unread, h0, hpad, hdrop, hend, hz, lastByteBits, readPadded]
    · rename_i hz
      refine ⟨?_, ⟨ho, hm, Channel.ok_rd ho hm hex (by simp only; omega) hle⟩, ⟨rfl, rfl, rfl, rfl⟩, rfl⟩
      simp only [Channel.toRead, hun, hpad, hdrop, hend, if_true, readPadded, List.nil_append, List.append_nil]
      exact unread_lastByte b hz
  · rename_i hlast
    refine ⟨?_, ⟨ho, hm, Channel.ok_rd ho hm hex (by simp) hle⟩, ⟨rfl, rfl, rfl, rfl⟩, rfl⟩
    have hu : ({ c with pos := c.pos + 1, buf := b, cur := 8 } : Channel).unread = bits8 b := rfl
    simp only [Channel.toRead, hu, hun, hdrop, List.nil_append]
    split
    · rename_i hpad
      rw [readPadded_cons_of_ne]
      intro hnil
      have := List.drop_eq_nil_iff.1 hnil
      apply hlast
      simp only [hpad, Bool.true_and, decide_eq_true_eq]
      simp only [Memory.fileLen] at hle ⊢; omega
    · rfl

/-- GetBit delivers exactly the next bit left in the stream, or EOS when none is left (R23, R79, R103). At EOS the cursor is 0 and the
position is the file's length. -/
theorem getBit_spec {c : Channel} {m : Memory} (hc : c.Reading m) :
    (∃ b c', getBit m c = (some b, c') ∧ c.toRead m = b :: c'.toRead m ∧ c'.leaves c m (c'.toRead m)) ∨
    (∃ c', getBit m c = (none, c') ∧ c.toRead m = [] ∧ c'.leaves c m [] ∧ c'.cur = 0 ∧ c'.pos = m.fileLen c.fid) := by
  have hpos := (hc.2.2.2.2.1 hc.1 hc.2.1).2
  unfold getBit
  split
  · rename_i h0
    split
    · rename_i hr
      have hge : m.fileLen c.fid ≤ c.pos := by
        simpa [Memory.read?, Memory.fileLen] using hr
      have hd : (m.data c.fid).drop c.pos = [] := List.drop_of_length_le hge
      have ht : c.toRead m = [] := by
        simp [Channel.toRead, Channel.unread, h0, hd, readPadded]
      exact .inr ⟨c, rfl, ht, ⟨c.sameHandle_refl, hc.2.2, ht⟩, h0, by omega⟩
    · rename_i b hb
      obtain ⟨hto, hrd, hsame, hp⟩ := toRead_load hc h0 hb
      split
      · rename_i hcur
        have hcur : (c.load (m.fileLen c.fid) b).cur = 0 := hcur
        refine .inr ⟨_, rfl, ?_, ⟨hsame, hrd.2.2, ?_⟩, hcur, ?_⟩
        all_goals
          have hlast : (c.pad && decide (c.pos + 1 = m.fileLen c.fid)) = true := by
            by_contra hne
            simp [Channel.load, hne] at hcur
        · rw [← hto]
          simp only [Bool.and_eq_true, decide_eq_true_eq] at hlast
          have hpad : (c.load (m.fileLen c.fid) b).pad = true := by rw [hsame.2.2.1]; exact hlast.1
          have hd : (m.data (c.load (m.fileLen c.fid) b).fid).drop (c.load (m.fileLen c.fid) b).pos = [] := by
            rw [hsame.2.2.2, hp]
            apply List.drop_of_length_le
            exact Nat.le_of_eq hlast.2.symm
          simp [Channel.toRead, Channel.unread, hcur, hpad, hd, readPadded]
        · simp only [Bool.and_eq_true, decide_eq_true_eq] at hlast
          have hpad : (c.load (m.fileLen c.fid) b).pad = true := by rw [hsame.2.2.1]; exact hlast.1
          have hd : (m.data (c.load (m.fileLen c.fid) b).fid).drop (c.load (m.fileLen c.fid) b).pos = [] := by
            rw [hsame.2.2.2, hp]
            apply List.drop_of_length_le
            exact Nat.le_of_eq hlast.2.symm
          simp [Channel.toRead, Channel.unread, hcur, hpad, hd, readPadded]
        · simp only [Bool.and_eq_true, decide_eq_true_eq] at hlast
          rw [hp]; exact hlast.2
      · rename_i hcur
        obtain ⟨b', c', hdel, hto', hl, _⟩ := deliver_spec hrd hcur
        exact .inl ⟨b', c', hdel, by rw [← hto, hto'], hl.trans ⟨hsame, hrd.2.2, rfl⟩⟩
  · rename_i h0
    obtain ⟨b, c', hdel, hto, hl, _⟩ := deliver_spec hc h0
    exact .inl ⟨b, c', hdel, hto, hl⟩

/-- GetBit on a stream with a bit left. -/
theorem getBit_cons {c : Channel} {m : Memory} (hc : c.Reading m) {b : Bool} {rest : Bits} (h : c.toRead m = b :: rest) :
    ∃ c', getBit m c = (some b, c') ∧ c'.leaves c m rest := by
  rcases getBit_spec hc with ⟨b', c', hg, ht, hl⟩ | ⟨c', _, ht, _⟩
  · rw [h] at ht
    obtain ⟨rfl, rfl⟩ := List.cons.inj ht
    exact ⟨c', hg, hl⟩
  · rw [h] at ht; cases ht

/-- GetBit at the end of the stream. -/
theorem getBit_nil {c : Channel} {m : Memory} (hc : c.Reading m) (h : c.toRead m = []) :
    ∃ c', getBit m c = (none, c') ∧ c'.leaves c m [] ∧ c'.cur = 0 ∧ c'.pos = m.fileLen c.fid := by
  rcases getBit_spec hc with ⟨b', c', hg, ht, hl⟩ | ⟨c', hg, _, hl⟩
  · rw [h] at ht; cases ht
  · exact ⟨c', hg, hl⟩

/-- A bulk read takes the first `n` bits left, fewer at the end of the stream, and leaves the rest (R107). -/
theorem getBits_spec {c : Channel} {m : Memory} (hc : c.Reading m) (n : Nat) :
    ∃ c', getBits m n c = ((c.toRead m).take n, c') ∧ c'.leaves c m ((c.toRead m).drop n) := by
  induction n generalizing c with
  | zero => exact ⟨c, rfl, Channel.leaves_refl hc.2.2⟩
  | succ n ih =>
    cases ht : c.toRead m with
    | nil =>
      obtain ⟨c', hg, hl, _⟩ := getBit_nil hc ht
      exact ⟨c', by simp [getBits, hg], hl⟩
    | cons b rest =>
      obtain ⟨c', hg, hl⟩ := getBit_cons hc ht
      obtain ⟨c'', hgs, hl'⟩ := ih (hl.reading hc)
      rw [hl.2.2] at hgs hl'
      exact ⟨c'', by simp [getBits, hg, hgs], hl'.trans hl⟩

/-- EOS is final (R103): a GetBit that answers EOS leaves a channel from which GetBit answers EOS again and changes nothing. -/
theorem getBit_none_again {m : Memory} {c c' : Channel} (h : getBit m c = (none, c')) : getBit m c' = (none, c') := by
  unfold getBit at h
  split at h
  · rename_i h0
    split at h
    · rename_i hr
      obtain rfl := (Prod.mk.inj h).2
      simp [getBit, h0, hr]
    · rename_i b hr
      split at h
      · rename_i hl
        obtain rfl := (Prod.mk.inj h).2
        have hlen : c.pos + 1 = m.fileLen c.fid := by
          by_contra hne
          simp [Channel.load, hne] at hl
        have hfid : (c.load (m.fileLen c.fid) b).fid = c.fid := by
          unfold Channel.load; split <;> (try split) <;> rfl
        have hpos : (c.load (m.fileLen c.fid) b).pos = c.pos + 1 := by
          unfold Channel.load; split <;> (try split) <;> rfl
        have hr' : m.read? c.fid (c.pos + 1) = none := by
          rw [hlen]; simp [Memory.read?, Memory.fileLen]
        conv => lhs; unfold getBit
        rw [if_pos hl, hfid, hpos, hr']
      · simp [Channel.deliver] at h
  · simp [Channel.deliver] at h

/-- A bulk read at the end of the stream leaves the channel as the first EOS does. -/
theorem getBits_of_none {m : Memory} {c c' : Channel} (n : Nat) (h : getBit m c = (none, c')) : getBits m n c' = ([], c') := by
  cases n with
  | zero => rfl
  | succ n => simp [getBits, getBit_none_again h]

/-- Two bulk reads leave the channel that one of their total leaves (R107). -/
theorem getBits_add (m : Memory) (j k : Nat) (c : Channel) : (getBits m (j + k) c).2 = (getBits m k (getBits m j c).2).2 := by
  induction j generalizing c with
  | zero => simp [getBits]
  | succ j ih =>
    rw [Nat.add_right_comm]
    rcases hg : getBit m c with ⟨_ | b, c'⟩
    · simp [getBits, hg, getBits_of_none k hg]
    · simp [getBits, hg, ih]

/-- The bound of the readers covers the stream (R249, log 11). -/
theorem length_toRead_le (c : Channel) (m : Memory) : (c.toRead m).length ≤ c.bitsLeft m := by
  have hu : c.unread.length = c.cur := by simp [Channel.unread]
  have hd : ((m.data c.fid).drop c.pos).length = m.fileLen c.fid - c.pos := by simp [Memory.fileLen]
  simp only [Channel.toRead, List.length_append, hu, Channel.bitsLeft]
  split
  · have := length_readPadded_le ((m.data c.fid).drop c.pos)
    omega
  · rw [length_unpack, hd]

/-- ReadResidual delivers everything left in the stream and stops at its end (R162). -/
theorem readResidual_spec {c : Channel} {m : Memory} (hc : c.Reading m) :
    ∃ c', readResidual m c = (c.toRead m, c') ∧ c'.leaves c m [] ∧ c'.cur = 0 ∧ c'.pos = m.fileLen c.fid := by
  suffices h : ∀ n (c : Channel), c.Reading m → (c.toRead m).length < n →
      ∃ c', getBits m n c = (c.toRead m, c') ∧ c'.leaves c m [] ∧ c'.cur = 0 ∧ c'.pos = m.fileLen c.fid by
    exact h _ c hc (Nat.lt_succ_of_le (length_toRead_le c m))
  intro n
  induction n with
  | zero => intro c _ h; omega
  | succ n ih =>
    intro c hc hn
    cases ht : c.toRead m with
    | nil =>
      obtain ⟨c', hg, hl, h0, hp⟩ := getBit_nil hc ht
      exact ⟨c', by simp [getBits, hg], hl, h0, hp⟩
    | cons b rest =>
      obtain ⟨c', hg, hl⟩ := getBit_cons hc ht
      have hlen : (c'.toRead m).length < n := by rw [hl.2.2]; simp [ht] at hn; omega
      obtain ⟨c'', hgs, hl', h0, hp⟩ := ih c' (hl.reading hc) hlen
      rw [hl.2.2] at hgs
      exact ⟨c'', by simp [getBits, hg, hgs], hl'.trans hl, h0, by rw [hp, hl.1.2.2.2]⟩

end Sys2Proof.Machine
end

