-- ==== Sys2Proof/Laws/Parse.lean ====
section
/-! SUPPORT. The dictionary parser on a channel is the parser of bit sequences on what the channel still delivers (R147, R182). -/
namespace Sys2Proof.Machine

/-- What a reader of a symbol does on a channel (R147): it takes the bits from the front of the stream. -/
theorem readSym_spec {m : Memory} (k : Nat) (sym : Byte) {c : Channel} (hc : c.Reading m) :
    (∃ v rest c', takeSym k sym (c.toRead m) = some (v, rest) ∧ readSym m k sym c = (some v, c') ∧ c'.leaves c m rest ∧
      rest <:+ c.toRead m) ∨
    (∃ c', takeSym k sym (c.toRead m) = none ∧ readSym m k sym c = (none, c') ∧ c'.leaves c m []) := by
  induction k generalizing sym c with
  | zero => exact .inl ⟨sym, _, c, rfl, rfl, Channel.leaves_refl hc.2.2, List.suffix_refl _⟩
  | succ k ih =>
    cases ht : c.toRead m with
    | nil =>
      obtain ⟨c', hg, hl, _⟩ := getBit_nil hc ht
      exact .inr ⟨c', rfl, by simp [readSym, hg], hl⟩
    | cons x rest =>
      obtain ⟨c', hg, hl⟩ := getBit_cons hc ht
      rcases ih (shiftIn sym x) (hl.reading hc) with ⟨v, r, c'', ht', hs, hl', hsuf⟩ | ⟨c'', ht', hs, hl'⟩
      · rw [hl.2.2] at ht' hsuf
        exact .inl ⟨v, r, c'', by simp [takeSym, ht'], by simp [readSym, hg, hs], hl'.trans hl,
          hsuf.trans (List.suffix_cons x rest)⟩
      · rw [hl.2.2] at ht'
        exact .inr ⟨c'', by simp [takeSym, ht'], by simp [readSym, hg, hs], hl'.trans hl⟩

/-- ParseTree on a channel (R147): with fuel above the bits left it parses exactly what the bit-sequence parser parses, and leaves the channel at the first
bit after it; where the bits hold no tree it fails, having read a part of the stream. -/
theorem parseTree_spec {m : Memory} (n : Nat) {c : Channel} (hc : c.Reading m) (seen : List Byte) (k : Nat)
    (hn : (c.toRead m).length < n) (hk : (c.toRead m).length < k) :
    (∃ t seen' rest c', parseBits k (c.toRead m) seen = some (t, seen', rest) ∧
      parseTree m n c seen = (some (t, seen'), c') ∧ c'.leaves c m rest ∧ rest <:+ c.toRead m ∧
      rest.length < (c.toRead m).length) ∨
    (parseBits k (c.toRead m) seen = none ∧ ∃ c' rest, parseTree m n c seen = (none, c') ∧ c'.leaves c m rest ∧
      rest <:+ c.toRead m) := by
  induction n generalizing c seen k with
  | zero => omega
  | succ n ih =>
    obtain ⟨k, rfl⟩ : ∃ k', k = k' + 1 := ⟨k - 1, by omega⟩
    cases ht : c.toRead m with
    | nil =>
      obtain ⟨c', hg, hl, _⟩ := getBit_nil hc ht
      exact .inr ⟨rfl, c', [], by simp [parseTree, hg], hl, List.suffix_refl _⟩
    | cons x tail =>
      obtain ⟨c₁, hg, hl⟩ := getBit_cons hc ht
      have hr₁ := hl.reading hc
      have hlen : tail.length + 1 = (c.toRead m).length := by simp [ht]
      cases x with
      | true =>
        rcases readSym_spec 8 0#8 hr₁ with ⟨v, rest, c₂, hts, hrs, hl₂, hsuf⟩ | ⟨c₂, hts, hrs, hl₂⟩
        · rw [hl.2.2] at hts hsuf
          by_cases hv : v ∈ seen
          · exact .inr ⟨by simp [parseBits, hts, hv], c₂, rest, by simp [parseTree, hg, hrs, hv], hl₂.trans hl,
              hsuf.trans (List.suffix_cons _ _)⟩
          · refine .inl ⟨.leaf v 0, v :: seen, rest, c₂, by simp [parseBits, hts, hv], by simp [parseTree, hg, hrs, hv],
              hl₂.trans hl, hsuf.trans (List.suffix_cons _ _), ?_⟩
            have := hsuf.length_le
            simp; omega
        · rw [hl.2.2] at hts
          exact .inr ⟨by simp [parseBits, hts], c₂, [], by simp [parseTree, hg, hrs], hl₂.trans hl, List.nil_suffix⟩
      | false =>
        have hn₁ : (c₁.toRead m).length < n := by rw [hl.2.2]; omega
        have hk₁ : (c₁.toRead m).length < k := by rw [hl.2.2]; omega
        rcases ih hr₁ seen k hn₁ hk₁ with ⟨l, seen₁, rest₁, c₂, hp, hq, hl₂, hsuf, hlt⟩ | ⟨hp, c₂, rest₁, hq, hl₂, hsuf⟩
        · rw [hl.2.2] at hp hsuf hlt
          have hr₂ := hl₂.reading hr₁
          have hn₂ : (c₂.toRead m).length < n := by rw [hl₂.2.2]; omega
          have hk₂ : (c₂.toRead m).length < k := by rw [hl₂.2.2]; omega
          rcases ih hr₂ seen₁ k hn₂ hk₂ with ⟨r, seen₂, rest₂, c₃, hp₂, hq₂, hl₃, hsuf₂, hlt₂⟩ | ⟨hp₂, c₃, rest₂, hq₂, hl₃, hsuf₂⟩
          · rw [hl₂.2.2] at hp₂ hsuf₂ hlt₂
            refine .inl ⟨.node l r 0, seen₂, rest₂, c₃, by simp [parseBits, hp, hp₂], by simp [parseTree, hg, hq, hq₂],
              (hl₃.trans hl₂).trans hl, (hsuf₂.trans hsuf).trans (List.suffix_cons _ _), ?_⟩
            simp; omega
          · rw [hl₂.2.2] at hp₂ hsuf₂
            exact .inr ⟨by simp [parseBits, hp, hp₂], c₃, rest₂, by simp [parseTree, hg, hq, hq₂],
              (hl₃.trans hl₂).trans hl, (hsuf₂.trans hsuf).trans (List.suffix_cons _ _)⟩
        · rw [hl.2.2] at hp hsuf
          exact .inr ⟨by simp [parseBits, hp], c₂, rest₁, by simp [parseTree, hg, hq], hl₂.trans hl,
            hsuf.trans (List.suffix_cons _ _)⟩

/-- A reader of a symbol leaves the channel that a read of that many bits leaves (R147). -/
theorem readSym_channel (m : Memory) (k : Nat) (sym : Byte) (c : Channel) : (readSym m k sym c).2 = (getBits m k c).2 := by
  induction k generalizing sym c with
  | zero => rfl
  | succ k ih => rcases hg : getBit m c with ⟨_ | x, c'⟩ <;> simp [readSym, getBits, hg, ih]

/-- The channel after ParseTree, in success or in failure (R147, R148): that after a read of the bits the parse asks for. -/
theorem parseTree_channel {m : Memory} (n : Nat) {c : Channel} (hc : c.Reading m) (seen : List Byte) (k : Nat)
    (hn : (c.toRead m).length < n) (hk : (c.toRead m).length < k) :
    (parseTree m n c seen).2 = (getBits m (parseReads k (c.toRead m) seen) c).2 := by
  induction n generalizing c seen k with
  | zero => omega
  | succ n ih =>
    obtain ⟨k, rfl⟩ : ∃ k', k = k' + 1 := ⟨k - 1, by omega⟩
    cases ht : c.toRead m with
    | nil =>
      obtain ⟨c', hg, _⟩ := getBit_nil hc ht
      simp [parseTree, parseReads, getBits, hg]
    | cons x tail =>
      obtain ⟨c₁, hg, hl⟩ := getBit_cons hc ht
      have hr₁ := hl.reading hc
      have hlen : tail.length + 1 = (c.toRead m).length := by simp [ht]
      have hone : (getBits m 1 c).2 = c₁ := by simp [getBits, hg]
      cases x with
      | true =>
        rw [parseReads, show 9 = 1 + 8 from rfl, getBits_add, hone, ← readSym_channel m 8 0#8]
        rcases hs : readSym m 8 0#8 c₁ with ⟨_ | v, c₂⟩
        · simp [parseTree, hg, hs]
        · by_cases hv : v ∈ seen <;> simp [parseTree, hg, hs, hv]
      | false =>
        have hn₁ : (c₁.toRead m).length < n := by rw [hl.2.2]; omega
        have hk₁ : (c₁.toRead m).length < k := by rw [hl.2.2]; omega
        have hch := ih hr₁ seen k hn₁ hk₁
        rw [parseReads, Nat.add_assoc, getBits_add, hone, getBits_add]
        rcases parseTree_spec n hr₁ seen k hn₁ hk₁ with
          ⟨l, seen₁, rest₁, c₂, hp, hq, hl₂, _, hlt⟩ | ⟨hp, c₂, rest₁, hq, _, _⟩ <;>
          rw [hq] at hch <;> rw [hl.2.2] at hp hch
        · rw [hl.2.2] at hlt
          have hn₂ : (c₂.toRead m).length < n := by rw [hl₂.2.2]; omega
          have hk₂ : (c₂.toRead m).length < k := by rw [hl₂.2.2]; omega
          have hch₂ := ih (hl₂.reading hr₁) seen₁ k hn₂ hk₂
          rw [hl₂.2.2] at hch₂
          rw [← hch, hp]
          simp only [← hch₂]
          rcases hs : parseTree m n c₂ seen₁ with ⟨_ | ⟨r, seen₂⟩, c₃⟩ <;> simp [parseTree, hg, hq, hs]
        · rw [← hch, hp]
          simp [parseTree, hg, hq, getBits]

/-- The channel after the dictionary has been parsed, in success or in failure (R148, R181). -/
theorem parseDictionary_channel {m : Memory} {c : Channel} (hc : c.Reading m) :
    (parseDictionary m c).2 = (getBits m (dictionaryReads (c.toRead m)) c).2 :=
  parseTree_channel _ hc [] _ (Nat.lt_succ_of_le (length_toRead_le c m)) (Nat.lt_succ_self _)

/-- The dictionary at the front of a channel's stream (R147, R148, R181): its tree and the channel at the first bit after it, or a failure that
has read a part of the stream. -/
theorem parseDictionary_spec {m : Memory} {c : Channel} (hc : c.Reading m) :
    (∃ t rest c', splitDictionary (c.toRead m) = some (t, rest) ∧ parseDictionary m c = (some t, c') ∧ c'.leaves c m rest) ∨
    (splitDictionary (c.toRead m) = none ∧ ∃ c' rest, parseDictionary m c = (none, c') ∧ c'.leaves c m rest ∧
      rest <:+ c.toRead m) := by
  have hn := Nat.lt_succ_of_le (length_toRead_le c m)
  rcases parseTree_spec (c.bitsLeft m + 1) hc [] ((c.toRead m).length + 1) hn (Nat.lt_succ_self _) with
    ⟨t, seen, rest, c', hp, hq, hl, _, _⟩ | ⟨hp, c', rest, hq, hl, hsuf⟩
  · exact .inl ⟨t, rest, c', by simp [splitDictionary, hp], by simp [parseDictionary, hq], hl⟩
  · exact .inr ⟨by simp [splitDictionary, hp], c', rest, by simp [parseDictionary, hq], hl, hsuf⟩

end Sys2Proof.Machine
end

