-- ==== Sys2Proof/Laws/PerInstr.lean ====
section
/-! SUPPORT. Statements about every command, one lemma per constructor. -/

/-- The word of a command falls in its row of the opcode map: masked, it is the row's match value (R71). -/
def Sys2Proof.Laws.EncodesItsRow.Statement (i : Sys2Proof.Instr) : Prop :=
  ∃ r ∈ Sys2Proof.opcodeMap, Sys2Proof.encode i &&& r.mask = r.pattern

namespace Sys2Proof.Laws

/-- A word with row number `k` masked to that row's match value. -/
theorem encodesItsRow_of {i : Instr} (k : Nat) (hk : k < opcodeMap.length)
    (h : encode i &&& opcodeMap[k].mask = opcodeMap[k].pattern) : EncodesItsRow.Statement i :=
  ⟨opcodeMap[k], List.getElem_mem hk, h⟩

/-- The count field has only its nine bits, so a mask that leaves them out does not see it. -/
theorem countBits_and (n : Nat) : countBits n &&& 0xFF0FFE00#32 = 0#32 := by
  apply BitVec.eq_of_getLsbD_eq
  intro i hi
  rw [BitVec.getLsbD_and, countBits, BitVec.getLsbD_setWidth]
  by_cases h : i < 9
  · have : (0xFF0FFE00#32).getLsbD i = false := by
      have : i = 0 ∨ i = 1 ∨ i = 2 ∨ i = 3 ∨ i = 4 ∨ i = 5 ∨ i = 6 ∨ i = 7 ∨ i = 8 := by omega
      rcases this with rfl | rfl | rfl | rfl | rfl | rfl | rfl | rfl | rfl <;> rfl
    simp [this]
  · have : (BitVec.ofNat 9 n).getLsbD i = false := BitVec.getLsbD_of_ge _ _ (by omega)
    simp [this]

theorem or_and_count (w : Word) (n : Nat) : (w ||| countBits n) &&& 0xFF0FFE00#32 = w &&& 0xFF0FFE00#32 := by
  have h := countBits_and n
  apply BitVec.eq_of_getLsbD_eq
  intro i _
  have hi := congrArg (fun v : Word => v.getLsbD i) h
  simp only [BitVec.getLsbD_and, BitVec.getLsbD_zero] at hi
  simp only [BitVec.getLsbD_and, BitVec.getLsbD_or, Bool.and_or_distrib_right, hi, Bool.or_false]

theorem EncodesItsRow.nop : EncodesItsRow.Statement .nop := encodesItsRow_of 0 (by decide) (by decide)
theorem EncodesItsRow.clrerr : EncodesItsRow.Statement .clrerr := encodesItsRow_of 1 (by decide) (by decide)
theorem EncodesItsRow.sreset : EncodesItsRow.Statement .sreset := encodesItsRow_of 2 (by decide) (by decide)
theorem EncodesItsRow.bsopen (ch : ChanId) (fa : FileId) (mode : ModeArg) (pad : Bool) :
    EncodesItsRow.Statement (.bsopen ch fa mode pad) :=
  encodesItsRow_of 3 (by decide) (by cases mode <;> revert ch fa pad <;> decide)
theorem EncodesItsRow.bsclose (ch : ChanId) : EncodesItsRow.Statement (.bsclose ch) :=
  encodesItsRow_of 4 (by decide) (by revert ch; decide)
theorem EncodesItsRow.rdbit (ch : ChanId) : EncodesItsRow.Statement (.rdbit ch) :=
  encodesItsRow_of 5 (by decide) (by revert ch; decide)
theorem EncodesItsRow.wrbit (ch : ChanId) (bit : Bool) : EncodesItsRow.Statement (.wrbit ch bit) :=
  encodesItsRow_of 6 (by decide) (by revert ch bit; decide)
theorem EncodesItsRow.rdbits (ch : ChanId) (n : Nat) : EncodesItsRow.Statement (.rdbits ch n) :=
  encodesItsRow_of 7 (by decide) ((or_and_count _ n).trans (by revert ch; decide))
theorem EncodesItsRow.wrbits (ch : ChanId) (n : Nat) : EncodesItsRow.Statement (.wrbits ch n) :=
  encodesItsRow_of 8 (by decide) ((or_and_count _ n).trans (by revert ch; decide))
theorem EncodesItsRow.fscan (fa : FileId) : EncodesItsRow.Statement (.fscan fa) :=
  encodesItsRow_of 9 (by decide) (by revert fa; decide)
theorem EncodesItsRow.tbuild : EncodesItsRow.Statement .tbuild := encodesItsRow_of 10 (by decide) (by decide)
theorem EncodesItsRow.cgen : EncodesItsRow.Statement .cgen := encodesItsRow_of 11 (by decide) (by decide)
theorem EncodesItsRow.tser (ch : ChanId) : EncodesItsRow.Statement (.tser ch) :=
  encodesItsRow_of 12 (by decide) (by revert ch; decide)
theorem EncodesItsRow.tdes (ch : ChanId) : EncodesItsRow.Statement (.tdes ch) :=
  encodesItsRow_of 13 (by decide) (by revert ch; decide)
theorem EncodesItsRow.penc (ch : ChanId) (fa : FileId) : EncodesItsRow.Statement (.penc ch fa) :=
  encodesItsRow_of 14 (by decide) (by revert ch fa; decide)
theorem EncodesItsRow.trail (ch : ChanId) : EncodesItsRow.Statement (.trail ch) :=
  encodesItsRow_of 15 (by decide) (by revert ch; decide)
theorem EncodesItsRow.pdec (ch : ChanId) (fb : FileId) : EncodesItsRow.Statement (.pdec ch fb) :=
  encodesItsRow_of 16 (by decide) (by revert ch fb; decide)
theorem EncodesItsRow.henc (fa fb : FileId) : EncodesItsRow.Statement (.henc fa fb) :=
  encodesItsRow_of 17 (by decide) (by revert fa fb; decide)
theorem EncodesItsRow.hdec (fa fb : FileId) : EncodesItsRow.Statement (.hdec fa fb) :=
  encodesItsRow_of 18 (by decide) (by revert fa fb; decide)

end Sys2Proof.Laws
end

