-- ==== Sys2Proof/Laws/Tables.lean ====
section
/-! SUPPORT. The laws of the tables: FREQ and its counting (R25, R120), the sort of the builder (R121), CODE (R28), and the bits of DBUF (R31, R53). -/
namespace Sys2Proof.Machine

/-! ### FREQ -/

@[simp] theorem FreqTable.get_zero (b : Byte) : FreqTable.zero.get b = 0 := by
  simp [FreqTable.get, FreqTable.zero]

@[simp] theorem FreqTable.get_bump_self (F : FreqTable) (v : Byte) : (F.bump v).get v = F.get v + 1 := by
  simp [FreqTable.get, FreqTable.bump]

@[simp] theorem FreqTable.get_bump_of_ne (F : FreqTable) {v b : Byte} (h : b ≠ v) : (F.bump v).get b = F.get b := by
  have : v.toNat ≠ b.toNat := fun e => h (BitVec.eq_of_toNat_eq e.symm)
  simp [FreqTable.get, FreqTable.bump, this]

theorem foldl_bump_get (data : List Byte) (F : FreqTable) (b : Byte) :
    (data.foldl FreqTable.bump F).get b = F.get b + data.count b := by
  induction data generalizing F with
  | nil => rfl
  | cons v rest ih =>
    rw [List.foldl_cons, ih]
    by_cases h : v = b
    · subst h; simp; omega
    · simp [FreqTable.get_bump_of_ne F (Ne.symm h), h]

/-- FSCAN's table counts each byte (R120). -/
@[simp] theorem countBytes_get (data : List Byte) (b : Byte) : (countBytes data).get b = data.count b := by
  simp [countBytes, foldl_bump_get]

/-- Two tables with the same counts are the same table. -/
theorem FreqTable.ext_get {F G : FreqTable} (h : ∀ b, F.get b = G.get b) : F = G := by
  apply Vector.ext
  intro i hi
  have := h (BitVec.ofNat 8 i)
  simpa [FreqTable.get, Nat.mod_eq_of_lt hi] using this

/-! ### The builder's list -/

theorem insertByWeight_perm (t : HTree) (L : List HTree) : (insertByWeight t L).Perm (t :: L) := by
  induction L with
  | nil => exact List.Perm.refl _
  | cons u rest ih =>
    unfold insertByWeight
    split
    · exact List.Perm.refl _
    · exact (ih.cons u).trans (List.Perm.swap t u rest)

/-- Sorting keeps the nodes (R121). -/
theorem sortByWeight_perm (L : List HTree) : (sortByWeight L).Perm L := by
  induction L with
  | nil => exact List.Perm.refl _
  | cons t rest ih => exact (insertByWeight_perm t _).trans (ih.cons t)

@[simp] theorem length_sortByWeight (L : List HTree) : (sortByWeight L).length = L.length := (sortByWeight_perm L).length_eq

theorem insertByWeight_sorted (t : HTree) (L : List HTree) (h : L.Pairwise fun a b => a.weight ≤ b.weight) :
    (insertByWeight t L).Pairwise fun a b => a.weight ≤ b.weight := by
  induction L with
  | nil => simp [insertByWeight]
  | cons u rest ih =>
    obtain ⟨hu, hr⟩ := List.pairwise_cons.1 h
    unfold insertByWeight
    split
    · rename_i htu
      refine List.pairwise_cons.2 ⟨fun a ha => ?_, h⟩
      rcases List.mem_cons.1 ha with rfl | ha
      · exact htu
      · exact Nat.le_trans htu (hu a ha)
    · rename_i htu
      refine List.pairwise_cons.2 ⟨fun a ha => ?_, ih hr⟩
      rcases List.mem_cons.1 ((insertByWeight_perm t rest).mem_iff.1 ha) with rfl | ha
      · omega
      · exact hu a ha

/-- Sorting orders the nodes by ascending weight (R121). -/
theorem sortByWeight_sorted (L : List HTree) : (sortByWeight L).Pairwise fun a b => a.weight ≤ b.weight := by
  induction L with
  | nil => exact List.Pairwise.nil
  | cons t rest ih => exact insertByWeight_sorted t _ ih

/-- The order of equal weights is kept (R121): among the nodes of one weight the sort changes nothing. -/
theorem sortByWeight_stable (L : List HTree) (k : Nat) :
    (sortByWeight L).filter (fun t => t.weight = k) = L.filter (fun t => t.weight = k) := by
  have hins : ∀ (t : HTree) (M : List HTree),
      (insertByWeight t M).filter (fun u => u.weight = k) = (t :: M).filter (fun u => u.weight = k) := by
    intro t M
    induction M with
    | nil => rfl
    | cons u rest ih =>
      unfold insertByWeight
      split
      · rfl
      · rename_i htu
        rw [List.filter_cons, ih]
        by_cases h1 : u.weight = k <;> by_cases h2 : t.weight = k <;> simp [h1, h2] <;> omega
  induction L with
  | nil => rfl
  | cons t rest ih => rw [sortByWeight, hins, List.filter_cons, ih, List.filter_cons]

/-! ### CODE -/

@[simp] theorem CodeTable.get_empty (b : Byte) : CodeTable.empty.get b = none := by
  simp [CodeTable.get, CodeTable.empty]

@[simp] theorem CodeTable.get_record_self (C : CodeTable) (b : Byte) (w : Bits) : (C.record b w).get b = some w := by
  simp [CodeTable.get, CodeTable.record]

@[simp] theorem CodeTable.get_record_of_ne (C : CodeTable) {a b : Byte} (w : Bits) (h : b ≠ a) :
    (C.record a w).get b = C.get b := by
  have : a.toNat ≠ b.toNat := fun e => h (BitVec.eq_of_toNat_eq e.symm)
  simp [CodeTable.get, CodeTable.record, this]

/-- Two code tables with the same entries are the same table. -/
theorem CodeTable.ext_get {C D : CodeTable} (h : ∀ b, C.get b = D.get b) : C = D := by
  apply Vector.ext
  intro i hi
  have := h (BitVec.ofNat 8 i)
  simpa [CodeTable.get, Nat.mod_eq_of_lt hi] using this

@[simp] theorem CodeTable.encodeBytes_nil (C : CodeTable) : C.encodeBytes [] = [] := rfl

@[simp] theorem CodeTable.encodeBytes_cons (C : CodeTable) (v : Byte) (X : List Byte) :
    C.encodeBytes (v :: X) = C.bitsOf v ++ C.encodeBytes X := rfl

/-- The walk leaves an entry alone that is no leaf of the tree (R135). -/
theorem walkCodes_get_of_notMem (t : HTree) (acc : Bits) (C : CodeTable) (b : Byte) (h : b ∉ t.syms) :
    (walkCodes t acc C).get b = C.get b := by
  induction t generalizing acc C with
  | leaf sym w => exact CodeTable.get_record_of_ne C acc (by simpa [HTree.syms] using h)
  | node l r w ihl ihr =>
    simp only [HTree.syms, List.mem_append, not_or] at h
    rw [walkCodes, ihr _ _ h.2, ihl _ _ h.1]

/-! ### DBUF -/

@[simp] theorem DataBuffer.bit_zero (i : Nat) : DataBuffer.zero.bit i = false := by
  unfold DataBuffer.bit
  by_cases h : i / 8 < 32 <;> simp [DataBuffer.zero, h]

/-- Bit `m` is or-ed in and no other bit changes (R107). -/
theorem DataBuffer.bit_orBit (d : DataBuffer) {m : Nat} (hm : m < 256) (r : Bool) (i : Nat) :
    (d.orBit m r).bit i = (d.bit i || (decide (i = m) && r)) := by
  have hm' : m / 8 < 32 := by omega
  unfold DataBuffer.orBit DataBuffer.bit
  rw [dif_pos hm']
  by_cases hi : i / 8 = m / 8
  · have hlt : i / 8 < 32 := by omega
    have e : (d.set (m / 8) (d[m / 8] ||| (bitByte r <<< (m % 8))))[i / 8]? = some (d[m / 8] ||| (bitByte r <<< (m % 8))) := by
      rw [Vector.getElem?_eq_getElem hlt, Vector.getElem_set]
      simp [hi]
    have e' : d[i / 8]? = some d[m / 8] := by
      rw [Vector.getElem?_eq_getElem hlt]
      simp [hi]
    rw [e, e', Option.getD_some, Option.getD_some, BitVec.getLsbD_or]
    congr 1
    have him : (i = m) ↔ i % 8 = m % 8 := by omega
    have h8 : i % 8 < 8 := Nat.mod_lt _ (by decide)
    cases r
    · simp [bitByte]
    · simp only [bitByte, if_true, BitVec.getLsbD_shiftLeft, h8, decide_true, Bool.true_and, Bool.and_true, him]
      by_cases hlt' : i % 8 < m % 8
      · simp [hlt', Nat.ne_of_lt hlt']
      · have : (1#8).getLsbD (i % 8 - m % 8) = decide (i % 8 - m % 8 = 0) := by
          simp [BitVec.getLsbD_one]
        rw [this]
        simp only [hlt', decide_false, Bool.not_false, Bool.true_and, decide_eq_decide]
        omega
  · have e : (d.set (m / 8) (d[m / 8] ||| (bitByte r <<< (m % 8))))[i / 8]? = d[i / 8]? := by
      rw [Vector.getElem?_set]
      simp [Ne.symm hi]
    have hne : i ≠ m := fun h => hi (by rw [h])
    rw [e]
    simp [hne]

/-- The bits of a transfer land at their own indexes (R53, R107). -/
theorem DataBuffer.bit_fill (d : DataBuffer) (m : Nat) (bits : Bits) (h : m + bits.length ≤ 256) (i : Nat) :
    (d.fill m bits).bit i = (d.bit i || (if m ≤ i then (bits[i - m]?).getD false else false)) := by
  induction bits generalizing d m with
  | nil => simp [DataBuffer.fill]
  | cons r rest ih =>
    simp only [List.length_cons] at h
    rw [DataBuffer.fill, ih _ _ (by omega), DataBuffer.bit_orBit d (by omega)]
    by_cases h1 : i = m
    · subst h1; simp
    · by_cases h2 : m + 1 ≤ i
      · have h3 : m ≤ i := by omega
        obtain ⟨k, rfl⟩ : ∃ k, i = m + 1 + k := ⟨i - (m + 1), by omega⟩
        have e : m + 1 + k - m = k + 1 := by omega
        simp [h1, h2, h3, e]
      · have h3 : ¬ m ≤ i := by omega
        simp [h1, h2, h3]

end Sys2Proof.Machine
end

