-- ==== Sys2Proof/Machine/Asm.lean ====
section
/-! DEFINITION. The assembler spelling of a command (R76). -/
namespace Sys2Proof.Machine

/-- A channel operand, `c0` or `c1` (R76). -/
def asmCh (ch : ChanId) : String := "c" ++ toString ch.val

/-- A file operand, `f0` to `f15` (R76). -/
def asmFile (f : FileId) : String := "f" ++ toString f.val

/-- A mode operand (R76). -/
def asmMode : ModeArg → String
  | .rd => "RD"
  | .wr => "WR"
  | .m2 => "M2"
  | .m3 => "M3"

/-- A pad operand (R76). -/
def asmPad (p : Bool) : String := if p then "PAD" else "NOPAD"

/-- `MNEMONIC operand, operand, ...` (R76). -/
def asm : Instr → String
  | .nop => "NOP"
  | .clrerr => "CLRERR"
  | .sreset => "SRESET"
  | .bsopen ch fa mode pad => "BSOPEN " ++ asmCh ch ++ ", " ++ asmFile fa ++ ", " ++ asmMode mode ++ ", " ++ asmPad pad
  | .bsclose ch => "BSCLOSE " ++ asmCh ch
  | .rdbit ch => "RDBIT " ++ asmCh ch
  | .wrbit ch b => "WRBIT " ++ asmCh ch ++ ", " ++ (if b then "1" else "0")
  | .rdbits ch n => "RDBITS " ++ asmCh ch ++ ", " ++ toString n
  | .wrbits ch n => "WRBITS " ++ asmCh ch ++ ", " ++ toString n
  | .fscan fa => "FSCAN " ++ asmFile fa
  | .tbuild => "TBUILD"
  | .cgen => "CGEN"
  | .tser ch => "TSER " ++ asmCh ch
  | .tdes ch => "TDES " ++ asmCh ch
  | .penc ch fa => "PENC " ++ asmCh ch ++ ", " ++ asmFile fa
  | .trail ch => "TRAIL " ++ asmCh ch
  | .pdec ch fb => "PDEC " ++ asmCh ch ++ ", " ++ asmFile fb
  | .henc fa fb => "HENC " ++ asmFile fa ++ ", " ++ asmFile fb
  | .hdec fa fb => "HDEC " ++ asmFile fa ++ ", " ++ asmFile fb

end Sys2Proof.Machine
end

