-- ==== Sys2Proof/Tests/Slice0.lean ====
section
/-! SUPPORT. Tests of the model: words written out from the encodings of R70 and R71, values from the spec's worked examples and vectors
(95_test_vectors.md), the ill-formed terms the checks refuse, and a witness for the hypotheses of every statement. -/
namespace Sys2Proof.Tests

open Sys2Proof Sys2Proof.Machine

/-! ### Helpers -/

/-- A state after reset with files placed by the host. -/
def boot (fs : List (FileId × List Byte)) : State :=
  { State.reset with files := fs.foldl (fun m p => m.setFile p.1 { present := true, data := p.2 }) State.reset.files }

/-- The state after commands that complete (`s` itself otherwise). -/
def after (is : List Instr) (s : State) : State :=
  match execAll is s with
  | .next t => t
  | _ => s

/-- Whether an answer is a next state. -/
def goesOn : Answer → Bool
  | .next _ => true
  | _ => false

/-- `abracadabra`, the source's example (S12). -/
def abra : List Byte := [0x61#8, 0x62#8, 0x72#8, 0x61#8, 0x63#8, 0x61#8, 0x64#8, 0x61#8, 0x62#8, 0x72#8, 0x61#8]

/-- Its message (T60). -/
def abraMsg : List Byte := [0x58#8, 0x4B#8, 0x1D#8, 0x91#8, 0x62#8, 0xB9#8, 0x37#8, 0x45#8, 0x6E#8, 0x80#8]

/-- Channel 0 open for WR with padding on file 1. -/
def writing : State := after [.bsopen 0 1 .wr true] State.reset

/-- Channel 0 open for WR without padding on file 1. -/
def writingPlain : State := after [.bsopen 0 1 .wr false] (boot [(0, [0x61#8, 0x62#8])])

/-- Channel 0 open for RD with padding on file 1, which holds B0 (T18). -/
def reading : State := after [.bsopen 0 1 .rd true] (boot [(1, [0xB0#8])])

/-- Channel 1 open for RD without padding on the message of T42. -/
def decoding : State := after [.bsopen 1 1 .rd false] (boot [(1, abraMsg)])

/-! ### Well-formedness and decoding -/

theorem test_wellFormed_count : (Instr.rdbits 0 256).wellFormed = true ∧ (Instr.rdbits 0 257).wellFormed = false := by decide
theorem test_wellFormed_count_wr : (Instr.wrbits 1 0).wellFormed = true ∧ (Instr.wrbits 1 300).wellFormed = false := by decide

/-- Every constructor from a word written out field by field (R70, R71). -/
theorem test_decode_system :
    decode 0b00000000000000000000000000000000#32 = .instr .nop ∧
    decode 0b00000001000000000000000000000000#32 = .instr .clrerr ∧
    decode 0b00000010000000000000000000000000#32 = .instr .sreset := by decide

theorem test_decode_bitstream :
    decode 0b00010000000101010000011000000000#32 = .instr (.bsopen 1 5 .wr true) ∧
    decode 0b00010000000001010000100000000000#32 = .instr (.bsopen 0 5 .m2 false) ∧
    decode 0b00010000000001010000110000000000#32 = .instr (.bsopen 0 5 .m3 false) ∧
    decode 0b00010001000100000000000000000000#32 = .instr (.bsclose 1) ∧
    decode 0b00010010000100000000000000000000#32 = .instr (.rdbit 1) ∧
    decode 0b00010011000100000000000000000001#32 = .instr (.wrbit 1 true) ∧
    decode 0b00010100000100000000000010000001#32 = .instr (.rdbits 1 129) ∧
    decode 0b00010101000100000000000100000000#32 = .instr (.wrbits 1 256) := by decide

theorem test_decode_tables :
    decode 0b00100000000010010000000000000000#32 = .instr (.fscan 9) ∧
    decode 0b00100001000000000000000000000000#32 = .instr .tbuild ∧
    decode 0b00100010000000000000000000000000#32 = .instr .cgen ∧
    decode 0b00100011000100000000000000000000#32 = .instr (.tser 1) ∧
    decode 0b00100100000100000000000000000000#32 = .instr (.tdes 1) := by decide

theorem test_decode_payload_pipelines :
    decode 0b00110000000100100000000000000000#32 = .instr (.penc 1 2) ∧
    decode 0b00110001000100000000000000000000#32 = .instr (.trail 1) ∧
    decode 0b00110010000100001100000000000000#32 = .instr (.pdec 1 12) ∧
    decode 0b01000000000000110111000000000000#32 = .instr (.henc 3 7) ∧
    decode 0b01000001000001110011000000000000#32 = .instr (.hdec 7 3) := by decide

/-- T83 to T89: illegal words, each by its reason. -/
theorem test_decode_illegal :
    decode 0x50000000#32 = .illegal .noRow ∧ decode 0x00000001#32 = .illegal .noRow ∧
    decode 0x11000200#32 = .illegal .noRow ∧ decode 0x13000002#32 = .illegal .noRow ∧
    decode 0x41002001#32 = .illegal .noRow ∧ decode 0x10210000#32 = .illegal .channelOutOfRange ∧
    decode 0x14000101#32 = .illegal .countOutOfRange ∧ decode 0xFF000000#32 = .illegal .noRow := by decide

/-- R76: the assembler spelling. -/
theorem test_asm : asm (.bsopen 0 1 .wr true) = "BSOPEN c0, f1, WR, PAD" ∧ asm (.rdbits 1 12) = "RDBITS c1, 12" := by decide

theorem test_decodeTableWord : decodeTableWord 32 0x40001000 = some (.henc 0 1) ∧ decodeTableWord 32 0x03000000 = none := by decide

/-- A placed word is the next step's command: NOP completes, an illegal word is CmdError. -/
theorem test_withFetchWord :
    ∃ t u, step (State.reset.withFetchWord 32 0) = .next t ∧ t.status = 0x000#32 ∧
      step (State.reset.withFetchWord 32 0x50000000) = .next u ∧ u.status = 0x404#32 := ⟨_, _, rfl, rfl, rfl, rfl⟩

/-- The run of an empty program is over at once (R11). -/
theorem test_run_ended : step State.reset = .fault .runEnded := rfl

/-! ### System commands (T80, T81, T82) -/

theorem test_nop : (after [.nop] { State.reset with status := 0x102#32 }).status = 0x100#32 := by decide
theorem test_clrerr : (after [.clrerr] { State.reset with status := 0x504#32 }).status = 0x000#32 := by decide
theorem test_sreset : (after [.wrbit 0 true, .sreset] writing).chan 0 = Channel.closed ∧
    (after [.wrbit 0 true, .sreset] writing).files.file 1 = { present := true, data := [] } := by decide

/-! ### BitStream (T8, T11, T12, T18, T24, T26, T27, T29) -/

theorem test_bsopen_wr : writing.chan 0 = ⟨true, .wr, true, 0x00#8, 8, 1, 0⟩ := by decide
theorem test_bsopen_bad_mode : (after [.bsopen 0 1 .m2 false] State.reset).status = 0x102#32 := by decide
theorem test_bsclose_pad : (after [.wrbit 0 true, .wrbit 0 false, .wrbit 0 true, .bsclose 0] writing).files.data 1 = [0xB0#8] := by
  decide
theorem test_bsclose_twice : (after [.bsclose 0, .bsclose 0] writing).status = 0x102#32 := by decide
theorem test_rdbit : (after [.rdbit 0] reading).res = 1#32 ∧ (after [.rdbit 0] reading).chan 0 = ⟨true, .rd, true, 0x05#8, 2, 1, 1⟩ := by
  decide
theorem test_rdbit_eos : (after [.rdbit 0, .rdbit 0, .rdbit 0, .rdbit 0] reading).status = 0x001#32 := by decide
theorem test_wrbit : (after [.wrbit 0 true] writing).chan 0 = ⟨true, .wr, true, 0x80#8, 7, 1, 0⟩ := by decide
theorem test_rdbits :
    (after [.rdbits 1 12] (after [.bsopen 1 1 .rd false] (boot [(1, [0xC4#8, 0xF0#8])]))).res = 12#32 ∧
    (after [.rdbits 1 12] (after [.bsopen 1 1 .rd false] (boot [(1, [0xC4#8, 0xF0#8])]))).dbuf[0] = 0x23#8 := by decide
theorem test_rdbits_short :
    (after [.rdbits 1 12, .rdbits 1 20] (after [.bsopen 1 1 .rd false] (boot [(1, [0xC4#8, 0xF0#8])]))).res = 4#32 := by decide
theorem test_wrbits :
    (after [.wrbits 0 8] { writingPlain with dbuf := writingPlain.dbuf.set 0 0x0D#8 }).files.data 1 = [0xB0#8] := by decide
theorem test_wrbits_low_bit_first :
    (after [.wrbits 0 4] { writing with dbuf := writing.dbuf.set 0 0x0D#8 }).chan 0 = ⟨true, .wr, true, 0xB0#8, 4, 1, 0⟩ := by decide

/-! ### Tables (T30 to T38) -/

set_option maxRecDepth 20000 in
theorem test_fscan : (after [.fscan 0] (boot [(0, abra)])).freq.get 0x61#8 = 5 ∧
    (after [.fscan 0] (boot [(0, abra)])).freq.get 0x72#8 = 2 := by decide
theorem test_fscan_absent : (after [.fscan 0] State.reset).status = 0x102#32 := by decide
set_option maxRecDepth 20000 in
theorem test_tbuild : (after [.fscan 0, .tbuild] (boot [(0, [0x61#8, 0x62#8, 0x63#8, 0x63#8])])).tree =
    some (.node (.leaf 0x63#8 2) (.node (.leaf 0x61#8 1) (.leaf 0x62#8 1) 2) 4) := by decide
theorem test_cgen :
    (after [.cgen] { State.reset with
      tree := some (.node (.leaf 0x63#8 2) (.node (.leaf 0x61#8 1) (.leaf 0x62#8 1) 2) 4) }).code.get 0x62#8 = some [true, true] := by
  decide
theorem test_cgen_degenerate : (after [.cgen] { State.reset with tree := some (.leaf 0x78#8 3) }).code.get 0x78#8 = some [false] := by
  decide

/-! ### TreeCodec (T41, T42, T43 to T45a) -/

theorem test_tser : (after [.tser 0] { writingPlain with tree := some (.leaf 0x78#8 3) }).files.data 1 = [0xBC#8] := by decide
theorem test_tdes : (after [.tdes 1] decoding).tree =
    some (.node (.leaf 0x61#8 0) (.node (.node (.leaf 0x63#8 0) (.leaf 0x64#8 0) 0) (.node (.leaf 0x62#8 0) (.leaf 0x72#8 0) 0) 0) 0) ∧
    (after [.tdes 1] decoding).chan 1 = ⟨true, .rd, false, 0x37#8, 7, 1, 7⟩ := by decide
theorem test_tdes_duplicate :
    (after [.bsopen 1 1 .rd false, .tdes 1] (boot [(1, [0x5E#8, 0x2F#8, 0x08#8])])).status = 0x203#32 ∧
    (after [.bsopen 1 1 .rd false, .tdes 1] (boot [(1, [0x5E#8, 0x2F#8, 0x08#8])])).chan 1 = ⟨true, .rd, false, 0x08#8, 5, 1, 3⟩ := by
  decide
/-- The bits a failing parse asks for: T44 stops after 19 bits, T43 and T45a at the end of the stream, T45 at the first tag. -/
theorem test_dictionaryReads :
    dictionaryReads (unpack [0x5E#8, 0x2F#8, 0x08#8]) = 19 ∧ (unpack [0x58#8, 0x4B#8, 0x1D#8]).length ≤
      dictionaryReads (unpack [0x58#8, 0x4B#8, 0x1D#8]) ∧ 8 ≤ dictionaryReads (unpack [0xBC#8]) ∧ dictionaryReads [] = 1 := by decide

/-! ### Payload (T53, T54, T55, T56) -/

theorem test_penc_missing_code : (after [.penc 0 0] writingPlain).status = 0x404#32 := by decide
theorem test_penc : (after [.penc 0 0] { writingPlain with
    code := (CodeTable.empty.record 0x61#8 [true, false, true, true]).record 0x62#8 [false, true] }).chan 0 =
      ⟨true, .wr, false, 0xB4#8, 2, 1, 0⟩ := by decide
theorem test_trail : (after [.wrbit 0 true, .trail 0] writingPlain).files.data 1 = [0xC0#8] := by decide
theorem test_pdec : (after [.tdes 1, .pdec 1 2] decoding).files.data 2 = abra := by decide
theorem test_pdec_mid_code :
    (after [.tdes 1, .pdec 1 2] (after [.bsopen 1 1 .rd false] (boot [(1, [0x58#8, 0xD6#8, 0x1B#8, 0x15#8, 0x60#8])]))).files.data 2 =
      [0x61#8, 0x61#8] := by decide

/-! ### Pipelines (T62, T63a, T75, T79) -/

set_option maxRecDepth 20000 in
theorem test_henc : (after [.henc 0 1] (boot [(0, [0x78#8, 0x78#8, 0x78#8])])).files.data 1 = [0xBC#8, 0x08#8] := by decide
set_option maxRecDepth 20000 in
theorem test_henc_empty : (after [.henc 0 1] (boot [(0, [])])).files.data 1 = [0x80#8] := by decide
theorem test_hdec : (after [.hdec 1 2] (boot [(1, abraMsg)])).files.data 2 = abra := by decide
theorem test_hdec_bad_payload : (after [.hdec 1 2] (boot [(1, [0xBC#8, 0x28#8])])).files.data 2 = [0x78#8] ∧
    (after [.hdec 1 2] (boot [(1, [0xBC#8, 0x28#8])])).status = 0x203#32 := by decide

/-! ### Witnesses: for each statement with hypotheses, a state and operands that meet them, clause by clause -/

theorem witness_DecodeEncodeIsIdentity : (Instr.rdbits 1 256).wellFormed = true := by decide

theorem witness_LegalWordsAreEncodings : decode 0x14000100#32 = .instr (.rdbits 0 256) := by decide

theorem witness_OpcodeRowsAreDisjoint : ∃ r q, opcodeMap[(3 : Fin 19).val]? = some r ∧ opcodeMap[(3 : Fin 19).val]? = some q ∧
    0x10010600#32 &&& r.mask = r.pattern ∧ 0x10010600#32 &&& q.mask = q.pattern := ⟨_, _, rfl, rfl, by decide, by decide⟩

theorem witness_IllegalWordsEndInCmdError :
    (∀ r ∈ opcodeMap, (0x03000000#32).extractLsb' 24 8 ≠ r.pattern.extractLsb' 24 8) ∧
    (∃ r ∈ opcodeMap, (0x11000200#32).extractLsb' 24 8 = r.pattern.extractLsb' 24 8 ∧ 0x11000200#32 &&& r.mask ≠ r.pattern) ∧
    (((0x10210000#32).extractLsb' 24 8).toNat ∈ [0x10, 0x11, 0x12, 0x13, 0x14, 0x15, 0x23, 0x24, 0x30, 0x31, 0x32] ∧
      2 ≤ ((0x10210000#32).extractLsb' 20 4).toNat) ∧
    (((0x15000101#32).extractLsb' 24 8).toNat ∈ [0x14, 0x15] ∧ 257 ≤ ((0x15000101#32).extractLsb' 0 9).toNat) ∧
    decode 0x03000000#32 = .illegal .noRow := by decide

/-- A run of one NOP, one illegal word, and none. -/
theorem witness_StepRunsTheDecodedCommand :
    ({ State.reset with program := [0#32] }.dueMove = none ∧ ({ State.reset with program := [0#32] } : State).program[0]? = some 0#32 ∧
      decode 0#32 = .instr .nop) ∧
    ({ State.reset with program := [1#32] }.dueMove = none ∧ ({ State.reset with program := [1#32] } : State).program[0]? = some 1#32 ∧
      decode 1#32 = .illegal .noRow) ∧
    (State.reset.dueMove = none ∧ State.reset.program.length ≤ State.reset.pc) := by decide

theorem witness_HostMovesAct :
    0 ≤ State.reset.pc ∧
    (({ State.reset with hostMoves := [(0, .putFile 1 [0xB0#8])] } : State).hostMoves = (0, .putFile 1 [0xB0#8]) :: [] ∧
      State.reset.bound 1 = false) ∧
    (({ State.reset with hostMoves := [(0, .removeFile 1)] } : State).hostMoves = (0, .removeFile 1) :: []) ∧
    (({ writing with hostMoves := [(0, .removeFile 1)] } : State).hostMoves = (0, .removeFile 1) :: [] ∧
      writing.bound 1 = true ∧ 0 ≤ writing.pc) ∧
    (({ State.reset with hostMoves := [(0, .writeReg (32 + (31 : Fin 32).val) 0x10D#32)] } : State).hostMoves =
      (0, .writeReg (32 + (31 : Fin 32).val) 0x10D#32) :: []) ∧
    (({ State.reset with hostMoves := [(0, .writeReg 64 1#32)] } : State).hostMoves = (0, .writeReg 64 1#32) :: [] ∧ 1 ≤ 64) ∧
    (({ State.reset with hostMoves := [(0, .writeReg 1 1#32)] } : State).hostMoves = (0, .writeReg 1 1#32) :: [] ∧ 1 < 32) ∧
    (({ State.reset with hostMoves := [(0, .writeReg 0 0#32)] } : State).hostMoves = (0, .writeReg 0 0#32) :: [] ∧
      decode 0#32 = .instr .nop) ∧
    (({ State.reset with hostMoves := [(0, .writeReg 0 0x50000000#32)] } : State).hostMoves =
      (0, .writeReg 0 0x50000000#32) :: [] ∧ decode 0x50000000#32 = .illegal .noRow) := by decide

theorem witness_RegisterMap : (3 ≤ 3 ∧ 3 ≤ 31) ∧ (3 ≤ 64 ∧ 64 ≤ 64) ∧ (1 ≤ 1 ∧ 1 ≤ 31) ∧ (3 ≤ 31 ∧ 31 ≤ 31) ∧
    (0 : Fin 32) ≠ 31 := by decide

theorem witness_PlacedWordRunsNext : decode 0x41012000#32 = .instr (.hdec 1 2) := by decide

/-- A completing command, for the statements about every command that completes. -/
theorem witness_completes : exec (.rdbit 0) State.reset = .next (State.reset.complete .fileError) ∧
    statusCode (State.reset.complete .fileError).status = 2 ∧ (Instr.rdbit 0).wellFormed = true ∧ Instr.rdbit 0 ≠ .clrerr ∧
    Instr.rdbit 0 ≠ .sreset := ⟨rfl, by decide, by decide, by decide, by decide⟩

/-- EOS, FormatError and CmdError each occur (R212 to R214). -/
theorem witness_OutcomesByCommand :
    statusCode (after [.rdbit 0, .rdbit 0, .rdbit 0, .rdbit 0] reading).status = 1 ∧
    goesOn (exec (.rdbit 0) (after [.rdbit 0, .rdbit 0, .rdbit 0] reading)) = true ∧
    statusCode (after [.hdec 1 2] (boot [(1, [])])).status = 3 ∧ goesOn (exec (.hdec 1 2) (boot [(1, [])])) = true ∧
    statusCode (after [.pdec 1 2] decoding).status = 4 ∧ goesOn (exec (.pdec 1 2) decoding) = true ∧
    goesOn (exec .nop State.reset) = true := by decide

/-- FileError and CmdError states, with and without a release of the tables (R216). -/
theorem witness_FileAndCmdErrorsChangeOnlyStatus :
    exec (.henc 0 0) State.reset = .next (State.reset.release.complete .fileError) ∧
    statusCode (State.reset.release.complete .fileError).status = 2 ∧
    exec (.penc 0 0) writingPlain = .next (writingPlain.complete .cmdError) ∧
    statusCode (writingPlain.complete .cmdError).status = 4 := ⟨rfl, by decide, rfl, by decide⟩

theorem witness_StatusNeverSteersACommand : exec .tbuild { State.reset with status := 0x702#32 } =
    .next (({ State.reset with status := 0x702#32 }.setTree (build FreqTable.zero)).complete .ok) := rfl

/-- A readable file of any length exists beside a channel open for WR and a free file. -/
theorem exists_long_file (n : Nat) : ∃ s : State, s.readable 0 = true ∧ n ≤ s.files.fileLen 0 ∧ s.openFor .wr 0 = true ∧
    s.writable 2 = true :=
  ⟨{ writing with files := writing.files.setFile 0 { present := true, data := List.replicate n 0#8 } },
    by
      change (_ && !writing.writeBound 0) = true
      rw [show writing.writeBound 0 = false by decide]
      simp [Memory.fileExists, Memory.file, Memory.setFile],
    by simp [Memory.fileLen, Memory.data, Memory.file, Memory.setFile],
    show writing.openFor .wr 0 = true by decide, show writing.writable 2 = true by decide⟩

/-- Short files, and a readable file of 2^32 bytes (a state of that size exists, it is not written out). -/
theorem witness_EveryCommandCompletes : (∀ f, State.reset.files.fileLen f < 4294967296) ∧
    ∃ s : State, s.readable 0 = true ∧ 4294967296 ≤ s.files.fileLen 0 ∧ s.openFor .wr 0 = true ∧ s.writable 2 = true :=
  ⟨by decide, exists_long_file _⟩

theorem witness_TablesAndRegistersFrame : goesOn (exec (.wrbit 0 true) writing) = true ∧ writesFreq (.wrbit 0 true) = false ∧
    writesTree (.wrbit 0 true) = false ∧ writesCode (.wrbit 0 true) = false ∧ writesRes (.wrbit 0 true) = false ∧
    writesDbuf (.wrbit 0 true) = false := by decide

theorem witness_ChannelsFrame : goesOn (exec (.wrbit 0 true) writing) = true ∧ Instr.wrbit 0 true ≠ .sreset ∧
    channelOf (.wrbit 0 true) ≠ some 1 ∧ Instr.wrbit 0 true ≠ .bsclose 0 := by decide

theorem witness_FileStoreFrame : goesOn (exec (.bsclose 0) writing) = true ∧ storesTo writing (.bsclose 0) ≠ some 2 ∧
    appendsOnly (.bsclose 0) = true ∧ 0 < reading.files.fileLen 1 ∧ goesOn (exec (.bsclose 0) reading) = true := by decide

set_option synthInstance.maxSize 1000 in
/-- A reachable state that meets the stream and register invariants and steps. -/
theorem witness_StepKeepsStreamInvariants : (writing.placeWord 0x13000001#32).StreamsOk ∧
    goesOn (step (writing.placeWord 0x13000001#32)) = true := by decide

theorem witness_StepKeepsRegisterInvariants : (State.reset.placeWord 0x13000001#32).RegistersOk ∧
    goesOn (step (State.reset.placeWord 0x13000001#32)) = true := by decide

theorem witness_StepKeepsTableInvariants : (State.reset.placeWord 0x22000000#32).TablesOk ∧
    step (State.reset.placeWord 0x22000000#32) =
      .next (((State.reset.placeWord 0x22000000#32).setCode (codes none)).complete .ok) := by
  refine ⟨⟨fun b => ?_, fun t h => absurd (show none = some t from h) (by simp), fun b w h => ?_, fun a b v w h => ?_⟩, rfl⟩
  · exact lt_of_eq_of_lt (FreqTable.get_zero b) (by decide)
  · exact absurd ((CodeTable.get_empty b).symm.trans h) (by simp)
  · exact absurd ((CodeTable.get_empty a).symm.trans h) (by simp)

theorem witness_NopOnlyCompletes : (0x00000001#32).extractLsb' 24 8 = 0x00#8 ∧ 0x00000001#32 ≠ 0#32 := by decide

theorem witness_FilePrimitives : (0 : Nat) < (reading.files.file 1).data.length ∧ (reading.files.file 1).data.length ≤ 1 ∧
    (2 : FileId) ≠ 1 := by decide

theorem witness_BsopenOpensOrFails : (writing.chan 0).isOpen = true ∧ (State.reset.chan 0).isOpen = false ∧
    State.reset.readable 1 = false ∧ ((boot [(1, [0xB0#8])]).chan 0).isOpen = false ∧ (boot [(1, [0xB0#8])]).readable 1 = true ∧
    ((writing.chan 1).isOpen = false ∧ writing.writable 1 = false) ∧ State.reset.writable 1 = true := by decide

theorem witness_BscloseFlushesAndReleases : (State.reset.chan 0).isOpen = false ∧
    ((reading.chan 0).isOpen = true ∧ (reading.chan 0).mode = .rd) ∧
    ((writing.chan 0).isOpen = true ∧ (writing.chan 0).mode = .wr ∧ (writing.chan 0).pad = true) ∧
    ((writingPlain.chan 0).isOpen = true ∧ (writingPlain.chan 0).mode = .wr ∧ (writingPlain.chan 0).pad = false ∧
      (writingPlain.chan 0).cur = 8) ∧
    ((after [.wrbit 0 true] writingPlain).chan 0).cur < 8 ∧ ((after [.wrbit 0 true] writingPlain).chan 0).pad = false ∧
    ((after [.wrbit 0 true] writingPlain).chan 0).isOpen = true ∧ ((after [.wrbit 0 true] writingPlain).chan 0).mode = .wr := by decide

/-- A buffered bit, an exhausted file, a plain byte, and the three kinds of last byte of a padded stream. -/
theorem witness_GetBitFollowsTheLoader :
    ((after [.rdbit 0] reading).chan 0).cur ≠ 0 ∧
    ((Channel.openRd true 1).cur = 0 ∧ (Channel.openRd true 1).pos = (boot [(1, [])]).files.fileLen 1) ∧
    ((decoding.chan 1).cur = 0 ∧ decoding.files.read? 1 0 = some 0x58#8 ∧ (decoding.chan 1).pad = false) ∧
    ((boot [(1, [0x00#8])]).files.read? 1 0 = some 0#8 ∧ 0 + 1 = (boot [(1, [0x00#8])]).files.fileLen 1) ∧
    ((boot [(1, [0x80#8])]).files.read? 1 0 = some 0x80#8 ∧ 0 + 1 = (boot [(1, [0x80#8])]).files.fileLen 1 ∧
      (0x80#8).getLsbD 7 = true ∧ ∀ q, q < 7 → (0x80#8).getLsbD q = false) ∧
    ((boot [(1, [0xC0#8])]).files.read? 1 0 = some 0xC0#8 ∧ 0 + 1 = (boot [(1, [0xC0#8])]).files.fileLen 1 ∧
      (0xC0#8).getLsbD 6 = true ∧ ∀ q, q < 6 → (0xC0#8).getLsbD q = false) ∧
    getBit (boot [(1, [])]).files (Channel.openRd true 1) = (none, Channel.openRd true 1) := by decide

theorem witness_PutBitPlacesAndFlushes : (1 ≤ (writing.chan 0).cur ∧ (writing.chan 0).cur ≤ 8 ∧ (writing.chan 0).cur ≠ 1) ∧
    (after [.wrbits 0 7] writing).chan 0 = ⟨true, .wr, true, 0#8, 1, 1, 0⟩ := by decide

set_option synthInstance.maxSize 1000 in
/-- Open RD and WR channels that meet their invariant: one bit left and more, none left, and a closed one. -/
theorem witness_RdbitDeliversTheNextBit : State.reset.openFor .rd 0 = false ∧
    (reading.openFor .rd 0 = true ∧ (reading.chan 0).Ok reading.files ∧
      (reading.chan 0).toRead reading.files = true :: [false, true]) ∧
    ((after [.rdbits 0 3] reading).openFor .rd 0 = true ∧
      ((after [.rdbits 0 3] reading).chan 0).Ok (after [.rdbits 0 3] reading).files ∧
      ((after [.rdbits 0 3] reading).chan 0).toRead (after [.rdbits 0 3] reading).files = []) := by decide

set_option synthInstance.maxSize 1000 in
/-- For WRBIT, TSER, TRAIL and OneSentinelPerStream (padded and unpadded). -/
theorem witness_writing : State.reset.openFor .wr 0 = false ∧ writing.openFor .wr 0 = true ∧ (writing.chan 0).Ok writing.files ∧
    (writing.chan 0).pad = true ∧ writingPlain.openFor .wr 0 = true ∧ (writingPlain.chan 0).Ok writingPlain.files ∧
    (writingPlain.chan 0).pad = false := by decide

theorem witness_RdbitsFillsTheBuffer : 256 < 257 ∧ (256 ≤ 256 ∧ State.reset.openFor .rd 0 = false) ∧
    (256 ≤ 256 ∧ reading.openFor .rd 0 = true ∧ (reading.chan 0).Ok reading.files ∧ 255 < 256) := by decide

theorem witness_WrbitsAppendsBufferBits : 256 < 257 ∧ (256 ≤ 256 ∧ State.reset.openFor .wr 0 = false) ∧
    (256 ≤ 256 ∧ writing.openFor .wr 0 = true ∧ (writing.chan 0).Ok writing.files ∧ 255 < 256) := by decide

/-- For the write session, the read session and the sentinel round trip. -/
theorem witness_sessions : (State.reset.chan 0).isOpen = false ∧ State.reset.writable 1 = true ∧
    ((boot [(1, [0xB0#8])]).chan 0).isOpen = false ∧ (boot [(1, [0xB0#8])]).readable 1 = true ∧
    (readPadded ((boot [(1, [0xB0#8])]).files.data 1))[2]? = some true ∧
    (readPadded ((boot [(1, [0xB0#8])]).files.data 1)).length ≤ 3 ∧
    ([true] : Bits)[0]? = some true ∧ ([true] : Bits).length ≤ 1 := by decide

theorem witness_FscanCountsBytes : State.reset.readable 0 = false ∧
    ((boot [(0, abra)]).readable 0 = true ∧ (boot [(0, abra)]).files.fileLen 0 < 4294967296) := by decide

theorem witness_TbuildSetsTheTree : (∀ b, State.reset.freq.get b = 0) ∧
    (0 < (FreqTable.zero.bump 0x78#8).get 0x78#8 ∧ ∀ b, b ≠ 0x78#8 → (FreqTable.zero.bump 0x78#8).get b = 0) ∧
    (0x00#8 ≠ 0xFF#8 ∧ 0 < (countBytes [0x00#8, 0xFF#8]).get 0x00#8 ∧ 0 < (countBytes [0x00#8, 0xFF#8]).get 0xFF#8) :=
  ⟨FreqTable.get_zero, ⟨by decide, fun b h => by rw [FreqTable.get_bump_of_ne _ h, FreqTable.get_zero]⟩,
    by decide, by rw [countBytes_get]; decide, by rw [countBytes_get]; decide⟩

set_option maxRecDepth 20000 in
theorem witness_BuildCountsAndWeights : build (FreqTable.zero.bump 0x78#8) = some (.leaf 0x78#8 1) := by decide

/-- Three nodes of which the sort puts the last two at the front. -/
theorem witness_BuildFollowsTheMergeOrder :
    sortByWeight [.leaf 0x61#8 5, .leaf 0x62#8 2, .leaf 0x63#8 2] = .leaf 0x62#8 2 :: .leaf 0x63#8 2 :: [.leaf 0x61#8 5] := by decide

/-- A tree of three distinct leaves with its codes. -/
theorem witness_CodesAreLeafPaths :
    (HTree.node (.leaf 0x63#8 1) (.node (.leaf 0x61#8 1) (.leaf 0x62#8 1) 2) 3).syms.Nodup ∧
    1 ≤ (HTree.node (.leaf 0x63#8 1) (.node (.leaf 0x61#8 1) (.leaf 0x62#8 1) 2) 3).inner ∧
    2 ≤ (HTree.node (.leaf 0x63#8 1) (.node (.leaf 0x61#8 1) (.leaf 0x62#8 1) 2) 3).syms.length ∧ 0x61#8 ≠ 0x62#8 ∧
    (codes (some (HTree.node (.leaf 0x63#8 1) (.node (.leaf 0x61#8 1) (.leaf 0x62#8 1) 2) 3))).get 0x61#8 = some [true, false] ∧
    (codes (some (HTree.node (.leaf 0x63#8 1) (.node (.leaf 0x61#8 1) (.leaf 0x62#8 1) 2) 3))).get 0x62#8 = some [true, true] := by decide

set_option synthInstance.maxSize 1000 in
theorem witness_TdesReadsTheDictionary : State.reset.openFor .rd 1 = false ∧
    (decoding.openFor .rd 1 = true ∧ (decoding.chan 1).Ok decoding.files ∧
      (splitDictionary ((decoding.chan 1).toRead decoding.files)).map Prod.snd = some ((unpack abraMsg).drop 49)) ∧
    (reading.openFor .rd 0 = true ∧ (reading.chan 0).Ok reading.files ∧
      splitDictionary ((reading.chan 0).toRead reading.files) = none) := by decide

theorem witness_DictionaryRoundTrip : (HTree.leaf 0x78#8 3).syms.Nodup := by decide

theorem witness_PencWritesTheCodes : State.reset.openFor .wr 0 = false ∧
    (writingPlain.openFor .wr 0 = true ∧ writingPlain.readable 0 = true ∧ writingPlain.files.fileLen 0 < 4294967296 ∧
      (writingPlain.chan 0).Ok writingPlain.files ∧ ∃ v ∈ writingPlain.files.data 0, writingPlain.code.get v = none) ∧
    (∀ v ∈ writingPlain.files.data 0,
      ((CodeTable.empty.record 0x61#8 [false]).record 0x62#8 [true]).get v ≠ none) := by decide

theorem witness_WalkDecodesTheCodewords :
    (HTree.node (.leaf 0x61#8 0) (.leaf 0x62#8 0) 0).syms.Nodup ∧
    walkPayload (.node (.leaf 0x61#8 0) (.leaf 0x62#8 0) 0) [false, true] = ([0x61#8, 0x62#8], true) := by decide

set_option synthInstance.maxSize 1000 in
theorem witness_PdecDecodesTheResidual : State.reset.openFor .rd 1 = false ∧ decoding.writable 1 = false ∧
    (decoding.openFor .rd 1 = true ∧ decoding.writable 2 = true ∧ decoding.tree = none ∧ (decoding.chan 1).Ok decoding.files) ∧
    ((after [.tdes 1] decoding).openFor .rd 1 = true ∧ (after [.tdes 1] decoding).writable 2 = true ∧
      (after [.tdes 1] decoding).tree ≠ none ∧
      ((after [.tdes 1] decoding).chan 1).Ok (after [.tdes 1] decoding).files ∧
      (decodeResidual ((after [.tdes 1] decoding).tree.getD (.leaf 0 0))
        (((after [.tdes 1] decoding).chan 1).toRead (after [.tdes 1] decoding).files)).2 = true) := by decide

/-- For HENC, HDEC, the stage equivalences and the round trip: both files free, the input short. -/
theorem witness_pipelines : State.reset.readable 0 = false ∧
    ((boot [(0, abra)]).readable 0 = true ∧ (0 : FileId) ≠ 1 ∧ (1 : FileId) ≠ 2 ∧ (boot [(0, abra)]).writable 1 = true ∧
      (boot [(0, abra)]).writable 2 = true ∧ (boot [(0, abra)]).files.fileLen 0 < 4294967296 ∧
      ((boot [(0, abra)]).chan 0).isOpen = false) ∧
    ((boot [(1, abraMsg)]).readable 1 = true ∧ (boot [(1, abraMsg)]).writable 2 = true ∧
      ((boot [(1, abraMsg)]).chan 1).isOpen = false ∧ (boot [(1, abraMsg)]).files.data 1 ≠ [0x80#8] ∧
      splitDictionary (unpack ((boot [(1, abraMsg)]).files.data 1)) ≠ none ∧ (dec abraMsg).2 = true) := by decide

theorem witness_EmptyMessageIsUnique : ([0x78#8] : List Byte) ≠ [] := by decide

theorem witness_DegenerateMessage : 1 ≤ 1 := by decide

end Sys2Proof.Tests
end

/-! ### Words, register numbers and the scheduler -/

section
namespace Sys2Proof.Machine

/-- STATUS after CmdError, written out: the sticky bits kept, bit 10 set, the code 4 (R29, R213). -/
theorem statusAfter_cmdError (w : Word) : statusAfter w .cmdError = (w &&& 0x700#32) ||| 0x404#32 := by
  have h : Completion.cmdError.sticky ||| Completion.cmdError.code = 0x404#32 := by decide
  rw [statusAfter, BitVec.or_assoc, h, stickyMask]

/-- A table word of full width is the word itself. -/
@[simp] theorem tableWord_toNat (w : Word) : tableWord 32 w.toNat = w := by
  rw [tableWord, Nat.mod_eq_of_lt w.isLt, BitVec.ofNat_toNat, BitVec.setWidth_eq]

/-- The execution of a legal word is its command's meaning (R32, R73). -/
theorem runWord_of_instr {w : Word} {i : Instr} (h : decode w = .instr i) (s : State) : runWord w s = exec i s := by
  simp only [runWord, h]

/-- The execution of an illegal word is the completion with CmdError (R73 step 3, R213). -/
theorem runWord_of_illegal {w : Word} {why : Illegal} (h : decode w = .illegal why) (s : State) :
    runWord w s = .next { s with status := (s.status &&& 0x700#32) ||| 0x404#32, pc := s.pc + 1 } := by
  simp only [runWord, h, illegalWord, finish, State.complete, statusAfter_cmdError]

/-- When a move of the host is due, the step is that move (R3). -/
theorem step_of_dueMove {s : State} {mv : HostMove} {rest : List (Nat × HostMove)} (h : s.dueMove = some (mv, rest)) :
    step s = hostMove mv { s with hostMoves := rest } := by
  simp only [step, h]

/-- When no move of the host is due, the step executes the next word (R11). -/
theorem step_of_nextWord {s : State} {w : Word} (hd : s.dueMove = none) (hw : s.nextWord = some w) : step s = runWord w s := by
  simp only [step, hd, hw]

/-- Past the program's end, with no host move due, there is no step (R11, log 3). -/
theorem step_of_runEnded {s : State} (hd : s.dueMove = none) (hw : s.nextWord = none) : step s = .fault .runEnded := by
  simp only [step, hd, hw]

/-- The first scheduled move is due as soon as its number of commands has been issued (log 4). -/
theorem dueMove_of_le {s : State} {k : Nat} {mv : HostMove} {rest : List (Nat × HostMove)}
    (h : s.hostMoves = (k, mv) :: rest) (hk : k ≤ s.pc) : s.dueMove = some (mv, rest) := by
  simp only [State.dueMove, h, if_pos hk]

/-- The numbers from 32 to 63 are those of the data buffer (R33). -/
@[simp] theorem regName_dbuf (i : Fin 32) : regName (32 + i.val) = .dbuf i := by
  have hi : 32 ≤ 32 + i.val ∧ 32 + i.val < 64 := by omega
  have h : 32 + i.val ≠ 0 ∧ 32 + i.val ≠ 1 ∧ 32 + i.val ≠ 2 := by omega
  simp [regName, h, hi]

/-- A host write to STATUS, RES or an unused number is ignored (R33). -/
theorem hostWriteReg_ignored {n : Nat} (h1 : 1 ≤ n) (h : n < 32 ∨ 64 ≤ n) (v : Word) (s : State) :
    hostWriteReg n v s = .next s := by
  have h0 : n ≠ 0 := by omega
  have hd : ¬(32 ≤ n ∧ n < 64) := by omega
  have hn : regName n = .status ∨ regName n = .res ∨ regName n = .unused := by
    simp only [regName, if_neg h0, dif_neg hd]
    split
    · exact .inl rfl
    · split
      · exact .inr (.inl rfl)
      · exact .inr (.inr rfl)
  rcases hn with hn | hn | hn <;> simp only [hostWriteReg, hn]

/-- A host write to `DBUF[i]` stores the low eight bits of the value (R33, log 7). -/
theorem hostWriteReg_dbuf (i : Fin 32) (v : Word) (s : State) :
    hostWriteReg (32 + i.val) v s = .next (s.setDbuf (s.dbuf.set i.val (v.extractLsb' 0 8))) := by
  simp only [hostWriteReg, regName_dbuf, BitVec.setWidth_eq_extractLsb' (by decide : 8 ≤ 32)]

/-- A host write to CMD executes the word, put into the program as the next one (R32, log 6). -/
theorem hostWriteReg_cmd (v : Word) (s : State) : hostWriteReg 0 v s = runWord v (s.insertCommand v) := rfl

/-- The host may change a file that no channel is bound to (R64). -/
theorem hostSetFile_of_unbound {s : State} {f : FileId} (h : s.bound f = false) (e : FileEntry) :
    hostSetFile f e s = .next (s.setFiles (s.files.setFile f e)) := by
  simp [hostSetFile, h]

/-- A change of a bound file is refused (R64, U9; log 5). -/
theorem hostSetFile_of_bound {s : State} {f : FileId} (h : s.bound f = true) (e : FileEntry) :
    hostSetFile f e s = .refused .hostTouchesBoundFile := by
  simp [hostSetFile, h]

/-- Placing a word takes away every host move that is due (log 1). -/
theorem dueMove_placeWord (s : State) (w : Word) : (s.placeWord w).dueMove = none := by
  unfold State.dueMove
  split
  · rfl
  · rename_i k mv rest h
    have hd : (s.hostMoves.dropWhile fun km => decide (km.1 ≤ s.pc)) = (k, mv) :: rest := h
    have hk := List.head?_dropWhile_not (fun km : Nat × HostMove => decide (km.1 ≤ s.pc)) s.hostMoves
    rw [hd] at hk
    have hlt : ¬k ≤ s.pc := by simpa using hk
    exact if_neg hlt

/-- The placed word is the next one, whether the program was long enough or had to be padded (log 1). -/
theorem nextWord_placeWord (s : State) (w : Word) : (s.placeWord w).nextWord = some w := by
  have hlen : (s.program.take s.pc ++ List.replicate (s.pc - s.program.length) 0#32).length = s.pc := by
    rw [List.length_append, List.length_take, List.length_replicate]
    omega
  have h := List.getElem?_append_right (l₁ := s.program.take s.pc ++ List.replicate (s.pc - s.program.length) 0#32)
    (l₂ := w :: s.program.drop (s.pc + 1)) (i := s.pc) hlen.le
  rw [hlen, Nat.sub_self] at h
  exact h

/-- Settles O6: the scheduler's equations, one for each case of the next word. -/
theorem stepRunsTheDecodedCommand : Obligations.StepRunsTheDecodedCommand := by
  refine ⟨fun s w i hd hw hi => ?_, fun s w why hd hw hi => ?_, fun s hd hlen => ?_⟩
  · rw [step_of_nextWord hd hw, runWord_of_instr hi]
  · rw [step_of_nextWord hd hw, runWord_of_illegal hi]
  · exact step_of_runEnded hd (List.getElem?_eq_none hlen)

/-- Settles O7: the due move is made, and each move is a file change or a register write. -/
theorem hostMovesAct : Obligations.HostMovesAct := by
  intro s k rest hk
  have due : ∀ {mv}, s.hostMoves = (k, mv) :: rest → step s = hostMove mv { s with hostMoves := rest } :=
    fun h => step_of_dueMove (dueMove_of_le h hk)
  refine ⟨fun f data h hb => ?_, fun f h hb => ?_, fun f data h hb => ?_, fun i v h => ?_, fun n v h h1 hn => ?_,
    fun v i h hi => ?_, fun v why h hi => ?_⟩
  · exact (due h).trans (hostSetFile_of_unbound (by exact hb) _)
  · exact (due h).trans (hostSetFile_of_unbound (by exact hb) _)
  · rcases h with h | h
    · exact (due h).trans (hostSetFile_of_bound (by exact hb) _)
    · exact (due h).trans (hostSetFile_of_bound (by exact hb) _)
  · exact (due h).trans (hostWriteReg_dbuf i v _)
  · exact (due h).trans (hostWriteReg_ignored h1 hn v _)
  · exact (due h).trans ((hostWriteReg_cmd v _).trans (runWord_of_instr hi _))
  · exact (due h).trans ((hostWriteReg_cmd v _).trans (runWord_of_illegal hi _))

/-- Settles O9: after placing, no host move is due and the next word is the placed one. -/
theorem placedWordRunsNext : Obligations.PlacedWordRunsNext := by
  intro s w i hi
  rw [State.withFetchWord, tableWord_toNat,
    step_of_nextWord (dueMove_placeWord s w) (nextWord_placeWord s w), runWord_of_instr hi]

end Sys2Proof.Machine
end

/-! ### What a completed command leaves in STATUS, RES and the program index -/

section
namespace Sys2Proof.Machine

/-- A bulk read delivers at most the bits asked for (R107). -/
theorem length_getBits_le (m : Memory) (n : Nat) (c : Channel) : (getBits m n c).1.length ≤ n := by
  induction n generalizing c with
  | zero => simp [getBits]
  | succ n ih =>
    rw [getBits]
    split
    · simp
    · rename_i c' _
      simpa using ih c'

/-- A delivered bit, as RES holds it, is 0 or 1 (R30, R104). -/
theorem toNat_bitByte_le_one (b : Bool) : ((bitByte b).setWidth 32).toNat ≤ 1 := by cases b <;> decide

/-- What a command does to the registers and the script before its completion sequence (R215): the completion starts from a state `u` with
the program, its index and the host's moves of `s`, with STATUS as before (but for the two commands that clear it) and RES as before or
newly a bit or a count. -/
def Completes (i : Instr) (s t : State) : Prop :=
  ∃ (u : State) (o : Completion), t = u.complete o ∧ (i ≠ .clrerr → i ≠ .sreset → u.status = s.status) ∧
    (u.res = s.res ∨ u.res.toNat ≤ 256) ∧ u.pc = s.pc ∧ u.program = s.program ∧ u.hostMoves = s.hostMoves

/-- The usual case: STATUS and RES are as before. -/
theorem completes_of_kept {i : Instr} {s u : State} {o : Completion} (hst : u.status = s.status) (hres : u.res = s.res)
    (hpc : u.pc = s.pc) (hprog : u.program = s.program) (hmoves : u.hostMoves = s.hostMoves) : Completes i s (u.complete o) :=
  ⟨u, o, rfl, fun _ _ => hst, .inl hres, hpc, hprog, hmoves⟩

/-- A command that answers a next state has completed (R10, R215). -/
theorem exec_completes {i : Instr} {s t : State} (h : exec i s = .next t) : Completes i s t := by
  cases i with
  | nop => cases h; exact completes_of_kept rfl rfl rfl rfl rfl
  | clrerr => cases h; exact ⟨_, .ok, rfl, fun hne => absurd rfl hne, .inl rfl, rfl, rfl, rfl⟩
  | sreset => cases h; exact ⟨_, .ok, rfl, fun _ hne => absurd rfl hne, .inr (by decide : (0#32).toNat ≤ 256), rfl, rfl, rfl⟩
  | bsopen ch fa mode pad =>
    rcases execBsopen_cases h with rfl | ⟨_, _, _, rfl⟩ | ⟨_, _, _, rfl⟩ <;> exact completes_of_kept rfl rfl rfl rfl rfl
  | bsclose ch => rcases execBsclose_cases h with ⟨_, rfl⟩ | ⟨_, rfl⟩ <;> exact completes_of_kept rfl rfl rfl rfl rfl
  | rdbit ch =>
    rcases execRdbit_cases h with ⟨_, rfl⟩ | ⟨r, c, _, _, rfl⟩ | ⟨c, _, _, rfl⟩
    · exact completes_of_kept rfl rfl rfl rfl rfl
    · exact ⟨_, .ok, rfl, fun _ _ => rfl, .inr ((toNat_bitByte_le_one r).trans (by decide)), rfl, rfl, rfl⟩
    · exact completes_of_kept rfl rfl rfl rfl rfl
  | wrbit ch bit => rcases execWrbit_cases h with ⟨_, rfl⟩ | ⟨_, rfl⟩ <;> exact completes_of_kept rfl rfl rfl rfl rfl
  | rdbits ch n =>
    rcases execRdbits_cases h with ⟨_, rfl⟩ | ⟨_, _, rfl⟩ | ⟨bits, c, hn, _, hg, rfl⟩
    · exact completes_of_kept rfl rfl rfl rfl rfl
    · exact completes_of_kept rfl rfl rfl rfl rfl
    · have hlen : bits.length ≤ n := by simpa only [hg] using length_getBits_le s.files n (s.chan ch)
      have hres : (BitVec.ofNat 32 bits.length).toNat ≤ 256 := (Nat.mod_le _ _).trans (hlen.trans hn)
      exact ⟨_, .ok, rfl, fun _ _ => rfl, .inr hres, rfl, rfl, rfl⟩
  | wrbits ch n =>
    rcases execWrbits_cases h with ⟨_, rfl⟩ | ⟨_, _, rfl⟩ | ⟨_, _, rfl⟩ <;> exact completes_of_kept rfl rfl rfl rfl rfl
  | fscan fa => rcases execFscan_cases h with ⟨_, rfl⟩ | ⟨_, _, rfl⟩ <;> exact completes_of_kept rfl rfl rfl rfl rfl
  | tbuild => cases h; exact completes_of_kept rfl rfl rfl rfl rfl
  | cgen => cases h; exact completes_of_kept rfl rfl rfl rfl rfl
  | tser ch => rcases execTser_cases h with ⟨_, rfl⟩ | ⟨_, rfl⟩ <;> exact completes_of_kept rfl rfl rfl rfl rfl
  | tdes ch =>
    rcases execTdes_cases h with ⟨_, rfl⟩ | ⟨_, _, _, _, rfl⟩ | ⟨_, _, _, rfl⟩ <;> exact completes_of_kept rfl rfl rfl rfl rfl
  | penc ch fa =>
    rcases execPenc_cases h with rfl | rfl | ⟨_, _, _, rfl⟩ <;> exact completes_of_kept rfl rfl rfl rfl rfl
  | trail ch => rcases execTrail_cases h with ⟨_, rfl⟩ | ⟨_, rfl⟩ <;> exact completes_of_kept rfl rfl rfl rfl rfl
  | pdec ch fb =>
    rcases execPdec_cases h with rfl | ⟨_, rfl⟩ | ⟨_, _, _, _, _, _, _, rfl⟩ <;> exact completes_of_kept rfl rfl rfl rfl rfl
  | henc fa fb => rcases execHenc_cases h with rfl | ⟨_, _, _, _, rfl⟩ <;> exact completes_of_kept rfl rfl rfl rfl rfl
  | hdec fa fb =>
    rcases execHdec_cases h with rfl | ⟨_, _, _, _, _, _, rfl⟩ <;> exact completes_of_kept rfl rfl rfl rfl rfl

/-- Every outcome has one of the five named codes (R210). -/
theorem statusCode_statusAfter_le (w : Word) (o : Completion) : statusCode (statusAfter w o) ≤ 4 := by
  rw [statusCode_statusAfter]
  cases o <;> decide

/-- A completion from a state with a word left meets the register invariant, whatever STATUS held (R11, R29, R30). -/
theorem complete_registersOk {s : State} (o : Completion) (hres : s.res.toNat ≤ 256) (hpc : s.pc < s.program.length) :
    (s.complete o).RegistersOk :=
  ⟨statusAfter_reserved s.status o, statusCode_statusAfter_le s.status o, hres, hpc⟩

/-- Executing a word that is left in the program keeps the register invariant. -/
theorem runWord_registersOk {w : Word} {s t : State} (h : runWord w s = .next t) (hres : s.res.toNat ≤ 256)
    (hpc : s.pc < s.program.length) : t.RegistersOk := by
  rcases runWord_cases h with ⟨i, _, h⟩ | ⟨_, _, rfl⟩
  · obtain ⟨u, o, rfl, _, hu, hpc', hprog, _⟩ := exec_completes h
    have hures : u.res.toNat ≤ 256 := hu.elim (fun e => e ▸ hres) id
    exact complete_registersOk o hures (by rwa [hpc', hprog])
  · exact complete_registersOk .cmdError hres hpc

/-- A word inserted at the program index is left to run (log 6). -/
theorem pc_lt_insertCommand {s : State} (h : s.pc ≤ s.program.length) (w : Word) :
    (s.insertCommand w).pc < (s.insertCommand w).program.length := by
  rw [State.insertCommand_pc, State.insertCommand_program, List.length_append, List.length_take, List.length_cons]
  omega

/-- Settles O21: a step executes a word that is left in the program, or is a host move that touches none of these registers. -/
theorem stepKeepsRegisterInvariants : Obligations.StepKeepsRegisterInvariants := by
  intro s t hs h
  have ⟨_, _, hres, hpc⟩ := hs
  rcases step_cases h with ⟨mv, rest, _, hm⟩ | ⟨w, _, hw, hr⟩
  · rcases hostMove_cases hm with ⟨v, _, hr⟩ | ⟨d, rfl⟩ | ⟨f, e, _, _, rfl⟩
    · exact runWord_registersOk hr hres (pc_lt_insertCommand hpc v)
    · exact hs
    · exact hs
  · obtain ⟨hlt, _⟩ := List.getElem?_eq_some_iff.1 hw
    exact runWord_registersOk hr hres hlt

end Sys2Proof.Machine
end

/-! ### Every command completes -/

section
namespace Sys2Proof.Machine

/-- A file shorter than 2^32 bytes is not refused (U6). -/
theorem tooLong_of_lt {m : Memory} {f : FileId} (h : m.fileLen f < 4294967296) : m.tooLong f = false :=
  decide_eq_false (Nat.not_le.2 h)

/-- A file of 2^32 bytes or more is refused (U6). -/
theorem tooLong_of_le {m : Memory} {f : FileId} (h : 4294967296 ≤ m.fileLen f) : m.tooLong f = true := decide_eq_true h

/-- A check that ends in FileError completes when what follows it completes (R100). -/
theorem exists_next_ite {p : Prop} [Decidable p] {A B : Answer} (hA : ∃ t, A = .next t) (hB : ∃ t, B = .next t) :
    ∃ t, (if p then A else B) = .next t := by
  split
  · exact hA
  · exact hB

theorem exists_next_finish (o : Completion) (s : State) : ∃ t, finish o s = .next t := ⟨_, rfl⟩

theorem execBsopen_next (ch : ChanId) (fa : FileId) (md : ModeArg) (pad : Bool) (s : State) :
    ∃ t, execBsopen ch fa md pad s = .next t := by
  refine exists_next_ite (exists_next_finish _ _) ?_
  cases md with
  | m2 => exact exists_next_finish _ _
  | m3 => exact exists_next_finish _ _
  | rd => exact exists_next_ite (exists_next_finish _ _) (exists_next_finish _ _)
  | wr => exact exists_next_ite (exists_next_finish _ _) (exists_next_finish _ _)

theorem execRdbit_next (ch : ChanId) (s : State) : ∃ t, execRdbit ch s = .next t := by
  refine exists_next_ite ?_ (exists_next_finish _ _)
  split
  · exact exists_next_finish _ _
  · exact exists_next_finish _ _

theorem execTdes_next (ch : ChanId) (s : State) : ∃ t, execTdes ch s = .next t := by
  refine exists_next_ite ?_ (exists_next_finish _ _)
  split
  · exact exists_next_finish _ _
  · exact exists_next_finish _ _

theorem execFscan_next {fa : FileId} {s : State} (hl : s.files.fileLen fa < 4294967296) : ∃ t, execFscan fa s = .next t := by
  simp only [execFscan, tooLong_of_lt hl, Bool.false_eq_true, if_false]
  exact exists_next_ite (exists_next_finish _ _) (exists_next_finish _ _)

theorem execPenc_next (ch : ChanId) {fa : FileId} {s : State} (hl : s.files.fileLen fa < 4294967296) :
    ∃ t, execPenc ch fa s = .next t := by
  simp only [execPenc, tooLong_of_lt hl, Bool.false_eq_true, if_false]
  refine exists_next_ite (exists_next_ite ?_ (exists_next_finish _ _)) (exists_next_finish _ _)
  exact exists_next_ite (exists_next_finish _ _) (exists_next_finish _ _)

theorem execHenc_next {fa : FileId} (fb : FileId) {s : State} (hl : s.files.fileLen fa < 4294967296) :
    ∃ t, execHenc fa fb s = .next t := by
  simp only [execHenc, tooLong_of_lt hl, Bool.false_eq_true, if_false]
  exact exists_next_ite (exists_next_ite (exists_next_finish _ _) (exists_next_finish _ _)) (exists_next_finish _ _)

/-- With the residual unbounded, PDEC never refuses (U7, log 9). -/
theorem execPdec_next (ch : ChanId) (fb : FileId) (s : State) : ∃ t, execPdec ch fb s = .next t := by
  refine exists_next_ite (exists_next_ite ?_ (exists_next_finish _ _)) (exists_next_finish _ _)
  split
  · exact exists_next_finish _ _
  · exact exists_next_finish _ _

/-- With the residual unbounded, HDEC never refuses (U7, log 9). -/
theorem execHdec_next (fa fb : FileId) (s : State) : ∃ t, execHdec fa fb s = .next t := by
  refine exists_next_ite (exists_next_ite (exists_next_finish _ _) ?_) (exists_next_finish _ _)
  split
  · exact exists_next_finish _ _
  · exact exists_next_finish _ _

/-- Every command completes from a store of files shorter than 2^32 bytes (R2, R249, U6). -/
theorem exec_next (i : Instr) {s : State} (hl : ∀ f, s.files.fileLen f < 4294967296) : ∃ t, exec i s = .next t := by
  cases i with
  | nop => exact exists_next_finish _ _
  | clrerr => exact exists_next_finish _ _
  | sreset => exact exists_next_finish _ _
  | bsopen ch fa mode pad => exact execBsopen_next ch fa mode pad s
  | bsclose ch => exact exists_next_ite (exists_next_finish _ _) (exists_next_finish _ _)
  | rdbit ch => exact execRdbit_next ch s
  | wrbit ch bit => exact exists_next_ite (exists_next_finish _ _) (exists_next_finish _ _)
  | rdbits ch n =>
    exact exists_next_ite (exists_next_finish _ _) (exists_next_ite (exists_next_finish _ _) (exists_next_finish _ _))
  | wrbits ch n =>
    exact exists_next_ite (exists_next_finish _ _) (exists_next_ite (exists_next_finish _ _) (exists_next_finish _ _))
  | fscan fa => exact execFscan_next (hl fa)
  | tbuild => exact exists_next_finish _ _
  | cgen => exact exists_next_finish _ _
  | tser ch => exact exists_next_ite (exists_next_finish _ _) (exists_next_finish _ _)
  | tdes ch => exact execTdes_next ch s
  | penc ch fa => exact execPenc_next ch (hl fa)
  | trail ch => exact exists_next_ite (exists_next_finish _ _) (exists_next_finish _ _)
  | pdec ch fb => exact execPdec_next ch fb s
  | henc fa fb => exact execHenc_next fb (hl fa)
  | hdec fa fb => exact execHdec_next fa fb s

/-- Settles O15: short inputs pass the one check that can refuse, and the checks before it are the ones the hypotheses meet. -/
theorem everyCommandCompletes : Obligations.EveryCommandCompletes := by
  refine ⟨fun i s hl => exec_next i hl, fun fa s hr hlong => ?_⟩
  have ht := tooLong_of_le hlong
  refine ⟨?_, fun ch ho => ?_, fun fb hne hw => ?_⟩
  · simp [exec, execFscan, hr, ht]
  · simp [exec, execPenc, ho, hr, ht]
  · simp [exec, execHenc, hr, hne, hw, ht]

end Sys2Proof.Machine
end

/-! ### Every step keeps the stream invariants -/

section
namespace Sys2Proof.Machine

/-- A closed channel meets its invariant over any store (R24). -/
theorem Channel.ok_closed (m : Memory) : Channel.closed.Ok m := ⟨fun _ => rfl, nofun, nofun, nofun⟩

/-- A channel just opened for reading an existing file meets its invariant (R23, R101). -/
theorem Channel.ok_openRd {m : Memory} {f : FileId} (pad : Bool) (he : m.fileExists f = true) : (Channel.openRd pad f).Ok m :=
  Channel.ok_rd rfl rfl he (Nat.zero_le 8) (Nat.zero_le _)

/-- A channel just opened for writing an existing file meets its invariant (R22, R101). -/
theorem Channel.ok_openWr {m : Memory} {f : FileId} (pad : Bool) (he : m.fileExists f = true) : (Channel.openWr pad f).Ok m :=
  ⟨nofun, fun _ => he, nofun, fun _ _ => ⟨Nat.le_add_left 1 7, Nat.le_refl 8, rfl, fun _ _ => BitVec.getLsbD_zero⟩⟩

/-- A channel's invariant depends on its own file alone, and on no file when it is closed. -/
theorem Channel.Ok.congr_of_open {m n : Memory} {c : Channel} (h : c.Ok m)
    (hf : c.isOpen = true → n.file c.fid = m.file c.fid) : c.Ok n := by
  cases ho : c.isOpen with
  | true => exact h.congr (hf ho)
  | false => rw [h.1 ho]; exact Channel.ok_closed n

/-- Two channels may be open together: if they are on one file, both read it (R59). -/
def Channel.Compatible (c d : Channel) : Prop :=
  c.isOpen = true → d.isOpen = true → c.fid = d.fid → c.mode = .rd ∧ d.mode = .rd

theorem Channel.Compatible.symm {c d : Channel} (h : c.Compatible d) : d.Compatible c :=
  fun hd hc e => (h hc hd e.symm).symm

/-- Compatibility is decided by the handle alone (R21). -/
theorem Channel.Compatible.congr {c c' d : Channel} (h : c.Compatible d) (hc : c'.sameHandle c) : c'.Compatible d := by
  obtain ⟨ho, hm, _, hf⟩ := hc
  simpa only [Channel.Compatible, ho, hm, hf] using h

theorem Channel.compatible_closed (d : Channel) : Channel.closed.Compatible d := nofun

/-- Exclusion, for any two channels in any order. -/
theorem State.exclusive_iff (s : State) : s.Exclusive ↔ ∀ ch k, k ≠ ch → (s.chan ch).Compatible (s.chan k) := by
  constructor
  · intro h ch k hne
    match ch, k with
    | 0, 0 => exact absurd rfl hne
    | 0, 1 => exact h
    | 1, 0 => exact Channel.Compatible.symm h
    | 1, 1 => exact absurd rfl hne
  · exact fun h => h 0 1 (by decide)

/-- The stream invariant, channel by channel. -/
theorem State.streamsOk_iff (s : State) : s.StreamsOk ↔
    s.files.wf = true ∧ (∀ ch, (s.chan ch).Ok s.files) ∧ ∀ ch k, k ≠ ch → (s.chan ch).Compatible (s.chan k) := by
  rw [forall_chan (P := fun ch => (s.chan ch).Ok s.files), ← s.exclusive_iff, and_assoc]

/-- Under the stream invariant every channel meets its own. -/
theorem State.chan_ok {s : State} (hs : s.StreamsOk) (ch : ChanId) : (s.chan ch).Ok s.files := (s.streamsOk_iff.1 hs).2.1 ch

/-- Under the stream invariant any two channels may be open together. -/
theorem State.chan_compatible {s : State} (hs : s.StreamsOk) {ch k : ChanId} (hk : k ≠ ch) :
    (s.chan ch).Compatible (s.chan k) :=
  (s.streamsOk_iff.1 hs).2.2 ch k hk

/-- A store in canonical form in which one file alone has changed, and exists, is in canonical form (R34). -/
theorem Memory.wf_of_file_eq {m n : Memory} {f : FileId} (hm : m.wf = true) (he : n.fileExists f = true)
    (ho : ∀ g, g ≠ f → n.file g = m.file g) : n.wf = true := by
  rw [Memory.wf_iff] at hm ⊢
  intro g hg
  by_cases h : g = f
  · subst h
    rw [Memory.fileExists, hg] at he
    cases he
  · rw [ho g h] at hg ⊢
    exact hm g hg

/-- The rule for a change of one channel and of files that the other channel is not open on. -/
theorem streamsOk_setChan_setFiles {s : State} {ch : ChanId} {c : Channel} {m : Memory} (hs : s.StreamsOk) (hm : m.wf = true)
    (hc : c.Ok m) (hcomp : ∀ k, k ≠ ch → c.Compatible (s.chan k))
    (hfile : ∀ k, k ≠ ch → (s.chan k).isOpen = true → m.file (s.chan k).fid = s.files.file (s.chan k).fid) :
    ((s.setChan ch c).setFiles m).StreamsOk := by
  rw [State.streamsOk_iff] at hs ⊢
  obtain ⟨_, hok, hex⟩ := hs
  refine ⟨hm, fun k => ?_, fun j k hjk => ?_⟩
  · simp only [State.setFiles_chan, State.setFiles_files]
    by_cases hk : k = ch
    · subst hk; simpa using hc
    · rw [State.chan_setChan_of_ne s c hk]
      exact (hok k).congr_of_open (hfile k hk)
  · simp only [State.setFiles_chan]
    by_cases hj : j = ch
    · subst hj
      rw [State.chan_setChan_self, State.chan_setChan_of_ne s c hjk]
      exact hcomp k hjk
    · rw [State.chan_setChan_of_ne s c hj]
      by_cases hk : k = ch
      · subst hk
        rw [State.chan_setChan_self]
        exact (hcomp j hj).symm
      · rw [State.chan_setChan_of_ne s c hk]
        exact hex j k hjk

/-- The rule for a change of one file that no channel is bound to. -/
theorem streamsOk_setFiles {s : State} {f : FileId} {m : Memory} (hs : s.StreamsOk) (hw : s.writable f = true)
    (hm : m.wf = true) (ho : ∀ g, g ≠ f → m.file g = s.files.file g) : (s.setFiles m).StreamsOk := by
  rw [State.streamsOk_iff] at hs ⊢
  obtain ⟨_, hok, hex⟩ := hs
  exact ⟨hm, fun k => (hok k).congr_of_open fun hopen => ho _ (State.ne_fid_of_writable hw hopen), hex⟩

/-- The rule for a file put in place of one that no channel is bound to. -/
theorem streamsOk_setFile {s : State} {f : FileId} {e : FileEntry} (hs : s.StreamsOk) (hw : s.writable f = true)
    (he : e.present = false → e.data = []) : (s.setFiles (s.files.setFile f e)).StreamsOk :=
  streamsOk_setFiles hs hw (Memory.wf_setFile hs.1 f he) fun _ hg => Memory.file_setFile_of_ne _ e hg

/-- The rule for a command that reads on a channel. -/
theorem streamsOk_setChan {s : State} {ch : ChanId} {c : Channel} (hs : s.StreamsOk) (hc : c.Ok s.files)
    (hh : c.sameHandle (s.chan ch)) : (s.setChan ch c).StreamsOk :=
  streamsOk_setChan_setFiles (m := s.files) hs hs.1 hc
    (fun _ hk => (State.chan_compatible hs hk).congr hh) (fun _ _ _ => rfl)

/-- A channel open for writing is bound to a file that the other channel is not open on (R59). -/
theorem State.fid_ne_of_openFor_wr {s : State} {ch k : ChanId} (hs : s.StreamsOk) (ho : s.openFor .wr ch = true) (hk : k ≠ ch)
    (hopen : (s.chan k).isOpen = true) : (s.chan k).fid ≠ (s.chan ch).fid := by
  obtain ⟨hco, hmode⟩ := (s.openFor_iff .wr ch).1 ho
  intro e
  have hrd := (State.chan_compatible hs hk hco hopen e.symm).1
  rw [hmode] at hrd
  cases hrd

/-- A channel open for writing meets the premise of the laws of writing. -/
theorem State.writing_of_openFor {s : State} {ch : ChanId} (hs : s.StreamsOk) (ho : s.openFor .wr ch = true) :
    (s.chan ch).Writing s.files := by
  obtain ⟨hopen, hmode⟩ := (s.openFor_iff .wr ch).1 ho
  exact ⟨hopen, hmode, State.chan_ok hs ch⟩

/-- A channel open for reading meets the premise of the laws of reading. -/
theorem State.reading_of_openFor {s : State} {ch : ChanId} (hs : s.StreamsOk) (ho : s.openFor .rd ch = true) :
    (s.chan ch).Reading s.files := by
  obtain ⟨hopen, hmode⟩ := (s.openFor_iff .rd ch).1 ho
  exact ⟨hopen, hmode, State.chan_ok hs ch⟩

/-- The file of a stream that has grown exists. -/
theorem Grew.fileExists {c : Channel} {m : Memory} {bits : Bits} {x : Channel × Memory} (h : Grew c m bits x)
    (ho : c.isOpen = true) : x.2.fileExists c.fid = true := by
  obtain ⟨hopen, _, _, hfid⟩ := h.handle
  exact hfid ▸ h.ok.2.1 (hopen.trans ho)

/-- The rule for a command that puts bits on a channel. -/
theorem streamsOk_of_grew {s : State} {ch : ChanId} {bits : Bits} {x : Channel × Memory} (hs : s.StreamsOk)
    (ho : s.openFor .wr ch = true) (hx : Grew (s.chan ch) s.files bits x) : (s.setStream ch x).StreamsOk := by
  obtain ⟨hopen, _⟩ := (s.openFor_iff .wr ch).1 ho
  exact streamsOk_setChan_setFiles hs (Memory.wf_of_file_eq hs.1 (hx.fileExists hopen) hx.others) hx.ok
    (fun _ hk => (State.chan_compatible hs hk).congr hx.handle)
    (fun k hk hk' => hx.others _ (State.fid_ne_of_openFor_wr hs ho hk hk'))

/-- Bits put on an open WR channel keep the invariants (R105). -/
theorem streamsOk_putBits {s : State} {ch : ChanId} (hs : s.StreamsOk) (ho : s.openFor .wr ch = true) (bits : Bits) :
    (s.setStream ch (putBits (s.chan ch, s.files) bits)).StreamsOk :=
  streamsOk_of_grew hs ho (putBits_grew (State.writing_of_openFor hs ho) bits)

/-- The trailer adds its bits to the stream (R161). -/
theorem trailer_grew {c : Channel} {m : Memory} (hc : c.Writing m) :
    Grew c m (true :: List.replicate (c.cur - 1) false) (trailer (c, m)) :=
  trailer_eq hc ▸ putBits_grew hc _

/-- One GetBit leaves the channel that a read of one bit leaves. -/
theorem getBits_one_channel (m : Memory) (c : Channel) : (getBits m 1 c).2 = (getBit m c).2 := by
  rcases hg : getBit m c with ⟨_ | b, c'⟩ <;> simp [getBits, hg]

/-- Bits read on an open RD channel keep the invariants (R107). -/
theorem streamsOk_getBits {s : State} {ch : ChanId} {c : Channel} {n : Nat} (hs : s.StreamsOk) (ho : s.openFor .rd ch = true)
    (hc : c = (getBits s.files n (s.chan ch)).2) : (s.setChan ch c).StreamsOk := by
  obtain ⟨c', hg, hh, hok, _⟩ := getBits_spec (State.reading_of_openFor hs ho) n
  rw [hg] at hc
  exact hc ▸ streamsOk_setChan hs hok hh

/-! ### The commands -/

/-- Closing a channel changes no file, or appends a byte to the file of a WR channel (R102). -/
theorem Channel.flush_cases (c : Channel) (m : Memory) :
    c.flush m = m ∨ c.mode = .wr ∧ ∃ v, c.flush m = m.append c.fid v := by
  unfold Channel.flush
  split
  · exact .inl rfl
  · rename_i hmode
    split
    · exact .inr ⟨hmode, _, rfl⟩
    · split
      · exact .inr ⟨hmode, _, rfl⟩
      · exact .inl rfl

/-- Closing a channel leaves its file existing. -/
theorem Channel.fileExists_flush {c : Channel} {m : Memory} (he : m.fileExists c.fid = true) :
    (c.flush m).fileExists c.fid = true := by
  rcases c.flush_cases m with h | ⟨_, v, h⟩
  · rw [h, he]
  · rw [h, Memory.fileExists_append_self]

/-- Closing a channel changes its own file alone, and none if it reads. -/
theorem Channel.file_flush {c : Channel} {m : Memory} {g : FileId} (hg : g = c.fid → c.mode = .rd) :
    (c.flush m).file g = m.file g := by
  rcases c.flush_cases m with h | ⟨hmode, v, h⟩
  · rw [h]
  · rw [h]
    refine Memory.file_append_of_ne m v fun e => ?_
    rw [hg e] at hmode
    cases hmode

/-- The pipeline's encoder writes dictionary, payload and trailer on its fresh output file and closes it (R81, R180). -/
theorem encodeInto_grew (fb : FileId) (t : Option HTree) (data : List Byte) (m : Memory) :
    ∃ z x, Grew (Channel.openWr false fb) (m.truncate fb)
      (serialise t ++ (codes t).encodeBytes data ++ true :: List.replicate z false) x ∧ encodeInto fb t data m = x.1.flush x.2 := by
  have hw : (Channel.openWr false fb).Writing (m.truncate fb) :=
    ⟨rfl, rfl, Channel.ok_openWr false (by simp [Memory.fileExists])⟩
  have hbody := putBits_grew hw (serialise t ++ (codes t).encodeBytes data)
  exact ⟨_, _, hbody.trans (trailer_grew (hbody.writing hw)), by rw [encodeInto, emitTree_eq, ← putBits_append]⟩

/-- The pipeline's encoder changes its output file alone and leaves it existing (R180). -/
theorem encodeInto_file (fb : FileId) (t : Option HTree) (data : List Byte) (m : Memory) :
    (encodeInto fb t data m).fileExists fb = true ∧ ∀ g, g ≠ fb → (encodeInto fb t data m).file g = m.file g := by
  obtain ⟨_, x, hx, heq⟩ := encodeInto_grew fb t data m
  have hfid : x.1.fid = fb := hx.handle.2.2.2
  rw [heq]
  refine ⟨?_, fun g hg => ?_⟩
  · have he := hx.fileExists rfl
    exact hfid ▸ Channel.fileExists_flush (hfid.symm ▸ he)
  · rw [Channel.file_flush fun e => absurd (e.trans hfid) hg, hx.others g hg, Memory.file_truncate_of_ne m hg]

theorem execBsopen_streamsOk {ch : ChanId} {fa : FileId} {md : ModeArg} {pad : Bool} {s t : State}
    (hs : s.StreamsOk) (h : execBsopen ch fa md pad s = .next t) : t.StreamsOk := by
  rcases execBsopen_cases h with rfl | ⟨_, _, hr, rfl⟩ | ⟨_, _, hw, rfl⟩
  · exact hs
  · simp only [State.readable, Bool.and_eq_true, Bool.not_eq_true'] at hr
    obtain ⟨he, hnw⟩ := hr
    refine streamsOk_setChan_setFiles (m := s.files) hs hs.1 (Channel.ok_openRd pad he) (fun k _ _ hk hf => ⟨rfl, ?_⟩)
      (fun _ _ _ => rfl)
    cases hmode : (s.chan k).mode with
    | rd => rfl
    | wr =>
      have hwb := (s.writeBound_iff fa).2 ⟨k, ⟨hk, hf.symm⟩, hmode⟩
      rw [hnw] at hwb
      cases hwb
  · exact streamsOk_setChan_setFiles hs (Memory.wf_truncate hs.1 fa) (Channel.ok_openWr pad (by simp [Memory.fileExists]))
      (fun k _ _ hk hf => absurd hf.symm (State.ne_fid_of_writable hw hk))
      (fun k _ hk => Memory.file_truncate_of_ne _ (State.ne_fid_of_writable hw hk))

theorem execBsclose_streamsOk {ch : ChanId} {s t : State} (hs : s.StreamsOk) (h : execBsclose ch s = .next t) :
    t.StreamsOk := by
  rcases execBsclose_cases h with ⟨_, rfl⟩ | ⟨ho, rfl⟩
  · exact hs
  · have he := Channel.fileExists_flush ((State.chan_ok hs ch).2.1 ho)
    exact streamsOk_setChan_setFiles hs (Memory.wf_of_file_eq hs.1 he fun g hg => Channel.file_flush fun e => absurd e hg)
      (Channel.ok_closed _) (fun k _ => Channel.compatible_closed _)
      (fun k hk hk' => Channel.file_flush fun e => (State.chan_compatible hs hk ho hk' e.symm).1)

theorem execRdbit_streamsOk {ch : ChanId} {s t : State} (hs : s.StreamsOk) (h : execRdbit ch s = .next t) :
    t.StreamsOk := by
  have hread := getBits_one_channel s.files (s.chan ch)
  rcases execRdbit_cases h with ⟨_, rfl⟩ | ⟨r, c, ho, hg, rfl⟩ | ⟨c, ho, hg, rfl⟩
  · exact hs
  · exact streamsOk_getBits hs ho (by rw [hread, hg])
  · exact streamsOk_getBits hs ho (by rw [hread, hg])

theorem execRdbits_streamsOk {ch : ChanId} {n : Nat} {s t : State} (hs : s.StreamsOk) (h : execRdbits ch n s = .next t) :
    t.StreamsOk := by
  rcases execRdbits_cases h with ⟨_, rfl⟩ | ⟨_, _, rfl⟩ | ⟨bits, c, _, ho, hg, rfl⟩
  · exact hs
  · exact hs
  · exact streamsOk_getBits hs ho (by rw [hg])

theorem execTdes_streamsOk {ch : ChanId} {s t : State} (hs : s.StreamsOk) (h : execTdes ch s = .next t) :
    t.StreamsOk := by
  rcases execTdes_cases h with ⟨_, rfl⟩ | ⟨tr, c, ho, hp, rfl⟩ | ⟨c, ho, hp, rfl⟩
  · exact hs
  · exact streamsOk_getBits hs ho (by rw [← parseDictionary_channel (State.reading_of_openFor hs ho), hp])
  · exact streamsOk_getBits hs ho (by rw [← parseDictionary_channel (State.reading_of_openFor hs ho), hp])

theorem execWrbit_streamsOk {ch : ChanId} {b : Bool} {s t : State} (hs : s.StreamsOk) (h : execWrbit ch b s = .next t) :
    t.StreamsOk := by
  rcases execWrbit_cases h with ⟨_, rfl⟩ | ⟨ho, rfl⟩
  · exact hs
  · exact streamsOk_putBits hs ho [b]

theorem execWrbits_streamsOk {ch : ChanId} {n : Nat} {s t : State} (hs : s.StreamsOk) (h : execWrbits ch n s = .next t) :
    t.StreamsOk := by
  rcases execWrbits_cases h with ⟨_, rfl⟩ | ⟨_, _, rfl⟩ | ⟨_, ho, rfl⟩
  · exact hs
  · exact hs
  · exact streamsOk_putBits hs ho _

theorem execTser_streamsOk {ch : ChanId} {s t : State} (hs : s.StreamsOk) (h : execTser ch s = .next t) : t.StreamsOk := by
  rcases execTser_cases h with ⟨_, rfl⟩ | ⟨ho, rfl⟩
  · exact hs
  · rw [emitTree_eq]
    exact streamsOk_putBits hs ho _

theorem execPenc_streamsOk {ch : ChanId} {fa : FileId} {s t : State} (hs : s.StreamsOk) (h : execPenc ch fa s = .next t) :
    t.StreamsOk := by
  rcases execPenc_cases h with rfl | rfl | ⟨ho, _, _, rfl⟩
  · exact hs
  · exact hs
  · exact streamsOk_putBits hs ho _

theorem execTrail_streamsOk {ch : ChanId} {s t : State} (hs : s.StreamsOk) (h : execTrail ch s = .next t) : t.StreamsOk := by
  rcases execTrail_cases h with ⟨_, rfl⟩ | ⟨ho, rfl⟩
  · exact hs
  · exact streamsOk_of_grew hs ho (trailer_grew (State.writing_of_openFor hs ho))

theorem execPdec_streamsOk {ch : ChanId} {fb : FileId} {s t : State} (hs : s.StreamsOk) (h : execPdec ch fb s = .next t) :
    t.StreamsOk := by
  rcases execPdec_cases h with rfl | ⟨_, rfl⟩ | ⟨tr, R, c, ho, hw, _, hres, rfl⟩
  · exact hs
  · exact hs
  · have hr := State.reading_of_openFor hs ho
    have hne := State.ne_fid_of_writable hw hr.1
    have hr' : (s.chan ch).Reading (s.files.truncate fb) :=
      ⟨hr.1, hr.2.1, hr.2.2.congr (Memory.file_truncate_of_ne s.files hne)⟩
    obtain ⟨c', hres', ⟨hh, hok, _⟩, _⟩ := readResidual_spec hr'
    obtain ⟨_, rfl⟩ := Prod.mk.inj (hres.symm.trans hres')
    have hout := streamsOk_setFile (e := { present := true, data := (decodeResidual tr R).1 }) hs hw nofun
    refine streamsOk_setChan hout (hok.congr ?_) hh
    have hc : c.fid ≠ fb := hh.2.2.2 ▸ hne
    simp [hc]

theorem execHenc_streamsOk {fa fb : FileId} {s t : State} (hs : s.StreamsOk) (h : execHenc fa fb s = .next t) :
    t.StreamsOk := by
  rcases execHenc_cases h with rfl | ⟨_, _, hw, _, rfl⟩
  · exact hs
  · have ⟨he, ho⟩ := encodeInto_file fb (build (countBytes (s.files.data fa))) (s.files.data fa) s.files
    exact streamsOk_setFiles (s := s.release) hs hw (Memory.wf_of_file_eq hs.1 he ho) ho

theorem execHdec_streamsOk {fa fb : FileId} {s t : State} (hs : s.StreamsOk) (h : execHdec fa fb s = .next t) :
    t.StreamsOk := by
  rcases execHdec_cases h with rfl | ⟨data, o, _, _, hw, _, rfl⟩
  · exact hs
  · exact streamsOk_setFile (e := { present := true, data := data }) hs hw nofun

theorem execSreset_streamsOk {s t : State} (hs : s.StreamsOk) (h : execSreset s = .next t) : t.StreamsOk := by
  cases h
  exact ⟨hs.1, Channel.ok_closed _, Channel.ok_closed _, nofun⟩

/-- Every command keeps the stream invariants. -/
theorem exec_streamsOk {i : Instr} {s t : State} (hs : s.StreamsOk) (h : exec i s = .next t) : t.StreamsOk := by
  cases i with
  | nop => cases h; exact hs
  | clrerr => cases h; exact hs
  | sreset => exact execSreset_streamsOk hs h
  | bsopen ch fa md pad => exact execBsopen_streamsOk hs h
  | bsclose ch => exact execBsclose_streamsOk hs h
  | rdbit ch => exact execRdbit_streamsOk hs h
  | wrbit ch b => exact execWrbit_streamsOk hs h
  | rdbits ch n => exact execRdbits_streamsOk hs h
  | wrbits ch n => exact execWrbits_streamsOk hs h
  | fscan fa => rcases execFscan_cases h with ⟨_, rfl⟩ | ⟨_, _, rfl⟩ <;> exact hs
  | tbuild => cases h; exact hs
  | cgen => cases h; exact hs
  | tser ch => exact execTser_streamsOk hs h
  | tdes ch => exact execTdes_streamsOk hs h
  | penc ch fa => exact execPenc_streamsOk hs h
  | trail ch => exact execTrail_streamsOk hs h
  | pdec ch fb => exact execPdec_streamsOk hs h
  | henc fa fb => exact execHenc_streamsOk hs h
  | hdec fa fb => exact execHdec_streamsOk hs h

/-- The execution of a word keeps the stream invariants, legal or not. -/
theorem runWord_streamsOk {w : Word} {s t : State} (hs : s.StreamsOk) (h : runWord w s = .next t) : t.StreamsOk := by
  rcases runWord_cases h with ⟨i, _, h⟩ | ⟨_, _, rfl⟩
  · exact exec_streamsOk hs h
  · exact hs

/-- Settles O20: a step executes a word, writes a data register, or changes a file that no channel is bound to. -/
theorem stepKeepsStreamInvariants : Obligations.StepKeepsStreamInvariants := by
  intro s t hs h
  rcases step_cases h with ⟨mv, rest, _, hm⟩ | ⟨w, _, _, hr⟩
  · rcases hostMove_cases hm with ⟨v, _, hr⟩ | ⟨d, rfl⟩ | ⟨f, e, hb, he, rfl⟩
    · exact runWord_streamsOk (by exact hs) hr
    · exact hs
    · exact streamsOk_setFile hs (by simpa [State.writable] using hb) he
  · exact runWord_streamsOk hs hr

end Sys2Proof.Machine
end

/-! ### Frames: the tables, the data registers and the channels -/

section
namespace Sys2Proof.Machine

/-- From `s` to `t` the command `i` has left alone every table and register of R25, R26, R28, R30 and R31 that it is not named to write. -/
def TablesFramed (i : Instr) (s t : State) : Prop :=
  (writesFreq i = false → t.freq = s.freq) ∧ (writesTree i = false → t.tree = s.tree) ∧
  (writesCode i = false → t.code = s.code) ∧ (writesRes i = false → t.res = s.res) ∧
  (writesDbuf i = false → t.dbuf = s.dbuf)

/-- The usual case: a change of channels, files and STATUS only. -/
theorem tablesFramed_of_same {i : Instr} {s t : State} (hfreq : t.freq = s.freq) (htree : t.tree = s.tree) (hcode : t.code = s.code)
    (hres : t.res = s.res) (hdbuf : t.dbuf = s.dbuf) : TablesFramed i s t :=
  ⟨fun _ => hfreq, fun _ => htree, fun _ => hcode, fun _ => hres, fun _ => hdbuf⟩

theorem exec_tablesFramed {i : Instr} {s t : State} (h : exec i s = .next t) : TablesFramed i s t := by
  cases i with
  | nop => cases h; exact tablesFramed_of_same rfl rfl rfl rfl rfl
  | clrerr => cases h; exact tablesFramed_of_same rfl rfl rfl rfl rfl
  | sreset => exact ⟨nofun, nofun, nofun, nofun, nofun⟩
  | bsopen ch fa md pad =>
    rcases execBsopen_cases h with rfl | ⟨_, _, _, rfl⟩ | ⟨_, _, _, rfl⟩ <;> exact tablesFramed_of_same rfl rfl rfl rfl rfl
  | bsclose ch => rcases execBsclose_cases h with ⟨_, rfl⟩ | ⟨_, rfl⟩ <;> exact tablesFramed_of_same rfl rfl rfl rfl rfl
  | rdbit ch =>
    rcases execRdbit_cases h with ⟨_, rfl⟩ | ⟨_, _, _, _, rfl⟩ | ⟨_, _, _, rfl⟩ <;>
      exact ⟨fun _ => rfl, fun _ => rfl, fun _ => rfl, nofun, fun _ => rfl⟩
  | wrbit ch bit => rcases execWrbit_cases h with ⟨_, rfl⟩ | ⟨_, rfl⟩ <;> exact tablesFramed_of_same rfl rfl rfl rfl rfl
  | rdbits ch n =>
    rcases execRdbits_cases h with ⟨_, rfl⟩ | ⟨_, _, rfl⟩ | ⟨_, _, _, _, _, rfl⟩ <;>
      exact ⟨fun _ => rfl, fun _ => rfl, fun _ => rfl, nofun, nofun⟩
  | wrbits ch n =>
    rcases execWrbits_cases h with ⟨_, rfl⟩ | ⟨_, _, rfl⟩ | ⟨_, _, rfl⟩ <;> exact tablesFramed_of_same rfl rfl rfl rfl rfl
  | fscan fa =>
    rcases execFscan_cases h with ⟨_, rfl⟩ | ⟨_, _, rfl⟩ <;> exact ⟨nofun, fun _ => rfl, fun _ => rfl, fun _ => rfl, fun _ => rfl⟩
  | tbuild => cases h; exact ⟨fun _ => rfl, nofun, fun _ => rfl, fun _ => rfl, fun _ => rfl⟩
  | cgen => cases h; exact ⟨fun _ => rfl, fun _ => rfl, nofun, fun _ => rfl, fun _ => rfl⟩
  | tser ch => rcases execTser_cases h with ⟨_, rfl⟩ | ⟨_, rfl⟩ <;> exact tablesFramed_of_same rfl rfl rfl rfl rfl
  | tdes ch =>
    rcases execTdes_cases h with ⟨_, rfl⟩ | ⟨_, _, _, _, rfl⟩ | ⟨_, _, _, rfl⟩ <;>
      exact ⟨fun _ => rfl, nofun, fun _ => rfl, fun _ => rfl, fun _ => rfl⟩
  | penc ch fa => rcases execPenc_cases h with rfl | rfl | ⟨_, _, _, rfl⟩ <;> exact tablesFramed_of_same rfl rfl rfl rfl rfl
  | trail ch => rcases execTrail_cases h with ⟨_, rfl⟩ | ⟨_, rfl⟩ <;> exact tablesFramed_of_same rfl rfl rfl rfl rfl
  | pdec ch fb =>
    rcases execPdec_cases h with rfl | ⟨_, rfl⟩ | ⟨_, _, _, _, _, _, _, rfl⟩ <;> exact tablesFramed_of_same rfl rfl rfl rfl rfl
  | henc fa fb =>
    rcases execHenc_cases h with rfl | ⟨_, _, _, _, rfl⟩ <;> exact ⟨nofun, nofun, nofun, fun _ => rfl, fun _ => rfl⟩
  | hdec fa fb =>
    rcases execHdec_cases h with rfl | ⟨_, _, _, _, _, _, rfl⟩ <;> exact ⟨nofun, nofun, nofun, fun _ => rfl, fun _ => rfl⟩

/-- Settles O16: the fields each command's next state keeps. -/
theorem tablesAndRegistersFrame : Obligations.TablesAndRegistersFrame := fun _ _ _ h => exec_tablesFramed h

/-! ### The handle of a channel under reads and writes -/

theorem Channel.load_sameHandle (c : Channel) (len : Nat) (b : Byte) : (c.load len b).sameHandle c := by
  unfold Channel.load
  split
  · split
    · exact ⟨rfl, rfl, rfl, rfl⟩
    · exact ⟨rfl, rfl, rfl, rfl⟩
  · exact ⟨rfl, rfl, rfl, rfl⟩

/-- GetBit keeps the fields fixed at open, whatever the channel holds (R21, R103). -/
theorem getBit_sameHandle (m : Memory) (c : Channel) : (getBit m c).2.sameHandle c := by
  unfold getBit
  split
  · split
    · exact c.sameHandle_refl
    · rename_i b _
      split
      · exact c.load_sameHandle _ b
      · exact Channel.sameHandle.trans ⟨rfl, rfl, rfl, rfl⟩ (c.load_sameHandle _ b)
  · exact ⟨rfl, rfl, rfl, rfl⟩

theorem getBits_sameHandle (m : Memory) (n : Nat) (c : Channel) : (getBits m n c).2.sameHandle c := by
  induction n generalizing c with
  | zero => exact c.sameHandle_refl
  | succ n ih =>
    have hh := getBit_sameHandle m c
    rcases hg : getBit m c with ⟨_ | b, c'⟩ <;> rw [hg] at hh
    · simpa [getBits, hg] using hh
    · simpa [getBits, hg] using (ih c').trans hh

/-- ParseTree keeps the fields fixed at open (R21, R147). -/
theorem parseTree_sameHandle (m : Memory) (n : Nat) (c : Channel) (seen : List Byte) : (parseTree m n c seen).2.sameHandle c := by
  induction n generalizing c seen with
  | zero => exact c.sameHandle_refl
  | succ n ih =>
    have hh := getBit_sameHandle m c
    unfold parseTree
    split
    · rename_i hg
      rwa [hg] at hh
    · rename_i c₁ hg
      rw [hg] at hh
      have hs : (readSym m 8 0#8 c₁).2.sameHandle c₁ := readSym_channel m 8 0#8 c₁ ▸ getBits_sameHandle m 8 c₁
      split
      · rename_i hr
        exact (hr ▸ hs).trans hh
      · rename_i hr
        split
        · exact (hr ▸ hs).trans hh
        · exact (hr ▸ hs).trans hh
    · rename_i c₁ hg
      rw [hg] at hh
      have hl := ih c₁ seen
      split
      · rename_i hp
        exact (hp ▸ hl).trans hh
      · rename_i l seen₁ c₂ hp
        have hr := ih c₂ seen₁
        rw [hp] at hl
        split
        · rename_i hq
          exact ((hq ▸ hr).trans hl).trans hh
        · rename_i hq
          exact ((hq ▸ hr).trans hl).trans hh

/-- PutBit keeps the fields fixed at open, whatever the channel holds (R21, R105). -/
theorem putBit_sameHandle (x : Channel × Memory) (b : Bool) : (putBit x b).1.sameHandle x.1 := by
  unfold putBit
  split
  · exact ⟨rfl, rfl, rfl, rfl⟩
  · exact ⟨rfl, rfl, rfl, rfl⟩

theorem putBits_sameHandle (x : Channel × Memory) (bits : Bits) : (putBits x bits).1.sameHandle x.1 := by
  induction bits generalizing x with
  | nil => exact x.1.sameHandle_refl
  | cons b rest ih => exact (ih (putBit x b)).trans (putBit_sameHandle x b)

theorem padOut_sameHandle (fuel : Nat) (x : Channel × Memory) : (padOut fuel x).1.sameHandle x.1 := by
  induction fuel generalizing x with
  | zero => exact x.1.sameHandle_refl
  | succ fuel ih =>
    unfold padOut
    split
    · exact x.1.sameHandle_refl
    · exact (ih (putBit x false)).trans (putBit_sameHandle x false)

theorem trailer_sameHandle (x : Channel × Memory) : (trailer x).1.sameHandle x.1 :=
  (padOut_sameHandle 8 (putBit x true)).trans (putBit_sameHandle x true)

/-! ### The channel a command names -/

/-- From `s` to `t` the command `i` has left channel `ch` alone unless it names it, and its handle unless it opens or closes it. -/
def ChannelFramed (i : Instr) (s t : State) (ch : ChanId) : Prop :=
  (channelOf i ≠ some ch → t.chan ch = s.chan ch) ∧
  ((∀ fa md pad, i ≠ .bsopen ch fa md pad) → i ≠ .bsclose ch → (t.chan ch).sameHandle (s.chan ch))

theorem channelFramed_of_same {i : Instr} {s t : State} {ch : ChanId} (h : t.chan ch = s.chan ch) : ChannelFramed i s t ch :=
  ⟨fun _ => h, fun _ _ => h ▸ Channel.sameHandle_refl _⟩

/-- A command that moves the channel it names on in its stream. -/
theorem channelFramed_of_moved {i : Instr} {s t : State} {k : ChanId} {c : Channel} (hi : channelOf i = some k)
    (ht : t.bs = (s.setChan k c).bs) (hc : c.sameHandle (s.chan k)) (ch : ChanId) : ChannelFramed i s t ch := by
  have hchan : t.chan ch = (s.setChan k c).chan ch := by rw [State.chan, ht, State.chan]
  by_cases h : ch = k
  · subst h
    rw [State.chan_setChan_self] at hchan
    exact ⟨fun hne => absurd hi hne, fun _ _ => hchan ▸ hc⟩
  · exact channelFramed_of_same (hchan.trans (State.chan_setChan_of_ne s c h))

theorem exec_channelFramed {i : Instr} {s t : State} (h : exec i s = .next t) (hi : i ≠ .sreset) (ch : ChanId) :
    ChannelFramed i s t ch := by
  cases i with
  | nop => cases h; exact channelFramed_of_same rfl
  | clrerr => cases h; exact channelFramed_of_same rfl
  | sreset => exact absurd rfl hi
  | bsopen k fa md pad =>
    by_cases hk : ch = k
    · subst hk
      exact ⟨fun hne => absurd rfl hne, fun hne => absurd rfl (hne fa md pad)⟩
    · rcases execBsopen_cases h with rfl | ⟨_, _, _, rfl⟩ | ⟨_, _, _, rfl⟩
      · exact channelFramed_of_same rfl
      · exact channelFramed_of_same (State.chan_setChan_of_ne s _ hk)
      · exact channelFramed_of_same (State.chan_setChan_of_ne s _ hk)
  | bsclose k =>
    by_cases hk : ch = k
    · subst hk
      exact ⟨fun hne => absurd rfl hne, fun _ hne => absurd rfl hne⟩
    · rcases execBsclose_cases h with ⟨_, rfl⟩ | ⟨_, rfl⟩
      · exact channelFramed_of_same rfl
      · exact channelFramed_of_same (State.chan_setChan_of_ne s _ hk)
  | rdbit k =>
    have hh := getBit_sameHandle s.files (s.chan k)
    rcases execRdbit_cases h with ⟨_, rfl⟩ | ⟨_, _, _, hg, rfl⟩ | ⟨_, _, hg, rfl⟩
    · exact channelFramed_of_same rfl
    · exact channelFramed_of_moved rfl rfl (by rwa [hg] at hh) ch
    · exact channelFramed_of_moved rfl rfl (by rwa [hg] at hh) ch
  | wrbit k bit =>
    rcases execWrbit_cases h with ⟨_, rfl⟩ | ⟨_, rfl⟩
    · exact channelFramed_of_same rfl
    · exact channelFramed_of_moved rfl rfl (putBit_sameHandle (s.chan k, s.files) bit) ch
  | rdbits k n =>
    have hh := getBits_sameHandle s.files n (s.chan k)
    rcases execRdbits_cases h with ⟨_, rfl⟩ | ⟨_, _, rfl⟩ | ⟨_, _, _, _, hg, rfl⟩
    · exact channelFramed_of_same rfl
    · exact channelFramed_of_same rfl
    · exact channelFramed_of_moved rfl rfl (by rwa [hg] at hh) ch
  | wrbits k n =>
    rcases execWrbits_cases h with ⟨_, rfl⟩ | ⟨_, _, rfl⟩ | ⟨_, _, rfl⟩
    · exact channelFramed_of_same rfl
    · exact channelFramed_of_same rfl
    · exact channelFramed_of_moved rfl rfl (putBits_sameHandle (s.chan k, s.files) _) ch
  | fscan fa => rcases execFscan_cases h with ⟨_, rfl⟩ | ⟨_, _, rfl⟩ <;> exact channelFramed_of_same rfl
  | tbuild => cases h; exact channelFramed_of_same rfl
  | cgen => cases h; exact channelFramed_of_same rfl
  | tser k =>
    rcases execTser_cases h with ⟨_, rfl⟩ | ⟨_, rfl⟩
    · exact channelFramed_of_same rfl
    · rw [emitTree_eq]
      exact channelFramed_of_moved rfl rfl (putBits_sameHandle (s.chan k, s.files) _) ch
  | tdes k =>
    have hh : (parseDictionary s.files (s.chan k)).2.sameHandle (s.chan k) := parseTree_sameHandle s.files _ (s.chan k) []
    rcases execTdes_cases h with ⟨_, rfl⟩ | ⟨_, _, _, hp, rfl⟩ | ⟨_, _, hp, rfl⟩
    · exact channelFramed_of_same rfl
    · exact channelFramed_of_moved rfl rfl (by rwa [hp] at hh) ch
    · exact channelFramed_of_moved rfl rfl (by rwa [hp] at hh) ch
  | penc k fa =>
    rcases execPenc_cases h with rfl | rfl | ⟨_, _, _, rfl⟩
    · exact channelFramed_of_same rfl
    · exact channelFramed_of_same rfl
    · exact channelFramed_of_moved rfl rfl (putBits_sameHandle (s.chan k, s.files) _) ch
  | trail k =>
    rcases execTrail_cases h with ⟨_, rfl⟩ | ⟨_, rfl⟩
    · exact channelFramed_of_same rfl
    · exact channelFramed_of_moved rfl rfl (trailer_sameHandle (s.chan k, s.files)) ch
  | pdec k fb =>
    have hh : (readResidual (s.files.truncate fb) (s.chan k)).2.sameHandle (s.chan k) := getBits_sameHandle _ _ _
    rcases execPdec_cases h with rfl | ⟨_, rfl⟩ | ⟨_, _, _, _, _, _, hr, rfl⟩
    · exact channelFramed_of_same rfl
    · exact channelFramed_of_same rfl
    · exact channelFramed_of_moved rfl rfl (by rwa [hr] at hh) ch
  | henc fa fb => rcases execHenc_cases h with rfl | ⟨_, _, _, _, rfl⟩ <;> exact channelFramed_of_same rfl
  | hdec fa fb => rcases execHdec_cases h with rfl | ⟨_, _, _, _, _, _, rfl⟩ <;> exact channelFramed_of_same rfl

/-- Settles O17: a command moves or replaces at most the channel it names. -/
theorem channelsFrame : Obligations.ChannelsFrame := fun _ _ _ ch h hi => exec_channelFramed h hi ch

end Sys2Proof.Machine
end

/-! ### The tree Build makes -/

section
namespace Sys2Proof.Machine

theorem mem_leavesOf (F : FreqTable) (t : HTree) : t ∈ leavesOf F ↔ ∃ b, 0 < F.get b ∧ t = .leaf b (F.get b) := by
  simp only [leavesOf, List.mem_filterMap, List.mem_range, Option.ite_none_right_eq_some, Option.some.injEq]
  constructor
  · rintro ⟨i, _, hpos, rfl⟩
    exact ⟨_, hpos, rfl⟩
  · rintro ⟨b, hpos, rfl⟩
    exact ⟨b.toNat, b.isLt, by simpa using hpos, by simp⟩

/-- The initial list has the counted symbols in ascending order, each once (R121 (i)). -/
theorem leavesOf_pairwise (F : FreqTable) : (leavesOf F).Pairwise fun t u =>
    ∃ a b v w, t = .leaf a v ∧ u = .leaf b w ∧ a.toNat < b.toNat := by
  rw [leavesOf, List.pairwise_filterMap]
  refine List.pairwise_lt_range.imp_of_mem fun {i j} hi hj hij t ht u hu => ?_
  simp only [Option.ite_none_right_eq_some, Option.some.injEq] at ht hu
  refine ⟨_, _, _, _, ht.2.symm, hu.2.symm, ?_⟩
  rw [List.mem_range] at hi hj
  simp only [BitVec.toNat_ofNat]
  omega

/-- The merging loop keeps what sorting and merging keep: a property of the initial list holds of the tree as a list of its own (R121). -/
theorem mergeLoop_induction {P : List HTree → Prop} (hperm : ∀ L M, L.Perm M → P L → P M)
    (hmerge : ∀ a b rest, P (a :: b :: rest) → P (rest ++ [.node a b (a.weight + b.weight)]))
    {fuel : Nat} {L : List HTree} {t : HTree} (hL : P L) (hfuel : L.length ≤ fuel) (h : mergeLoop fuel L = some t) : P [t] := by
  induction fuel generalizing L with
  | zero =>
    obtain rfl := List.eq_nil_of_length_eq_zero (Nat.le_zero.1 hfuel)
    cases h
  | succ fuel ih =>
    have hsort := hperm _ _ (sortByWeight_perm L).symm hL
    have hlen := length_sortByWeight L
    rw [mergeLoop] at h
    match hS : sortByWeight L with
    | [] => simp [hS] at h
    | [a] =>
      simp only [hS, List.head?_cons, Option.some.injEq] at h
      rwa [hS, h] at hsort
    | a :: b :: rest =>
      rw [hS] at h hsort hlen
      refine ih (hmerge a b rest hsort) ?_ h
      simp only [List.length_cons, List.length_append, List.length_nil] at hlen ⊢
      omega

/-- The invariant of the builder's list (R26, R27, R121): every leaf of every node is another symbol, weights are sums, and every leaf counts
at least one. -/
def ForestOk (L : List HTree) : Prop :=
  (L.flatMap HTree.syms).Nodup ∧ ∀ t ∈ L, t.sums = true ∧ ∀ w ∈ t.leafWeights, 1 ≤ w

theorem ForestOk.perm {L M : List HTree} (hp : L.Perm M) (h : ForestOk L) : ForestOk M :=
  ⟨(hp.flatMap_right _).nodup_iff.1 h.1, fun t ht => h.2 t (hp.mem_iff.2 ht)⟩

theorem ForestOk.merge {a b : HTree} {rest : List HTree} (h : ForestOk (a :: b :: rest)) :
    ForestOk (rest ++ [.node a b (a.weight + b.weight)]) := by
  obtain ⟨hnd, hall⟩ := h
  obtain ⟨hsa, hla⟩ := hall a (by simp)
  obtain ⟨hsb, hlb⟩ := hall b (by simp)
  refine ⟨?_, fun t ht => ?_⟩
  · have hperm : ((a :: b :: rest).flatMap HTree.syms).Perm
        ((rest ++ [HTree.node a b (a.weight + b.weight)]).flatMap HTree.syms) := by
      simpa [HTree.syms] using List.perm_append_comm (l₁ := a.syms ++ b.syms) (l₂ := rest.flatMap HTree.syms)
    exact hperm.nodup_iff.1 hnd
  · rcases List.mem_append.1 ht with ht | ht
    · exact hall t (by simp [ht])
    · obtain rfl := List.mem_singleton.1 ht
      refine ⟨by simp [HTree.sums, hsa, hsb], fun w hw => ?_⟩
      exact (List.mem_append.1 hw).elim (hla w) (hlb w)

theorem forestOk_leavesOf (F : FreqTable) : ForestOk (leavesOf F) := by
  refine ⟨List.nodup_flatMap.2 ⟨fun t ht => ?_, (leavesOf_pairwise F).imp ?_⟩, fun t ht => ?_⟩
  · obtain ⟨b, _, rfl⟩ := (mem_leavesOf F t).1 ht
    exact List.nodup_singleton b
  · rintro _ _ ⟨a, b, v, w, rfl, rfl, hlt⟩
    exact List.disjoint_singleton.2 (by
      simp only [HTree.syms, List.mem_singleton]
      rintro rfl
      exact Nat.lt_irrefl _ hlt)
  · obtain ⟨b, hpos, rfl⟩ := (mem_leavesOf F t).1 ht
    exact ⟨rfl, fun w hw => List.mem_singleton.1 hw ▸ hpos⟩

/-- The tree that Build makes meets the invariant of TREE, and every leaf counts at least one (R27, R121). -/
theorem build_ok {F : FreqTable} {t : HTree} (h : build F = some t) : t.Ok := by
  obtain ⟨hnd, hall⟩ := mergeLoop_induction (fun _ _ => ForestOk.perm) (fun _ _ _ => ForestOk.merge) (forestOk_leavesOf F) le_rfl h
  obtain ⟨hsums, hpos⟩ := hall t (List.mem_singleton_self t)
  exact ⟨by simpa using hnd, hsums, .inl hpos⟩

/-! ### The tree ParseTree makes -/

/-- A parse that gives a tree read a leaf with a new symbol, or two subtrees one after the other (R147). -/
theorem parseTree_some_cases {m : Memory} {n : Nat} {c c' : Channel} {seen seen' : List Byte} {t : HTree}
    (h : parseTree m (n + 1) c seen = (some (t, seen'), c')) :
    (∃ sym, sym ∉ seen ∧ t = .leaf sym 0 ∧ seen' = sym :: seen) ∨
    (∃ l r c₁ c₂ seen₁, parseTree m n c₁ seen = (some (l, seen₁), c₂) ∧ parseTree m n c₂ seen₁ = (some (r, seen'), c') ∧
      t = .node l r 0) := by
  unfold parseTree at h
  split at h
  · cases h
  · split at h
    · cases h
    · rename_i sym _ _
      split at h
      · cases h
      · rename_i hnew
        cases h
        exact .inl ⟨sym, by simpa using hnew, rfl, rfl⟩
  · rename_i c₁ _
    split at h
    · cases h
    · rename_i l seen₁ c₂ hl
      split at h
      · cases h
      · rename_i r seen₂ c₃ hr
        cases h
        exact .inr ⟨l, r, c₁, c₂, seen₁, hl, hr, rfl⟩

/-- What a parse gives (R147): the symbols seen grow by the tree's own, all distinct, and every weight is 0. -/
theorem parseTree_some {m : Memory} {n : Nat} {c c' : Channel} {seen seen' : List Byte} {t : HTree}
    (h : parseTree m n c seen = (some (t, seen'), c')) (hs : seen.Nodup) :
    seen'.Nodup ∧ seen'.Perm (t.syms ++ seen) ∧ t.zeroed = t := by
  induction n generalizing c c' seen seen' t with
  | zero => cases h
  | succ n ih =>
    rcases parseTree_some_cases h with ⟨sym, hnew, rfl, rfl⟩ | ⟨l, r, c₁, c₂, seen₁, hl, hr, rfl⟩
    · exact ⟨List.nodup_cons.2 ⟨hnew, hs⟩, List.Perm.refl _, rfl⟩
    · obtain ⟨hs₁, hp₁, hz₁⟩ := ih hl hs
      obtain ⟨hs₂, hp₂, hz₂⟩ := ih hr hs₁
      refine ⟨hs₂, ?_, by rw [HTree.zeroed, hz₁, hz₂]⟩
      calc seen'.Perm (r.syms ++ seen₁) := hp₂
        List.Perm _ (r.syms ++ (l.syms ++ seen)) := hp₁.append_left _
        List.Perm _ (l.syms ++ (r.syms ++ seen)) := List.perm_append_comm_assoc _ _ _
        _ = (l.syms ++ r.syms) ++ seen := (List.append_assoc _ _ _).symm

@[simp] theorem HTree.weight_zeroed (t : HTree) : t.zeroed.weight = 0 := by cases t <;> rfl

theorem HTree.sums_zeroed (t : HTree) : t.zeroed.sums = true := by
  induction t with
  | leaf b w => rfl
  | node l r w ihl ihr => simp [HTree.zeroed, HTree.sums, ihl, ihr]

theorem HTree.leafWeights_zeroed (t : HTree) : ∀ w ∈ t.zeroed.leafWeights, w = 0 := by
  induction t with
  | leaf b w => exact fun _ hw => List.mem_singleton.1 hw
  | node l r w ihl ihr => exact fun w hw => (List.mem_append.1 hw).elim (ihl w) (ihr w)

/-- The tree that a dictionary parses to meets the invariant of TREE, and every weight is 0 (R27, R147). -/
theorem parseDictionary_ok {m : Memory} {c c' : Channel} {t : HTree} (h : parseDictionary m c = (some t, c')) : t.Ok := by
  have hfst := congrArg Prod.fst h
  simp only [parseDictionary, Option.map_eq_some_iff] at hfst
  obtain ⟨⟨t, seen⟩, hp, rfl⟩ := hfst
  obtain ⟨hnd, hperm, hz⟩ := parseTree_some (Prod.ext hp rfl) List.nodup_nil
  rw [List.append_nil] at hperm
  exact ⟨hperm.nodup_iff.1 hnd, hz ▸ t.sums_zeroed, .inr (hz ▸ t.leafWeights_zeroed)⟩

/-! ### The codes of a tree -/

/-- A path that goes on from where another ended. -/
theorem HTree.follow_append (t : HTree) (p q : Bits) : t.follow (p ++ q) = (t.follow p).bind fun u => u.follow q := by
  induction p generalizing t with
  | nil => cases t <;> rfl
  | cons x p ih =>
    cases t with
    | leaf b w => rfl
    | node l r w => cases x <;> simp [HTree.follow, ih]

/-- No path to a leaf goes through another leaf (R137). -/
theorem HTree.leaf_eq_of_prefix {t : HTree} {p q : Bits} {a b : Byte} {v w : Nat} (hp : t.follow p = some (.leaf a v))
    (hq : t.follow q = some (.leaf b w)) (hpq : p <+: q) : a = b := by
  obtain ⟨r, rfl⟩ := hpq
  rw [HTree.follow_append, hp, Option.bind_some] at hq
  cases r with
  | nil => cases hq; rfl
  | cons x r => cases hq

/-- A path is no longer than the number of internal nodes that it can pass. -/
theorem HTree.length_add_inner_le {t u : HTree} {p : Bits} (h : t.follow p = some u) : p.length + u.inner ≤ t.inner := by
  induction p generalizing t with
  | nil => cases t <;> cases h <;> simp
  | cons x p ih =>
    cases t with
    | leaf b w => cases h
    | node l r w =>
      simp only [HTree.inner, List.length_cons]
      cases x with
      | false => have := ih (t := l) h; omega
      | true => have := ih (t := r) h; omega

/-- A tree has one internal node less than leaves (R123). -/
theorem HTree.inner_add_one (t : HTree) : t.inner + 1 = t.syms.length := by
  induction t with
  | leaf b w => rfl
  | node l r w ihl ihr =>
    simp only [HTree.inner, HTree.syms, List.length_append]
    omega

/-- Distinct symbols are at most 256. -/
theorem HTree.length_syms_le {t : HTree} (h : t.syms.Nodup) : t.syms.length ≤ 256 := by
  have hfin := (h.map BitVec.toFin_injective).length_le_card
  simpa using hfin

/-- The walk records at each leaf the path that leads to it (R135). -/
theorem walkCodes_get_of_mem {t : HTree} (hnd : t.syms.Nodup) (acc : Bits) (C : CodeTable) {b : Byte} (hb : b ∈ t.syms) :
    ∃ p n, (walkCodes t acc C).get b = some (acc ++ p) ∧ t.follow p = some (.leaf b n) := by
  induction t generalizing acc C with
  | leaf sym w =>
    obtain rfl := List.mem_singleton.1 hb
    exact ⟨[], w, by simp [walkCodes], rfl⟩
  | node l r w ihl ihr =>
    obtain ⟨hl, hr, hdisj⟩ := List.nodup_append.1 hnd
    rw [walkCodes]
    rcases List.mem_append.1 hb with hb | hb
    · obtain ⟨p, n, hget, hp⟩ := ihl hl (acc ++ [false]) C hb
      have hnot : b ∉ r.syms := fun hbr => hdisj b hb b hbr rfl
      exact ⟨false :: p, n, by rw [walkCodes_get_of_notMem r _ _ b hnot, hget, List.append_assoc]; rfl, hp⟩
    · obtain ⟨p, n, hget, hp⟩ := ihr hr (acc ++ [true]) (walkCodes l (acc ++ [false]) C) hb
      exact ⟨true :: p, n, by rw [hget, List.append_assoc]; rfl, hp⟩

/-- Under a tree that is a node every code is the path to its symbol's leaf (R135). -/
theorem follow_of_codes_node {l r : HTree} {k : Nat} (hnd : (HTree.node l r k).syms.Nodup) {b : Byte} {w : Bits}
    (h : (codes (some (.node l r k))).get b = some w) : ∃ n, (HTree.node l r k).follow w = some (.leaf b n) := by
  by_cases hb : b ∈ (HTree.node l r k).syms
  · obtain ⟨p, n, hget, hp⟩ := walkCodes_get_of_mem hnd [] CodeTable.empty hb
    obtain rfl := Option.some.inj (h.symm.trans hget)
    exact ⟨n, hp⟩
  · have hnone := walkCodes_get_of_notMem (HTree.node l r k) [] CodeTable.empty b hb
    rw [CodeTable.get_empty] at hnone
    cases h.symm.trans hnone

/-- The degenerate tree has one code, the bit 0 (R135, R136). -/
theorem codes_leaf_get (sym b : Byte) (k : Nat) : (codes (some (.leaf sym k))).get b = if b = sym then some [false] else none := by
  by_cases h : b = sym
  · subst h; simp [codes]
  · simp [codes, h]

theorem CodeTable.ok_empty : CodeTable.empty.Ok := by
  refine ⟨fun b w h => ?_, fun a b v w h => ?_⟩ <;> rw [CodeTable.get_empty] at h <;> cases h

/-- The codes of a tree with distinct leaves meet the invariant of CODE (R28, R137). -/
theorem codes_ok {t : HTree} (hnd : t.syms.Nodup) : (codes (some t)).Ok := by
  cases t with
  | leaf sym k =>
    have hget : ∀ {b w}, (codes (some (.leaf sym k))).get b = some w → b = sym ∧ [false] = w := by
      intro b w h
      simpa [codes_leaf_get] using h
    refine ⟨fun b w h => ?_, fun a b v w ha hb hne => ?_⟩
    · obtain ⟨_, rfl⟩ := hget h
      decide
    · exact absurd ((hget ha).1.trans (hget hb).1.symm) hne
  | node l r k =>
    refine ⟨fun b w h => ?_, fun a b v w ha hb hne hpre => ?_⟩
    · obtain ⟨n, hw⟩ := follow_of_codes_node hnd h
      have hlen := HTree.length_add_inner_le hw
      have hinner := (HTree.node l r k).inner_add_one
      have hsyms := HTree.length_syms_le hnd
      refine ⟨List.length_pos_iff.2 ?_, by simp only [Config.codeMax]; omega⟩
      rintro rfl
      cases hw
    · obtain ⟨_, hv⟩ := follow_of_codes_node hnd ha
      obtain ⟨_, hw⟩ := follow_of_codes_node hnd hb
      exact hne (HTree.leaf_eq_of_prefix hv hw hpre)

/-! ### Every step keeps the table invariants -/

/-- A short file has counts that fit 32 bits (R25, U6). -/
theorem countBytes_get_lt {m : Memory} {f : FileId} (h : m.tooLong f = false) (b : Byte) :
    (countBytes (m.data f)).get b < 4294967296 := by
  rw [countBytes_get]
  exact List.count_le_length.trans_lt (Nat.lt_of_not_le (of_decide_eq_false h))

/-- The tables as HENC, HDEC and SRESET leave them meet their invariants (R39, R180). -/
theorem tablesOk_released {s : State} (hfreq : s.freq = FreqTable.zero) (htree : s.tree = none) (hcode : s.code = CodeTable.empty) :
    s.TablesOk := by
  refine ⟨fun b => ?_, fun t h => ?_, ?_⟩
  · rw [hfreq, FreqTable.get_zero]
    decide
  · rw [htree] at h
    cases h
  · rw [hcode]
    exact CodeTable.ok_empty

/-- A command that writes none of the tables keeps their invariants. -/
theorem tablesOk_of_framed {i : Instr} {s t : State} (hs : s.TablesOk) (h : TablesFramed i s t) (hF : writesFreq i = false)
    (hT : writesTree i = false) (hC : writesCode i = false) : t.TablesOk := by
  obtain ⟨hfreq, htree, hcode, _⟩ := h
  rw [State.TablesOk, hfreq hF, htree hT, hcode hC]
  exact hs

/-- Every command keeps the table invariants: the writers put well-formed tables, the others put none. -/
theorem exec_tablesOk {i : Instr} {s t : State} (hs : s.TablesOk) (h : exec i s = .next t) : t.TablesOk := by
  have hframe := exec_tablesFramed h
  have ⟨hfreq, htree, hcode⟩ := hs
  cases i with
  | sreset => cases h; exact tablesOk_released rfl rfl rfl
  | fscan fa =>
    rcases execFscan_cases h with ⟨_, rfl⟩ | ⟨_, hl, rfl⟩
    · exact hs
    · exact ⟨countBytes_get_lt hl, htree, hcode⟩
  | tbuild => cases h; exact ⟨hfreq, fun _ hb => build_ok hb, hcode⟩
  | cgen =>
    cases h
    refine ⟨hfreq, htree, ?_⟩
    simp only [State.complete_code, State.setCode_code]
    cases ht : s.tree with
    | none => exact CodeTable.ok_empty
    | some tr => exact codes_ok (htree tr ht).1
  | tdes ch =>
    rcases execTdes_cases h with ⟨_, rfl⟩ | ⟨tr, c, _, hp, rfl⟩ | ⟨c, _, _, rfl⟩
    · exact hs
    · exact ⟨hfreq, fun _ ht => Option.some.inj ht ▸ parseDictionary_ok hp, hcode⟩
    · exact ⟨hfreq, nofun, hcode⟩
  | henc fa fb => rcases execHenc_cases h with rfl | ⟨_, _, _, _, rfl⟩ <;> exact tablesOk_released rfl rfl rfl
  | hdec fa fb => rcases execHdec_cases h with rfl | ⟨_, _, _, _, _, _, rfl⟩ <;> exact tablesOk_released rfl rfl rfl
  | _ => exact tablesOk_of_framed hs hframe rfl rfl rfl

/-- The execution of a word keeps the table invariants, legal or not. -/
theorem runWord_tablesOk {w : Word} {s t : State} (hs : s.TablesOk) (h : runWord w s = .next t) : t.TablesOk := by
  rcases runWord_cases h with ⟨i, _, h⟩ | ⟨_, _, rfl⟩
  · exact exec_tablesOk hs h
  · exact hs

/-- Settles O22: a step executes a word, or is a host move that touches no table. -/
theorem stepKeepsTableInvariants : Obligations.StepKeepsTableInvariants := by
  intro s t hs h
  rcases step_cases h with ⟨mv, rest, _, hm⟩ | ⟨w, _, _, hr⟩
  · rcases hostMove_cases hm with ⟨v, _, hr⟩ | ⟨d, rfl⟩ | ⟨f, e, _, _, rfl⟩
    · exact runWord_tablesOk (by exact hs) hr
    · exact hs
    · exact hs
  · exact runWord_tablesOk hs hr

/-! ### The invariants after reset -/

/-- Settles O19: the store is canonical, both channels are closed, and the tables are as a release leaves them. -/
theorem resetMeetsTheInvariants : Obligations.ResetMeetsTheInvariants := by
  have hstreams : State.reset.StreamsOk := ⟨Memory.wf_reset, Channel.ok_closed _, Channel.ok_closed _, nofun⟩
  have hregisters : State.reset.RegistersOk := by decide
  exact ⟨hstreams, hregisters, tablesOk_released rfl rfl rfl⟩

end Sys2Proof.Machine
end

/-! ### The host's register map -/

section
namespace Sys2Proof.Machine

/-- The numbers from 3 to 31 and from 64 on name no register (R33). -/
theorem regName_unused {n : Nat} (h3 : 3 ≤ n) (h : n ≤ 31 ∨ 64 ≤ n) : regName n = .unused := by
  have hd : ¬(32 ≤ n ∧ n < 64) := by omega
  simp [regName, hd, show n ≠ 0 by omega, show n ≠ 1 by omega, show n ≠ 2 by omega]

/-- A host read of `DBUF[i]` gives its value, zero-extended (R33, log 7). -/
theorem hostReadReg_dbuf (i : Fin 32) (s : State) : hostReadReg (32 + i.val) s = s.dbuf[i.val].setWidth 32 := by
  simp only [hostReadReg, regName_dbuf]

/-- A host read of an unused number gives 0 (R33). -/
theorem hostReadReg_unused {n : Nat} (h3 : 3 ≤ n) (h : n ≤ 31 ∨ 64 ≤ n) (s : State) : hostReadReg n s = 0#32 := by
  simp only [hostReadReg, regName_unused h3 h]

/-- Settles O8: the reads by register number, and the two equations of a host write. -/
theorem registerMap : Obligations.RegisterMap := by
  intro s
  refine ⟨rfl, rfl, rfl, fun i => hostReadReg_dbuf i s, fun n h3 h => hostReadReg_unused h3 h s,
    fun n v h1 h => hostWriteReg_ignored h1 (by omega) v s, fun i v => ⟨_, hostWriteReg_dbuf i v s, rfl, ?_, fun j hj => ?_⟩⟩
  · exact Vector.getElem_set_self i.isLt
  · exact Vector.getElem_set_ne i.isLt j.isLt fun e => hj (Fin.ext e.symm)

end Sys2Proof.Machine
end

/-! ### The file store: the primitives, binding and the frame of a command -/

section
namespace Sys2Proof.Machine

/-- Settles O25: each read is a read of the entry, and each write is read back by the laws of the store. -/
theorem filePrimitives : Obligations.FilePrimitives := by
  intro m f g v off
  have hin (h : off < (m.file f).data.length) : m.read? f off = some (m.file f).data[off] := List.getElem?_eq_getElem h
  have hpast (h : (m.file f).data.length ≤ off) : m.read? f off = none := List.getElem?_eq_none h
  exact ⟨rfl, rfl, hin, hpast, m.file_append_self f v, m.file_truncate_self f,
    fun hg => ⟨m.file_append_of_ne v hg, m.file_truncate_of_ne hg⟩⟩

/-- A file is writable when no open channel is bound to it (R59). -/
theorem State.writable_iff (s : State) (f : FileId) :
    s.writable f = true ↔ ∀ ch, ¬ ((s.chan ch).isOpen = true ∧ (s.chan ch).fid = f) := by
  rw [State.writable, Bool.not_eq_true', ← Bool.not_eq_true, s.bound_iff, not_exists]

/-- A file is readable when it exists and no open channel writes it (R59). -/
theorem State.readable_iff (s : State) (f : FileId) :
    s.readable f = true ↔ s.files.fileExists f = true ∧
      ∀ ch, ¬ ((s.chan ch).isOpen = true ∧ (s.chan ch).fid = f ∧ (s.chan ch).mode = .wr) := by
  rw [State.readable, Bool.and_eq_true, Bool.not_eq_true', ← Bool.not_eq_true, s.writeBound_iff, not_exists]
  simp only [and_assoc]

/-- Settles O26: the two predicates are the absence of a binding and of a write binding. -/
theorem readableAndWritable : Obligations.ReadableAndWritable := fun s f => ⟨s.readable_iff f, s.writable_iff f⟩

/-! ### Appending to one file -/

/-- `n` is the store `m` after bytes, if any, were appended to file `f`: the bytes already there stay, and no other file changes
(R51, R57). It asks for no invariant of the channel that appends, unlike `Grew`. -/
structure Memory.Extends (m : Memory) (f : FileId) (n : Memory) : Prop where
  others : ∀ g, g ≠ f → n.file g = m.file g
  kept : m.data f <+: n.data f

theorem Memory.Extends.refl (m : Memory) (f : FileId) : m.Extends f m := ⟨fun _ _ => rfl, List.prefix_rfl⟩

theorem Memory.Extends.trans {m n k : Memory} {f : FileId} (h : m.Extends f n) (h' : n.Extends f k) : m.Extends f k :=
  ⟨fun g hg => (h'.others g hg).trans (h.others g hg), h.kept.trans h'.kept⟩

theorem Memory.extends_append (m : Memory) (f : FileId) (v : Byte) : m.Extends f (m.append f v) :=
  ⟨fun _ hg => m.file_append_of_ne v hg, m.data_append_self f v ▸ List.prefix_append _ _⟩

/-- An append to `f` leaves every byte of every file. -/
theorem Memory.Extends.data_prefix {m n : Memory} {f : FileId} (h : m.Extends f n) (g : FileId) : m.data g <+: n.data g := by
  by_cases hg : g = f
  · exact hg ▸ h.kept
  · rw [(Memory.read_congr (h.others g hg)).1]

/-- A byte already in a file reads the same after bytes were appended to the file. -/
theorem Memory.read?_of_data_prefix {m n : Memory} {f : FileId} (h : m.data f <+: n.data f) {off : Nat}
    (ho : off < m.fileLen f) : n.read? f off = m.read? f off := by
  obtain ⟨vs, hvs⟩ := h
  rw [Memory.read?, ← hvs, List.getElem?_append_left ho, Memory.read?]

/-- PutBit appends to its channel's file, whatever the channel holds (R105). -/
theorem putBit_extends (x : Channel × Memory) (b : Bool) : x.2.Extends x.1.fid (putBit x b).2 := by
  unfold putBit
  split
  · exact x.2.extends_append x.1.fid _
  · exact .refl _ _

/-- After a PutBit, an operation that appends to the file of the channel it is given. -/
theorem extends_of_putBit {x : Channel × Memory} {b : Bool} {n : Memory}
    (h : (putBit x b).2.Extends (putBit x b).1.fid n) : x.2.Extends x.1.fid n := by
  obtain ⟨_, _, _, hfid⟩ := putBit_sameHandle x b
  exact (putBit_extends x b).trans (hfid ▸ h)

theorem putBits_extends (x : Channel × Memory) (bits : Bits) : x.2.Extends x.1.fid (putBits x bits).2 := by
  induction bits generalizing x with
  | nil => exact .refl _ _
  | cons b rest ih => exact extends_of_putBit (ih (putBit x b))

theorem padOut_extends (fuel : Nat) (x : Channel × Memory) : x.2.Extends x.1.fid (padOut fuel x).2 := by
  induction fuel generalizing x with
  | zero => exact .refl _ _
  | succ fuel ih =>
    unfold padOut
    split
    · exact .refl _ _
    · exact extends_of_putBit (ih (putBit x false))

theorem trailer_extends (x : Channel × Memory) : x.2.Extends x.1.fid (trailer x).2 :=
  extends_of_putBit (padOut_extends 8 (putBit x true))

/-! ### The file a command stores to -/

/-- From `s` to `t` the command `i` has left file `f` alone unless it stores to it, and its bytes if it only appends. -/
def FileFramed (i : Instr) (s t : State) (f : FileId) : Prop :=
  (storesTo s i ≠ some f → t.files.file f = s.files.file f) ∧
  (appendsOnly i = true → s.files.data f <+: t.files.data f)

/-- A command, or an exit of one, that stores nothing. -/
theorem fileFramed_of_same {i : Instr} {s t : State} {f : FileId} (h : t.files = s.files) : FileFramed i s t f :=
  ⟨fun _ => by rw [h], fun _ => by rw [h]⟩

/-- A command that creates or truncates its output file `fb`. -/
theorem fileFramed_of_output {i : Instr} {s t : State} {f fb : FileId} (hi : storesTo s i = some fb) (ha : appendsOnly i = false)
    (ht : f ≠ fb → t.files.file f = s.files.file f) : FileFramed i s t f := by
  refine ⟨fun hne => ht fun e => hne (e ▸ hi), fun h => ?_⟩
  rw [ha] at h
  cases h

/-- A command that appends to the file of its open WR channel (R61). -/
theorem fileFramed_of_extends {i : Instr} {s t : State} {f : FileId} {ch : ChanId} (hi : storesTo s i = writtenFile s ch)
    (ho : s.openFor .wr ch = true) (ht : s.files.Extends (s.chan ch).fid t.files) : FileFramed i s t f := by
  have hfile : storesTo s i = some (s.chan ch).fid := hi.trans (if_pos ho)
  exact ⟨fun hne => ht.others f fun e => hne (e ▸ hfile), fun _ => ht.data_prefix f⟩

/-- BSCLOSE of an open channel: a WR channel appends to its file, an RD channel stores nothing (R102). -/
theorem fileFramed_of_flush {s t : State} {f : FileId} {ch : ChanId} (ho : (s.chan ch).isOpen = true)
    (ht : t.files = (s.chan ch).flush s.files) : FileFramed (.bsclose ch) s t f := by
  rcases (s.chan ch).flush_cases s.files with h | ⟨hmode, v, h⟩
  · exact fileFramed_of_same (ht.trans h)
  · refine fileFramed_of_extends rfl ((s.openFor_iff .wr ch).2 ⟨ho, hmode⟩) ?_
    rw [ht, h]
    exact s.files.extends_append _ v

theorem exec_fileFramed {i : Instr} {s t : State} (h : exec i s = .next t) (f : FileId) : FileFramed i s t f := by
  cases i with
  | nop => cases h; exact fileFramed_of_same rfl
  | clrerr => cases h; exact fileFramed_of_same rfl
  | sreset => cases h; exact fileFramed_of_same rfl
  | bsopen ch fa md pad =>
    rcases execBsopen_cases h with rfl | ⟨_, _, _, rfl⟩ | ⟨_, rfl, _, rfl⟩
    · exact fileFramed_of_same rfl
    · exact fileFramed_of_same rfl
    · exact fileFramed_of_output rfl rfl fun hf => Memory.file_truncate_of_ne s.files hf
  | bsclose ch =>
    rcases execBsclose_cases h with ⟨_, rfl⟩ | ⟨ho, rfl⟩
    · exact fileFramed_of_same rfl
    · exact fileFramed_of_flush ho rfl
  | rdbit ch => rcases execRdbit_cases h with ⟨_, rfl⟩ | ⟨_, _, _, _, rfl⟩ | ⟨_, _, _, rfl⟩ <;> exact fileFramed_of_same rfl
  | wrbit ch bit =>
    rcases execWrbit_cases h with ⟨_, rfl⟩ | ⟨ho, rfl⟩
    · exact fileFramed_of_same rfl
    · exact fileFramed_of_extends rfl ho (putBit_extends (s.chan ch, s.files) bit)
  | rdbits ch n =>
    rcases execRdbits_cases h with ⟨_, rfl⟩ | ⟨_, _, rfl⟩ | ⟨_, _, _, _, _, rfl⟩ <;> exact fileFramed_of_same rfl
  | wrbits ch n =>
    rcases execWrbits_cases h with ⟨_, rfl⟩ | ⟨_, _, rfl⟩ | ⟨_, ho, rfl⟩
    · exact fileFramed_of_same rfl
    · exact fileFramed_of_same rfl
    · exact fileFramed_of_extends rfl ho (putBits_extends (s.chan ch, s.files) _)
  | fscan fa => rcases execFscan_cases h with ⟨_, rfl⟩ | ⟨_, _, rfl⟩ <;> exact fileFramed_of_same rfl
  | tbuild => cases h; exact fileFramed_of_same rfl
  | cgen => cases h; exact fileFramed_of_same rfl
  | tser ch =>
    rcases execTser_cases h with ⟨_, rfl⟩ | ⟨ho, rfl⟩
    · exact fileFramed_of_same rfl
    · rw [emitTree_eq]
      exact fileFramed_of_extends rfl ho (putBits_extends (s.chan ch, s.files) _)
  | tdes ch => rcases execTdes_cases h with ⟨_, rfl⟩ | ⟨_, _, _, _, rfl⟩ | ⟨_, _, _, rfl⟩ <;> exact fileFramed_of_same rfl
  | penc ch fa =>
    rcases execPenc_cases h with rfl | rfl | ⟨ho, _, _, rfl⟩
    · exact fileFramed_of_same rfl
    · exact fileFramed_of_same rfl
    · exact fileFramed_of_extends rfl ho (putBits_extends (s.chan ch, s.files) _)
  | trail ch =>
    rcases execTrail_cases h with ⟨_, rfl⟩ | ⟨ho, rfl⟩
    · exact fileFramed_of_same rfl
    · exact fileFramed_of_extends rfl ho (trailer_extends (s.chan ch, s.files))
  | pdec ch fb =>
    rcases execPdec_cases h with rfl | ⟨_, rfl⟩ | ⟨_, _, _, _, _, _, _, rfl⟩
    · exact fileFramed_of_same rfl
    · exact fileFramed_of_same rfl
    · exact fileFramed_of_output rfl rfl fun hf => Memory.file_setFile_of_ne s.files _ hf
  | henc fa fb =>
    rcases execHenc_cases h with rfl | ⟨_, _, _, _, rfl⟩
    · exact fileFramed_of_same rfl
    · exact fileFramed_of_output rfl rfl fun hf => (encodeInto_file fb _ _ s.files).2 f hf
  | hdec fa fb =>
    rcases execHdec_cases h with rfl | ⟨_, _, _, _, _, _, rfl⟩
    · exact fileFramed_of_same rfl
    · exact fileFramed_of_output rfl rfl fun hf => Memory.file_setFile_of_ne s.files _ hf

/-- Settles O18: a file whose entry is kept reads as before, and so does a byte of a file that was appended to. -/
theorem fileStoreFrame : Obligations.FileStoreFrame := by
  intro i s t f h
  obtain ⟨hother, happend⟩ := exec_fileFramed h f
  refine ⟨fun hne => ?_, fun ha off ho => Memory.read?_of_data_prefix (happend ha) ho⟩
  obtain ⟨_, _, hexists, hread⟩ := Memory.read_congr (hother hne)
  exact ⟨hread, hexists⟩

end Sys2Proof.Machine
end

/-! ### Encodings: the rows of the opcode map, the fields of a word, and both directions of the codec -/

section
namespace Sys2Proof

/-! ### The rows -/

/-- The opcode that a row is for (R70, R71). -/
def Row.opcode (r : Row) : BitVec 8 := r.pattern.extractLsb' 24 8

/-- The word falls in the row (R71). -/
def Row.Matches (r : Row) (w : Word) : Prop := w &&& r.mask = r.pattern

theorem opcodes_nodup : (opcodeMap.map Row.opcode).Nodup := by decide

theorem mask_opcode : ∀ r ∈ opcodeMap, r.mask.extractLsb' 24 8 = BitVec.allOnes 8 := by decide

/-- Every mask covers the opcode, so a word has the opcode of the row it falls in. -/
theorem Row.Matches.opcode_eq {r : Row} {w : Word} (h : r.Matches w) (hr : r ∈ opcodeMap) : w.extractLsb' 24 8 = r.opcode := by
  rw [Row.opcode, ← h, BitVec.extractLsb'_and, mask_opcode r hr, BitVec.and_allOnes]

/-- An opcode has one row (R71). -/
theorem row_eq_of_opcode_eq {r q : Row} (hr : r ∈ opcodeMap) (hq : q ∈ opcodeMap) (h : r.opcode = q.opcode) : r = q :=
  List.inj_on_of_nodup_map opcodes_nodup hr hq h

/-- What the decoder can answer (R73): the operands of a row that the word falls in, or that there is none. -/
theorem decode_cases (w : Word) :
    (∃ r ∈ opcodeMap, r.Matches w ∧ decode w = r.operands w) ∨
    ((∀ r ∈ opcodeMap, ¬ r.Matches w) ∧ decode w = .illegal .noRow) := by
  unfold decode
  split
  · rename_i r h
    exact .inl ⟨r, List.mem_of_find?_eq_some h, by simpa [Row.Matches] using List.find?_some h, rfl⟩
  · rename_i h
    exact .inr ⟨by simpa [Row.Matches] using h, rfl⟩

/-- The decoder answers with the operands of the row that the word falls in, whichever it finds first (R71, R73). -/
theorem decode_of_matches {r : Row} {w : Word} (hr : r ∈ opcodeMap) (h : r.Matches w) : decode w = r.operands w := by
  rcases decode_cases w with ⟨q, hq, hm, hd⟩ | ⟨hnone, _⟩
  · rw [hd, row_eq_of_opcode_eq hq hr ((hm.opcode_eq hq).symm.trans (h.opcode_eq hr))]
  · exact absurd h (hnone r hr)

/-- Settles O3: both rows have the opcode of the word, and no opcode occurs twice. -/
theorem opcodeRowsAreDisjoint : Obligations.OpcodeRowsAreDisjoint := by
  intro w j k r q hj hk hr hq
  have hopcode : r.opcode = q.opcode :=
    (Row.Matches.opcode_eq hr (List.mem_of_getElem? hj)).symm.trans (Row.Matches.opcode_eq hq (List.mem_of_getElem? hk))
  have hlt : j.val < (opcodeMap.map Row.opcode).length := j.isLt
  refine Fin.ext ((List.getElem?_inj hlt opcodes_nodup).1 ?_)
  rw [List.getElem?_map, List.getElem?_map, hj, hk, Option.map_some, Option.map_some, hopcode]

/-- Settles O4: the decoder run on the eight words. -/
theorem specExampleWordsDecode : Obligations.SpecExampleWordsDecode := by
  unfold Obligations.SpecExampleWordsDecode
  decide

/-! ### The fields -/

/-- A field of the command word (R70): `read` takes from a word the value that `place` puts at the bits of `mask`, and no other bit
matters. -/
structure IsField {α : Type} (mask : Word) (place : α → Word) (read : Word → α) : Prop where
  read_place : ∀ a, read (place a) = a
  place_read : ∀ w, place (read w) = w &&& mask

section
variable {α : Type} {mask m : Word} {place : α → Word} {read : Word → α}

theorem IsField.place_and (h : IsField mask place read) (a : α) : place a &&& mask = place a := by
  rw [← h.place_read, h.read_place]

theorem IsField.place_and_of_disjoint (h : IsField mask place read) (hm : mask &&& m = 0#32) (a : α) : place a &&& m = 0#32 := by
  rw [← h.place_and a, BitVec.and_assoc, hm, BitVec.and_zero]

theorem IsField.read_eq (h : IsField mask place read) {w : Word} {a : α} (hw : w &&& mask = place a) : read w = a := by
  rw [← h.read_place (read w), h.place_read, hw, h.read_place]

end

/-- Any run of bits inside the word is a field. -/
theorem isField_extractLsb' {mask : Word} (start len : Nat) (h : start + len ≤ 32)
    (hmask : mask = (BitVec.allOnes len).setWidth 32 <<< start) :
    IsField mask (fun b : BitVec len => b.setWidth 32 <<< start) (BitVec.extractLsb' start len) := by
  subst hmask
  refine ⟨fun b => BitVec.eq_of_getLsbD_eq fun i hi => ?_, fun w => BitVec.eq_of_getLsbD_eq fun i hi => ?_⟩
  · have h32 : start + i < 32 := by omega
    simp [hi, h32]
  · by_cases hs : i < start
    · simp [hs]
    · have hadd : start + (i - start) = i := by omega
      by_cases hl : i - start < len <;> simp [hi, hs, hl, hadd]

/-- A single bit is a field. -/
theorem isField_bit {mask : Word} (i : Nat) (hi : i < 32) (hmask : mask = BitVec.twoPow 32 i) :
    IsField mask (fun b => if b then mask else 0#32) (fun w => w.getLsbD i) := by
  subst hmask
  exact ⟨fun b => by cases b <;> simp [hi], fun w => (BitVec.and_twoPow w i).symm⟩

/-- A run of four bits that holds a file id is a field. -/
theorem isField_file {mask : Word} (start : Nat) (h : start + 4 ≤ 32) (hmask : mask = (BitVec.allOnes 4).setWidth 32 <<< start) :
    IsField mask (fun f : FileId => BitVec.ofNat 32 f.val <<< start) (fun w => (w.extractLsb' start 4).toFin) := by
  have hbits := isField_extractLsb' start 4 h hmask
  refine ⟨fun f => ?_, fun w => ?_⟩
  · have hf := hbits.read_place (BitVec.ofFin f)
    rw [← BitVec.ofNat_toNat] at hf
    exact congrArg BitVec.toFin hf
  · have hw := hbits.place_read w
    rw [← BitVec.ofNat_toNat] at hw
    exact hw

theorem isField_channel : IsField 0x00F00000#32 (fun b : BitVec 4 => b.setWidth 32 <<< 20) (BitVec.extractLsb' 20 4) :=
  isField_extractLsb' 20 4 (by decide) (by decide)

theorem isField_count : IsField 0x1FF#32 (fun b : BitVec 9 => b.setWidth 32 <<< 0) (BitVec.extractLsb' 0 9) :=
  isField_extractLsb' 0 9 (by decide) (by decide)

theorem isField_fa : IsField 0x000F0000#32 faBits faOf := isField_file 16 (by decide) (by decide)

theorem isField_fb : IsField 0x0000F000#32 fbBits fbOf := isField_file 12 (by decide) (by decide)

theorem isField_pad : IsField 0x200#32 padBits padOf := isField_bit 9 (by decide) (by decide)

theorem isField_bit0 : IsField 0x1#32 bitBits bitOf := isField_bit 0 (by decide) (by decide)

theorem isField_mode : IsField 0xC00#32 modeBits modeOf := by
  refine ⟨fun a => by cases a <;> rfl, fun w => ?_⟩
  have hmask : 0xC00#32 = BitVec.twoPow 32 11 ||| BitVec.twoPow 32 10 := by decide
  rw [hmask, BitVec.and_or_distrib_left, BitVec.and_twoPow, BitVec.and_twoPow, modeOf]
  cases w.getLsbD 11 <;> cases w.getLsbD 10 <;> decide

theorem chBits_eq (ch : ChanId) : chBits ch = (BitVec.ofNat 4 ch.val).setWidth 32 <<< 20 := by revert ch; decide

theorem countBits_eq (n : Nat) : countBits n = (BitVec.ofNat 9 n).setWidth 32 <<< 0 := by rw [BitVec.shiftLeft_zero, countBits]

/-! ### A placed field under a mask: itself under its own, nothing under one that leaves it out -/

@[simp] theorem chBits_and (ch : ChanId) : chBits ch &&& 0x00F00000#32 = chBits ch := chBits_eq ch ▸ isField_channel.place_and _
@[simp] theorem faBits_and (f : FileId) : faBits f &&& 0x000F0000#32 = faBits f := isField_fa.place_and f
@[simp] theorem fbBits_and (f : FileId) : fbBits f &&& 0x0000F000#32 = fbBits f := isField_fb.place_and f
@[simp] theorem modeBits_and (md : ModeArg) : modeBits md &&& 0xC00#32 = modeBits md := isField_mode.place_and md
@[simp] theorem padBits_and (p : Bool) : padBits p &&& 0x200#32 = padBits p := isField_pad.place_and p
@[simp] theorem bitBits_and (b : Bool) : bitBits b &&& 0x1#32 = bitBits b := isField_bit0.place_and b
@[simp] theorem countBits_and (n : Nat) : countBits n &&& 0x1FF#32 = countBits n := countBits_eq n ▸ isField_count.place_and _

section
variable {m : Word}

@[simp] theorem chBits_and_of_disjoint (h : 0x00F00000#32 &&& m = 0#32) (ch : ChanId) : chBits ch &&& m = 0#32 :=
  chBits_eq ch ▸ isField_channel.place_and_of_disjoint h _
@[simp] theorem faBits_and_of_disjoint (h : 0x000F0000#32 &&& m = 0#32) (f : FileId) : faBits f &&& m = 0#32 :=
  isField_fa.place_and_of_disjoint h f
@[simp] theorem fbBits_and_of_disjoint (h : 0x0000F000#32 &&& m = 0#32) (f : FileId) : fbBits f &&& m = 0#32 :=
  isField_fb.place_and_of_disjoint h f
@[simp] theorem modeBits_and_of_disjoint (h : 0xC00#32 &&& m = 0#32) (md : ModeArg) : modeBits md &&& m = 0#32 :=
  isField_mode.place_and_of_disjoint h md
@[simp] theorem padBits_and_of_disjoint (h : 0x200#32 &&& m = 0#32) (p : Bool) : padBits p &&& m = 0#32 :=
  isField_pad.place_and_of_disjoint h p
@[simp] theorem bitBits_and_of_disjoint (h : 0x1#32 &&& m = 0#32) (b : Bool) : bitBits b &&& m = 0#32 :=
  isField_bit0.place_and_of_disjoint h b
@[simp] theorem countBits_and_of_disjoint (h : 0x1FF#32 &&& m = 0#32) (n : Nat) : countBits n &&& m = 0#32 :=
  countBits_eq n ▸ isField_count.place_and_of_disjoint h _

end

/-! ### The range checks (R73 step 2) -/

/-- The channel check passes with the channel that the word holds. -/
theorem withCh_of_field {w : Word} {ch : ChanId} (h : w &&& 0x00F00000#32 = chBits ch) (k : ChanId → Decoded) :
    withCh w k = k ch := by
  have hread : w.extractLsb' 20 4 = BitVec.ofNat 4 ch.val := isField_channel.read_eq (h.trans (chBits_eq ch))
  have hval : (w.extractLsb' 20 4).toNat = ch.val := by
    rw [hread, BitVec.toNat_ofNat, Nat.mod_eq_of_lt (by omega)]
  have hlt : (w.extractLsb' 20 4).toNat < 2 := hval ▸ ch.isLt
  rw [withCh, dif_pos hlt]
  exact congrArg k (Fin.ext hval)

/-- A channel of 2 or more is illegal (R74). -/
theorem withCh_of_ge {w : Word} (h : 2 ≤ (w.extractLsb' 20 4).toNat) (k : ChanId → Decoded) :
    withCh w k = .illegal .channelOutOfRange := dif_neg (Nat.not_lt.2 h)

/-- The channel check passes only on a word whose channel field is that of a channel. -/
theorem withCh_cases (w : Word) (k : ChanId → Decoded) :
    (∃ ch, chBits ch = w &&& 0x00F00000#32 ∧ withCh w k = k ch) ∨ withCh w k = .illegal .channelOutOfRange := by
  by_cases h : (w.extractLsb' 20 4).toNat < 2
  · refine .inl ⟨⟨_, h⟩, ?_, dif_pos h⟩
    rw [chBits_eq, ← isField_channel.place_read w, BitVec.ofNat_toNat, BitVec.setWidth_eq]
  · exact .inr (dif_neg h)

/-- The count check passes with the count that the word holds. -/
theorem withCount_of_field {w : Word} {n : Nat} (hn : n ≤ Config.bulkMax) (h : w &&& 0x1FF#32 = countBits n)
    (k : Nat → Decoded) : withCount w k = k n := by
  have hread : w.extractLsb' 0 9 = BitVec.ofNat 9 n := isField_count.read_eq (h.trans (countBits_eq n))
  have hval : (w.extractLsb' 0 9).toNat = n := by
    rw [hread, BitVec.toNat_ofNat, Nat.mod_eq_of_lt (Nat.lt_of_le_of_lt hn (by decide))]
  rw [withCount, hval, if_pos hn]

/-- A count of more than 256 is illegal (R74). -/
theorem withCount_of_gt {w : Word} (h : Config.bulkMax < (w.extractLsb' 0 9).toNat) (k : Nat → Decoded) :
    withCount w k = .illegal .countOutOfRange := if_neg (Nat.not_le.2 h)

/-- The count check passes only on a word whose count field is that of a legal count. -/
theorem withCount_cases (w : Word) (k : Nat → Decoded) :
    (∃ n ≤ Config.bulkMax, countBits n = w &&& 0x1FF#32 ∧ withCount w k = k n) ∨
    withCount w k = .illegal .countOutOfRange := by
  by_cases h : (w.extractLsb' 0 9).toNat ≤ Config.bulkMax
  · refine .inl ⟨_, h, ?_, if_pos h⟩
    rw [countBits_eq, ← isField_count.place_read w, BitVec.ofNat_toNat, BitVec.setWidth_eq]
  · exact .inr (if_neg h)

/-- A decoded command passed the channel check. -/
theorem withCh_eq_instr {w : Word} {k : ChanId → Decoded} {i : Instr} (h : withCh w k = .instr i) :
    ∃ ch, chBits ch = w &&& 0x00F00000#32 ∧ k ch = .instr i := by
  rcases withCh_cases w k with ⟨ch, hch, hk⟩ | hbad
  · exact ⟨ch, hch, hk.symm.trans h⟩
  · cases hbad.symm.trans h

/-- A decoded command passed the count check. -/
theorem withCount_eq_instr {w : Word} {k : Nat → Decoded} {i : Instr} (h : withCount w k = .instr i) :
    ∃ n ≤ Config.bulkMax, countBits n = w &&& 0x1FF#32 ∧ k n = .instr i := by
  rcases withCount_cases w k with ⟨n, hn, hcount, hk⟩ | hbad
  · exact ⟨n, hn, hcount, hk.symm.trans h⟩
  · cases hbad.symm.trans h

/-! ### Decoding what was encoded -/

/-- The command's word falls in the row and holds the operands of the command. -/
def Row.Codes (r : Row) (i : Instr) : Prop := r.Matches (encode i) ∧ r.operands (encode i) = .instr i

theorem decode_encode_of_row {i : Instr} (k : Nat) (hk : k < opcodeMap.length) (h : opcodeMap[k].Codes i) :
    decode (encode i) = .instr i :=
  (decode_of_matches (List.getElem_mem hk) h.1).trans h.2

theorem codes_of_channel {p : Word} {f : ChanId → Instr} (hp : p &&& 0xFF0FFFFF#32 = p ∧ p &&& 0x00F00000#32 = 0#32)
    (he : ∀ ch, encode (f ch) = p ||| chBits ch) (ch : ChanId) :
    Row.Codes ⟨0xFF0FFFFF#32, p, fun w => withCh w fun ch => .instr (f ch)⟩ (f ch) := by
  have hch : encode (f ch) &&& 0x00F00000#32 = chBits ch := by simp [he, BitVec.and_or_distrib_right, hp]
  exact ⟨by simp [Row.Matches, he, BitVec.and_or_distrib_right, hp], by simp only [withCh_of_field hch]⟩

theorem codes_of_count {p : Word} {f : ChanId → Nat → Instr}
    (hp : p &&& 0xFF0FFE00#32 = p ∧ p &&& 0x00F00000#32 = 0#32 ∧ p &&& 0x1FF#32 = 0#32)
    (he : ∀ ch n, encode (f ch n) = p ||| chBits ch ||| countBits n) (ch : ChanId) {n : Nat} (hn : n ≤ Config.bulkMax) :
    Row.Codes ⟨0xFF0FFE00#32, p, fun w => withCh w fun ch => withCount w fun n => .instr (f ch n)⟩ (f ch n) := by
  have hch : encode (f ch n) &&& 0x00F00000#32 = chBits ch := by simp [he, BitVec.and_or_distrib_right, hp]
  have hcount : encode (f ch n) &&& 0x1FF#32 = countBits n := by simp [he, BitVec.and_or_distrib_right, hp]
  exact ⟨by simp [Row.Matches, he, BitVec.and_or_distrib_right, hp],
    by simp only [withCh_of_field hch, withCount_of_field hn hcount]⟩

theorem codes_of_files {p : Word} {f : FileId → FileId → Instr}
    (hp : p &&& 0xFFF00FFF#32 = p ∧ p &&& 0x000F0000#32 = 0#32 ∧ p &&& 0x0000F000#32 = 0#32)
    (he : ∀ fa fb, encode (f fa fb) = p ||| faBits fa ||| fbBits fb) (fa fb : FileId) :
    Row.Codes ⟨0xFFF00FFF#32, p, fun w => .instr (f (faOf w) (fbOf w))⟩ (f fa fb) := by
  have hfa : faOf (encode (f fa fb)) = fa := isField_fa.read_eq (by simp [he, BitVec.and_or_distrib_right, hp])
  have hfb : fbOf (encode (f fa fb)) = fb := isField_fb.read_eq (by simp [he, BitVec.and_or_distrib_right, hp])
  exact ⟨by simp [Row.Matches, he, BitVec.and_or_distrib_right, hp], by simp only [hfa, hfb]⟩

/-- A row with a channel and one more field. -/
theorem codes_of_channel_field {α : Type} {place : α → Word} {read : Word → α} {mask m p : Word}
    {f : ChanId → α → Instr} (hfield : IsField m place read)
    (hp : p &&& mask = p ∧ p &&& 0x00F00000#32 = 0#32 ∧ p &&& m = 0#32)
    (hmask : 0x00F00000#32 &&& mask = 0#32 ∧ m &&& mask = 0#32) (hm : 0x00F00000#32 &&& m = 0#32)
    (he : ∀ ch a, encode (f ch a) = p ||| chBits ch ||| place a) (ch : ChanId) (a : α) :
    Row.Codes ⟨mask, p, fun w => withCh w fun ch => .instr (f ch (read w))⟩ (f ch a) := by
  obtain ⟨hpmask, hpch, hpm⟩ := hp
  have hplace := hfield.place_and_of_disjoint ((BitVec.and_comm m _).trans hm) a
  have hch : encode (f ch a) &&& 0x00F00000#32 = chBits ch := by simp [he, BitVec.and_or_distrib_right, hpch, hplace]
  have hread : read (encode (f ch a)) = a :=
    hfield.read_eq (by simp [he, BitVec.and_or_distrib_right, hpm, chBits_and_of_disjoint hm, hfield.place_and])
  refine ⟨?_, by simp only [withCh_of_field hch, hread]⟩
  simp [Row.Matches, he, BitVec.and_or_distrib_right, hpmask, chBits_and_of_disjoint hmask.1,
    hfield.place_and_of_disjoint hmask.2]

theorem codes_bsopen (ch : ChanId) (fa : FileId) (mode : ModeArg) (pad : Bool) : Row.Codes
    ⟨0xFF00F1FF#32, 0x10000000#32, fun w => withCh w fun ch => .instr (.bsopen ch (faOf w) (modeOf w) (padOf w))⟩
    (.bsopen ch fa mode pad) := by
  have hword : encode (.bsopen ch fa mode pad) = 0x10000000#32 ||| chBits ch ||| faBits fa ||| modeBits mode ||| padBits pad := rfl
  have hch : encode (.bsopen ch fa mode pad) &&& 0x00F00000#32 = chBits ch := by simp [hword, BitVec.and_or_distrib_right]
  have hfa : faOf (encode (.bsopen ch fa mode pad)) = fa := isField_fa.read_eq (by simp [hword, BitVec.and_or_distrib_right])
  have hmode : modeOf (encode (.bsopen ch fa mode pad)) = mode :=
    isField_mode.read_eq (by simp [hword, BitVec.and_or_distrib_right])
  have hpad : padOf (encode (.bsopen ch fa mode pad)) = pad := isField_pad.read_eq (by simp [hword, BitVec.and_or_distrib_right])
  exact ⟨by simp [Row.Matches, hword, BitVec.and_or_distrib_right],
    by simp only [withCh_of_field hch, hfa, hmode, hpad]⟩

theorem codes_fscan (fa : FileId) :
    Row.Codes ⟨0xFFF0FFFF#32, 0x20000000#32, fun w => .instr (.fscan (faOf w))⟩ (.fscan fa) := by
  have hfa : faOf (encode (.fscan fa)) = fa := isField_fa.read_eq (by simp [encode, BitVec.and_or_distrib_right])
  exact ⟨by simp [Row.Matches, encode, BitVec.and_or_distrib_right], by simp only [hfa]⟩

/-- Settles O1: the word of each command falls in its row, and each field reads back what was placed in it. -/
theorem decodeEncodeIsIdentity : Obligations.DecodeEncodeIsIdentity := by
  intro i hi
  cases i with
  | nop => rfl
  | clrerr => rfl
  | sreset => rfl
  | bsopen ch fa mode pad => exact decode_encode_of_row 3 (by decide) (codes_bsopen ch fa mode pad)
  | bsclose ch => exact decode_encode_of_row 4 (by decide) (codes_of_channel (by decide) (fun _ => rfl) ch)
  | rdbit ch => exact decode_encode_of_row 5 (by decide) (codes_of_channel (by decide) (fun _ => rfl) ch)
  | wrbit ch bit =>
    exact decode_encode_of_row 6 (by decide)
      (codes_of_channel_field isField_bit0 (by decide) (by decide) (by decide) (fun _ _ => rfl) ch bit)
  | rdbits ch n =>
    exact decode_encode_of_row 7 (by decide) (codes_of_count (by decide) (fun _ _ => rfl) ch (of_decide_eq_true hi))
  | wrbits ch n =>
    exact decode_encode_of_row 8 (by decide) (codes_of_count (by decide) (fun _ _ => rfl) ch (of_decide_eq_true hi))
  | fscan fa => exact decode_encode_of_row 9 (by decide) (codes_fscan fa)
  | tbuild => rfl
  | cgen => rfl
  | tser ch => exact decode_encode_of_row 12 (by decide) (codes_of_channel (by decide) (fun _ => rfl) ch)
  | tdes ch => exact decode_encode_of_row 13 (by decide) (codes_of_channel (by decide) (fun _ => rfl) ch)
  | penc ch fa =>
    exact decode_encode_of_row 14 (by decide)
      (codes_of_channel_field isField_fa (by decide) (by decide) (by decide) (fun _ _ => rfl) ch fa)
  | trail ch => exact decode_encode_of_row 15 (by decide) (codes_of_channel (by decide) (fun _ => rfl) ch)
  | pdec ch fb =>
    exact decode_encode_of_row 16 (by decide)
      (codes_of_channel_field isField_fb (by decide) (by decide) (by decide) (fun _ _ => rfl) ch fb)
  | henc fa fb => exact decode_encode_of_row 17 (by decide) (codes_of_files (by decide) (fun _ _ => rfl) fa fb)
  | hdec fa fb => exact decode_encode_of_row 18 (by decide) (codes_of_files (by decide) (fun _ _ => rfl) fa fb)

/-! ### Every decoded word is an encoding -/

/-- A word is the match value of its row and the bits that the row's mask leaves out. -/
theorem Row.Matches.or_fields {r : Row} {w f : Word} (h : r.Matches w) (hf : r.mask ||| f = BitVec.allOnes 32) :
    r.pattern ||| (w &&& f) = w := by
  rw [← h, ← BitVec.and_or_distrib_left, hf, BitVec.and_allOnes]

/-- Every word that falls in the row and passes its checks is the encoding of a well-formed command. -/
def Row.Exact (r : Row) : Prop :=
  ∀ (w : Word) (i : Instr), r.Matches w → r.operands w = .instr i → i.wellFormed = true ∧ encode i = w

theorem exact_of_constant {p : Word} {i : Instr} (hi : i.wellFormed = true) (he : encode i = p) :
    Row.Exact ⟨0xFFFFFFFF#32, p, fun _ => .instr i⟩ := by
  intro w j hm hj
  cases hj
  exact ⟨hi, he.trans (hm.symm.trans BitVec.and_allOnes)⟩

/-- A row that begins with the channel check. -/
theorem exact_of_withCh {mask p : Word} {k : Word → ChanId → Decoded}
    (h : ∀ w ch i, Row.Matches ⟨mask, p, fun w => withCh w (k w)⟩ w → chBits ch = w &&& 0x00F00000#32 →
      k w ch = .instr i → i.wellFormed = true ∧ encode i = w) : Row.Exact ⟨mask, p, fun w => withCh w (k w)⟩ := by
  intro w i hm (hi : withCh w (k w) = .instr i)
  obtain ⟨ch, hch, hk⟩ := withCh_eq_instr hi
  exact h w ch i hm hch hk

theorem exact_of_channel {p : Word} {f : ChanId → Instr} (hf : ∀ ch, (f ch).wellFormed = true)
    (he : ∀ ch, encode (f ch) = p ||| chBits ch) :
    Row.Exact ⟨0xFF0FFFFF#32, p, fun w => withCh w fun ch => .instr (f ch)⟩ := by
  refine exact_of_withCh fun w ch i hm hch hi => ?_
  have hmask : 0xFF0FFFFF#32 ||| 0x00F00000#32 = BitVec.allOnes 32 := by decide
  cases hi
  rw [he, hch]
  exact ⟨hf ch, hm.or_fields hmask⟩

theorem exact_of_count {p : Word} {f : ChanId → Nat → Instr} (hf : ∀ ch n, n ≤ Config.bulkMax → (f ch n).wellFormed = true)
    (he : ∀ ch n, encode (f ch n) = p ||| chBits ch ||| countBits n) :
    Row.Exact ⟨0xFF0FFE00#32, p, fun w => withCh w fun ch => withCount w fun n => .instr (f ch n)⟩ := by
  refine exact_of_withCh fun w ch i hm hch h => ?_
  have hmask : 0xFF0FFE00#32 ||| (0x00F00000#32 ||| 0x1FF#32) = BitVec.allOnes 32 := by decide
  obtain ⟨n, hn, hcount, hi⟩ := withCount_eq_instr h
  cases hi
  rw [he, hch, hcount, BitVec.or_assoc, ← BitVec.and_or_distrib_left]
  exact ⟨hf ch n hn, hm.or_fields hmask⟩

/-- A row with a channel and one more field, which has no illegal value. -/
theorem exact_of_channel_field {α : Type} {place : α → Word} {read : Word → α} {mask m p : Word}
    {f : ChanId → α → Instr} (hfield : IsField m place read) (hmask : mask ||| (0x00F00000#32 ||| m) = BitVec.allOnes 32)
    (hf : ∀ ch a, (f ch a).wellFormed = true) (he : ∀ ch a, encode (f ch a) = p ||| chBits ch ||| place a) :
    Row.Exact ⟨mask, p, fun w => withCh w fun ch => .instr (f ch (read w))⟩ := by
  refine exact_of_withCh fun w ch i hm hch hi => ?_
  cases hi
  rw [he, hch, hfield.place_read, BitVec.or_assoc, ← BitVec.and_or_distrib_left]
  exact ⟨hf _ _, hm.or_fields hmask⟩

theorem exact_bsopen : Row.Exact
    ⟨0xFF00F1FF#32, 0x10000000#32, fun w => withCh w fun ch => .instr (.bsopen ch (faOf w) (modeOf w) (padOf w))⟩ := by
  refine exact_of_withCh fun w ch i hm hch hi => ?_
  have hmask : 0xFF00F1FF#32 ||| (0x00F00000#32 ||| (0x000F0000#32 ||| (0xC00#32 ||| 0x200#32))) = BitVec.allOnes 32 := by decide
  cases hi
  simp only [encode, hch, isField_fa.place_read, isField_mode.place_read, isField_pad.place_read, BitVec.or_assoc,
    ← BitVec.and_or_distrib_left]
  exact ⟨rfl, hm.or_fields hmask⟩

theorem exact_fscan : Row.Exact ⟨0xFFF0FFFF#32, 0x20000000#32, fun w => .instr (.fscan (faOf w))⟩ := by
  intro w i hm hi
  have hmask : 0xFFF0FFFF#32 ||| 0x000F0000#32 = BitVec.allOnes 32 := by decide
  cases hi
  simp only [encode, isField_fa.place_read]
  exact ⟨rfl, hm.or_fields hmask⟩

theorem exact_of_files {p : Word} {f : FileId → FileId → Instr} (hf : ∀ fa fb, (f fa fb).wellFormed = true)
    (he : ∀ fa fb, encode (f fa fb) = p ||| faBits fa ||| fbBits fb) :
    Row.Exact ⟨0xFFF00FFF#32, p, fun w => .instr (f (faOf w) (fbOf w))⟩ := by
  intro w i hm hi
  have hmask : 0xFFF00FFF#32 ||| (0x000F0000#32 ||| 0x0000F000#32) = BitVec.allOnes 32 := by decide
  cases hi
  rw [he, isField_fa.place_read, isField_fb.place_read, BitVec.or_assoc, ← BitVec.and_or_distrib_left]
  exact ⟨hf _ _, hm.or_fields hmask⟩

/-- No row ignores a bit (R71): the mask of each covers what its operands do not use. -/
theorem opcodeMap_exact : ∀ r ∈ opcodeMap, r.Exact := by
  simp only [opcodeMap, List.forall_mem_cons]
  exact ⟨exact_of_constant rfl rfl, exact_of_constant rfl rfl, exact_of_constant rfl rfl, exact_bsopen,
    exact_of_channel (fun _ => rfl) (fun _ => rfl), exact_of_channel (fun _ => rfl) (fun _ => rfl),
    exact_of_channel_field isField_bit0 (by decide) (fun _ _ => rfl) (fun _ _ => rfl),
    exact_of_count (fun _ _ hn => decide_eq_true hn) (fun _ _ => rfl),
    exact_of_count (fun _ _ hn => decide_eq_true hn) (fun _ _ => rfl),
    exact_fscan, exact_of_constant rfl rfl, exact_of_constant rfl rfl,
    exact_of_channel (fun _ => rfl) (fun _ => rfl), exact_of_channel (fun _ => rfl) (fun _ => rfl),
    exact_of_channel_field isField_fa (by decide) (fun _ _ => rfl) (fun _ _ => rfl),
    exact_of_channel (fun _ => rfl) (fun _ => rfl),
    exact_of_channel_field isField_fb (by decide) (fun _ _ => rfl) (fun _ _ => rfl),
    exact_of_files (fun _ _ => rfl) (fun _ _ => rfl), exact_of_files (fun _ _ => rfl) (fun _ _ => rfl), nofun⟩

/-- Settles O2: the word falls in a row, and every row is exact. -/
theorem legalWordsAreEncodings : Obligations.LegalWordsAreEncodings := by
  intro w i h
  rcases decode_cases w with ⟨r, hr, hm, hd⟩ | ⟨_, hd⟩
  · exact opcodeMap_exact r hr w i hm (hd.symm.trans h)
  · cases hd.symm.trans h

/-! ### Illegal words -/

/-- The channel check comes first in every row with a channel (R73, R74). -/
theorem operands_of_channel_ge {w : Word} (h : 2 ≤ (w.extractLsb' 20 4).toNat) : ∀ r ∈ opcodeMap,
    r.opcode.toNat ∈ [0x10, 0x11, 0x12, 0x13, 0x14, 0x15, 0x23, 0x24, 0x30, 0x31, 0x32] →
    r.operands w = .illegal .channelOutOfRange := by
  simp [opcodeMap, Row.opcode, withCh_of_ge h]

/-- A count of more than 256 is illegal in both rows with a count, whatever the channel (R73, R74). -/
theorem operands_of_count_gt {w : Word} (h : Config.bulkMax < (w.extractLsb' 0 9).toNat) : ∀ r ∈ opcodeMap,
    r.opcode.toNat ∈ [0x14, 0x15] → ∃ why, r.operands w = .illegal why := by
  have hcheck (k : ChanId → Nat → Decoded) : ∃ why, withCh w (fun ch => withCount w (k ch)) = .illegal why := by
    rcases withCh_cases w fun ch => withCount w (k ch) with ⟨ch, _, hk⟩ | hbad
    · exact ⟨_, hk.trans (withCount_of_gt h _)⟩
    · exact ⟨_, hbad⟩
  simp [opcodeMap, Row.opcode, hcheck]

/-- A word is illegal when every row with its opcode rejects it (R73). -/
theorem decode_illegal_of_rows {w : Word}
    (h : ∀ r ∈ opcodeMap, w.extractLsb' 24 8 = r.opcode → r.Matches w → ∃ why, r.operands w = .illegal why) :
    ∃ why, decode w = .illegal why := by
  rcases decode_cases w with ⟨r, hr, hm, hd⟩ | ⟨_, hd⟩
  · rw [hd]
    exact h r hr (hm.opcode_eq hr) hm
  · exact ⟨_, hd⟩

/-- Settles O5: each class of R74 is rejected by the one row that the opcode has, if any, and an illegal word completes with
CmdError. -/
theorem illegalWordsEndInCmdError : Obligations.IllegalWordsEndInCmdError := by
  refine ⟨fun w hop => ?_, fun w r hr hop hm => ?_, fun w hop hch => ?_, fun w hop hn => ?_,
    fun w s why h => Machine.runWord_of_illegal h s⟩
  · exact decode_illegal_of_rows fun r hr heq => absurd heq (hop r hr)
  · refine decode_illegal_of_rows fun q hq heq hqm => absurd hqm ?_
    rw [row_eq_of_opcode_eq hq hr (heq.symm.trans hop)]
    exact hm
  · exact decode_illegal_of_rows fun r hr heq _ => ⟨_, operands_of_channel_ge hch r hr (heq ▸ hop)⟩
  · exact decode_illegal_of_rows fun r hr heq _ => operands_of_count_gt hn r hr (heq ▸ hop)

end Sys2Proof
end

/-! ### The stream formats: lengths, the dictionary, and the two special messages -/

section
namespace Sys2Proof.Machine

/-- The dictionary spends 10 bits on a leaf with the internal node that goes with it (R80). -/
theorem HTree.length_ser (t : HTree) : t.ser.length + 1 = 10 * t.syms.length := by
  induction t with
  | leaf b w => rfl
  | node l r w ihl ihr =>
    simp only [HTree.ser, HTree.syms, List.length_cons, List.length_append]
    omega

/-- Settles O44: the internal nodes and the serialised bits, each by induction on the tree. -/
theorem dictionaryLength : Obligations.DictionaryLength := fun t => ⟨t.inner_add_one, t.length_ser⟩

/-- Packing makes one byte of eight bits (R8). -/
theorem length_pack {s : Bits} (h : s.length % 8 = 0) : 8 * (pack s).length = s.length := by
  rw [← length_unpack, unpack_pack s h]

/-- A padded file has the bits written, the sentinel and the fill (R78). -/
theorem length_paddedFile (s : Bits) : 8 * (paddedFile s).length = s.length + (8 - s.length % 8) := by
  rw [paddedFile, length_pack (length_fillOut _)]
  simp only [fillOut, fill, List.length_append, List.length_replicate, List.length_singleton]
  omega

/-! ### The tree of few symbols -/

/-- Without a counted symbol there is no leaf (R121). -/
theorem leavesOf_eq_nil {F : FreqTable} (h : ∀ b, F.get b = 0) : leavesOf F = [] := by
  refine List.eq_nil_iff_forall_not_mem.2 fun t ht => ?_
  obtain ⟨b, hb, _⟩ := (mem_leavesOf F t).1 ht
  exact Nat.ne_of_gt hb (h b)

/-- With one counted symbol its leaf is the list (R121). -/
theorem leavesOf_eq_singleton {F : FreqTable} {v : Byte} (hv : 0 < F.get v) (ho : ∀ b, b ≠ v → F.get b = 0) :
    leavesOf F = [.leaf v (F.get v)] := by
  have hnodup : (leavesOf F).Nodup := (leavesOf_pairwise F).imp fun {t u} ⟨a, b, _, _, ht, hu, hlt⟩ e => by
    subst ht hu
    cases e
    exact Nat.lt_irrefl _ hlt
  refine List.perm_singleton.1 ((List.perm_ext_iff_of_nodup hnodup (List.nodup_singleton _)).2 fun t => ?_)
  rw [mem_leavesOf, List.mem_singleton]
  constructor
  · rintro ⟨b, hb, rfl⟩
    by_cases hbv : b = v
    · rw [hbv]
    · exact absurd (ho b hbv) (Nat.ne_of_gt hb)
  · rintro rfl
    exact ⟨v, hv, rfl⟩

/-- The table with no count has no tree (R121). -/
theorem build_eq_none {F : FreqTable} (h : ∀ b, F.get b = 0) : build F = none := by
  rw [build, leavesOf_eq_nil h]
  rfl

/-- The table with one counted symbol has the degenerate tree (R121). -/
theorem build_eq_leaf {F : FreqTable} {v : Byte} (hv : 0 < F.get v) (ho : ∀ b, b ≠ v → F.get b = 0) :
    build F = some (.leaf v (F.get v)) := by
  rw [build, leavesOf_eq_singleton hv ho]
  rfl

/-- The merging loop ends with a node when it begins with one (R121). -/
theorem mergeLoop_ne_none (fuel : Nat) {L : List HTree} (h : L ≠ []) : mergeLoop fuel L ≠ none := by
  induction fuel generalizing L with
  | zero => simpa [mergeLoop] using h
  | succ fuel ih =>
    have hlen := length_sortByWeight L
    rw [mergeLoop]
    match hS : sortByWeight L with
    | [] =>
      rw [hS] at hlen
      exact absurd (List.eq_nil_of_length_eq_zero hlen.symm) h
    | [a] => simp
    | a :: b :: rest => exact ih (by simp)

/-- A table with a count has a tree (R121, R122). -/
theorem exists_build_eq_some {F : FreqTable} {b : Byte} (h : 0 < F.get b) : ∃ t, build F = some t :=
  Option.ne_none_iff_exists'.1 (mergeLoop_ne_none _ (List.ne_nil_of_mem ((mem_leavesOf F _).2 ⟨b, h, rfl⟩)))

/-! ### Messages -/

/-- The message of the empty input has no bit before its trailer (R82). -/
theorem messageBits_nil : messageBits [] = [] := by
  have hbuild : build (countBytes []) = none := build_eq_none fun b => by rw [countBytes_get, List.count_nil]
  rw [messageBits, hbuild]
  rfl

/-- A dictionary is at least one leaf: a non-empty input has 9 or more bits before its trailer (R80, R81). -/
theorem length_messageBits {X : List Byte} (h : X ≠ []) : 9 ≤ (messageBits X).length := by
  obtain ⟨b, hb⟩ := List.exists_mem_of_ne_nil X h
  have hcount : 0 < (countBytes X).get b := by rw [countBytes_get]; exact List.count_pos_iff.2 hb
  obtain ⟨t, ht⟩ := exists_build_eq_some hcount
  have hser := t.length_ser
  have hinner := t.inner_add_one
  rw [messageBits, ht, List.length_append, serialise]
  omega

/-- Settles O55: the empty input leaves the trailer alone, and any other has a dictionary that fills the first byte. -/
theorem emptyMessageIsUnique : Obligations.EmptyMessageIsUnique := by
  refine ⟨?_, fun X hX => ?_⟩
  · rw [message, messageBits_nil]
    decide
  · have hbits := length_messageBits hX
    have hbytes := length_paddedFile (messageBits X)
    rw [message]
    omega

/-- Under the degenerate tree each copy of its symbol is the bit 0 (R83, R135). -/
theorem encodeBytes_replicate_leaf (v : Byte) (k m : Nat) :
    (codes (some (.leaf v k))).encodeBytes (List.replicate m v) = List.replicate m false := by
  have hbits : (codes (some (.leaf v k))).bitsOf v = [false] := by simp [CodeTable.bitsOf, codes_leaf_get]
  induction m with
  | zero => rfl
  | succ m ih => rw [List.replicate_succ, CodeTable.encodeBytes_cons, hbits, ih]; rfl

/-- The table of `m` copies of one byte has its one symbol's leaf as tree (R83). -/
theorem build_countBytes_replicate (v : Byte) {m : Nat} (hm : 1 ≤ m) :
    build (countBytes (List.replicate m v)) = some (.leaf v m) := by
  have hv : (countBytes (List.replicate m v)).get v = m := by rw [countBytes_get, List.count_replicate_self]
  have ho : ∀ b, b ≠ v → (countBytes (List.replicate m v)).get b = 0 := fun b hb => by
    rw [countBytes_get]
    exact List.count_eq_zero.2 fun hmem => hb (List.eq_of_mem_replicate hmem)
  rw [build_eq_leaf (hv.symm ▸ hm) ho, hv]

/-- Settles O56: one counted symbol has its leaf as tree, and each copy is coded by the bit 0. -/
theorem degenerateMessage : Obligations.DegenerateMessage := by
  intro v m hm
  have hbuild := build_countBytes_replicate v hm
  refine ⟨hbuild, by rw [codes_leaf_get, if_pos rfl], ?_⟩
  rw [message, messageBits, hbuild, encodeBytes_replicate_leaf]
  rfl

end Sys2Proof.Machine
end

/-! ### Write sessions and read sessions -/

section
namespace Sys2Proof.Machine

/-! ### Commands in sequence -/

theorem execAll_cons {i : Instr} {s t : State} (h : exec i s = .next t) (rest : List Instr) :
    execAll (i :: rest) s = execAll rest t := by
  simp only [execAll, h]

theorem execAll_append {is : List Instr} {s t : State} (h : execAll is s = .next t) (js : List Instr) :
    execAll (is ++ js) s = execAll js t := by
  induction is generalizing s with
  | nil => cases h; rfl
  | cons i is ih =>
    simp only [execAll, List.cons_append] at h ⊢
    split at h
    · exact ih h
    · cases h
    · cases h

/-! ### The commands of a session -/

theorem exec_bsopen_wr {ch : ChanId} {f : FileId} {s : State} (ho : (s.chan ch).isOpen = false) (hw : s.writable f = true)
    (pad : Bool) : exec (.bsopen ch f .wr pad) s =
      .next (((s.setChan ch (Channel.openWr pad f)).setFiles (s.files.truncate f)).complete .ok) := by
  simp [exec, execBsopen, ho, hw]

theorem exec_bsopen_rd {ch : ChanId} {f : FileId} {s : State} (ho : (s.chan ch).isOpen = false) (hr : s.readable f = true)
    (pad : Bool) : exec (.bsopen ch f .rd pad) s = .next ((s.setChan ch (Channel.openRd pad f)).complete .ok) := by
  simp [exec, execBsopen, ho, hr]

theorem exec_bsclose {ch : ChanId} {s : State} (ho : (s.chan ch).isOpen = true) : exec (.bsclose ch) s =
    .next (((s.setChan ch Channel.closed).setFiles ((s.chan ch).flush s.files)).complete .ok) := by
  simp [exec, execBsclose, ho]

theorem exec_wrbit {ch : ChanId} {s : State} (ho : s.openFor .wr ch = true) (b : Bool) : exec (.wrbit ch b) s =
    .next ((s.setStream ch (putBit (s.chan ch, s.files) b)).complete .ok) := by
  simp [exec, execWrbit, ho]

/-- RDBIT with a bit left in the stream delivers it (R104). -/
theorem exec_rdbit_of_cons {ch : ChanId} {s : State} (hc : (s.chan ch).Reading s.files) {b : Bool} {rest : Bits}
    (h : (s.chan ch).toRead s.files = b :: rest) :
    ∃ c, exec (.rdbit ch) s = .next (((s.setChan ch c).setRes (if b then 1#32 else 0#32)).complete .ok) ∧
      c.leaves (s.chan ch) s.files rest := by
  obtain ⟨c, hg, hl⟩ := getBit_cons hc h
  have ho := (s.openFor_iff .rd ch).2 ⟨hc.1, hc.2.1⟩
  have hres : (bitByte b).setWidth 32 = if b then 1#32 else 0#32 := by cases b <;> rfl
  exact ⟨c, by simp [exec, execRdbit, ho, hg, hres], hl⟩

/-- RDBIT at the end of the stream is EOS (R104). -/
theorem exec_rdbit_of_nil {ch : ChanId} {s : State} (hc : (s.chan ch).Reading s.files) (h : (s.chan ch).toRead s.files = []) :
    ∃ c, exec (.rdbit ch) s = .next ((s.setChan ch c).complete .eos) ∧ c.leaves (s.chan ch) s.files [] := by
  obtain ⟨c, hg, hl, _⟩ := getBit_nil hc h
  have ho := (s.openFor_iff .rd ch).2 ⟨hc.1, hc.2.1⟩
  exact ⟨c, by simp [exec, execRdbit, ho, hg], hl⟩

/-! ### Writing -/

/-- One WRBIT per bit puts the bits on the stream in order (R105, R106). -/
theorem execAll_wrbits {ch : ChanId} {s : State} (ho : s.openFor .wr ch = true) (bits : Bits) :
    ∃ t, execAll (bits.map fun b => .wrbit ch b) s = .next t ∧ (t.chan ch, t.files) = putBits (s.chan ch, s.files) bits := by
  induction bits generalizing s with
  | nil => exact ⟨s, rfl, rfl⟩
  | cons b rest ih =>
    obtain ⟨hopen, hmode, _⟩ := putBit_sameHandle (s.chan ch, s.files) b
    obtain ⟨hs, hm⟩ := (s.openFor_iff .wr ch).1 ho
    have hu : ((s.setStream ch (putBit (s.chan ch, s.files) b)).complete .ok).openFor .wr ch = true := by
      rw [State.openFor_iff]
      simpa using ⟨hopen.trans hs, hmode.trans hm⟩
    obtain ⟨t, ht, hput⟩ := ih hu
    refine ⟨t, (execAll_cons (exec_wrbit ho b) _).trans ht, ?_⟩
    simpa [putBits_cons] using hput

/-- A byte with nothing below place `k` is the bits from place 7 down to `k`, then `k` bits 0. -/
theorem bits8_of_low {v : Byte} {k : Nat} (hk : k ≤ 8) (h : ∀ i, i < k → v.getLsbD i = false) :
    bits8 v = (List.range (8 - k)).map (fun i => v.getLsbD (7 - i)) ++ List.replicate k false := by
  have hrange : List.range 8 = List.range (8 - k) ++ (List.range k).map (8 - k + ·) := by
    rw [← List.range_add, Nat.sub_add_cancel hk]
  rw [← buffered_byte v, hrange, List.map_append, List.map_map]
  congr 1
  refine List.eq_replicate_iff.2 ⟨by simp, fun b hb => ?_⟩
  obtain ⟨i, hi, rfl⟩ := List.mem_map.1 hb
  have hi := List.mem_range.1 hi
  exact h _ (by simp only; omega)

/-- The fill that a WR channel lacks after `n` more bits is found from its cursor (R22, R77). -/
theorem Channel.fill_written (c : Channel) (m : Memory) (n : Nat) :
    fill ((c.written m).length + n) = fill (8 - c.cur + n) := by
  rw [fill, fill, length_written]
  congr 1
  omega

/-- Closing a WR channel leaves in its file the unpadded or padded file of all the bits it was given (R77, R78, R102). -/
theorem Channel.Writing.data_flush {c : Channel} {m : Memory} (hc : c.Writing m) :
    (c.flush m).data c.fid = if c.pad then paddedFile (c.written m) else unpaddedFile (c.written m) := by
  have hplace := buffered_place hc true
  have hlow := place_low hc true
  obtain ⟨ho, hmode, hok⟩ := hc
  obtain ⟨h1, h8, _, hz⟩ := hok.2.2.2 ho hmode
  rw [← pack_unpack ((c.flush m).data c.fid), paddedFile, unpaddedFile, ← apply_ite pack]
  congr 1
  unfold Channel.flush
  simp only [hmode]
  split
  · have hsentinel : bits8 (c.buf ||| (1#8 <<< (c.cur - 1))) = c.buffered ++ [true] ++ List.replicate (c.cur - 1) false :=
      hplace ▸ bits8_of_low (v := (c.place true).buf) (by omega) hlow
    have hfill : fill (8 - c.cur + 1) = List.replicate (c.cur - 1) false := by rw [fill]; congr 1; omega
    rw [Memory.data_append_self, unpack_append, unpack_cons, unpack_nil, hsentinel, fillOut, List.length_append,
      List.length_singleton, c.fill_written m 1, hfill]
    simp [Channel.written]
  · have hstream : fill (c.written m).length = fill (8 - c.cur) := c.fill_written m 0
    rw [fillOut, hstream]
    split
    · rename_i hcur
      have hfill : fill (8 - c.cur) = List.replicate c.cur false := by rw [fill]; congr 1; omega
      rw [Memory.data_append_self, unpack_append, unpack_cons, unpack_nil, bits8_of_low h8 hz, hfill]
      simp [Channel.written, Channel.buffered]
    · rename_i hcur
      have hcur : c.cur = 8 := by omega
      simp [Channel.written, Channel.buffered, hcur, fill]

/-- A channel just opened for writing has been given nothing (R101). -/
theorem Channel.written_openWr (pad : Bool) {m : Memory} {f : FileId} (h : m.data f = []) :
    (Channel.openWr pad f).written m = [] := by
  simp [Channel.written, Channel.openWr, Channel.buffered, h]

theorem Memory.file_eq_of_data {m : Memory} {f : FileId} {d : List Byte} (he : m.fileExists f = true) (hd : m.data f = d) :
    m.file f = { present := true, data := d } := by
  subst hd
  rw [← he]
  rfl

/-- The file store after a write session on file `f` (R77, R78): the file holds the bits that the channel was given
since it was opened, and no other file has changed. -/
theorem Grew.file_flush {f : FileId} {pad : Bool} {m : Memory} {bits : Bits} {x : Channel × Memory}
    (hx : Grew (Channel.openWr pad f) (m.truncate f) bits x) :
    (x.1.flush x.2).file f = { present := true, data := if pad then paddedFile bits else unpaddedFile bits } ∧
    ∀ g, g ≠ f → (x.1.flush x.2).file g = m.file g := by
  have hexists : (m.truncate f).fileExists f = true := by simp [Memory.fileExists]
  have hw : x.1.Writing x.2 := hx.writing ⟨rfl, rfl, Channel.ok_openWr pad hexists⟩
  have hwritten : x.1.written x.2 = bits := by
    rw [hx.written, Channel.written_openWr pad (m.data_truncate_self f), List.nil_append]
  obtain ⟨hopen, _, hpad, hfid⟩ := hx.handle
  have hpad : x.1.pad = pad := hpad
  have hfid : x.1.fid = f := hfid
  refine ⟨Memory.file_eq_of_data ?_ ?_, fun g hg => ?_⟩
  · exact hfid ▸ Channel.fileExists_flush (hfid.symm ▸ hx.fileExists rfl)
  · rw [← hfid, hw.data_flush, hwritten, hpad]
  · rw [Channel.file_flush fun e => absurd (e.trans hfid) hg, hx.others g hg, Memory.file_truncate_of_ne m hg]

/-- Settles O35: the bits go onto the fresh channel's stream one by one, and the close leaves the file of the stream. -/
theorem writeSessionProducesItsFile : Obligations.WriteSessionProducesItsFile := by
  intro ch f pad bits s ho hw
  have hopen : (((s.setChan ch (Channel.openWr pad f)).setFiles (s.files.truncate f)).complete .ok).openFor .wr ch = true := by
    simp [State.openFor_iff, Channel.openWr]
  obtain ⟨t, ht, hput⟩ := execAll_wrbits hopen bits
  simp only [State.complete_chan, State.setFiles_chan, State.chan_setChan_self, State.complete_files, State.setFiles_files] at hput
  have hgrew : Grew (Channel.openWr pad f) (s.files.truncate f) bits (t.chan ch, t.files) :=
    hput ▸ putBits_grew ⟨rfl, rfl, Channel.ok_openWr pad (by simp [Memory.fileExists])⟩ bits
  obtain ⟨hfile, hothers⟩ := hgrew.file_flush
  have hclose := exec_bsclose (ch := ch) (s := t) hgrew.handle.1
  refine ⟨_, (execAll_cons (exec_bsopen_wr ho hw pad) _).trans ((execAll_append ht _).trans (execAll_cons hclose [])),
    hfile, hothers, ?_⟩
  simp

/-! ### Reading -/

/-- `k` RDBITs complete and leave the stream without its first `k` bits (R103, R104). -/
theorem execAll_rdbits {ch : ChanId} {s : State} (hc : (s.chan ch).Reading s.files) (k : Nat) :
    ∃ t, execAll (List.replicate k (.rdbit ch)) s = .next t ∧ t.files = s.files ∧
      (t.chan ch).leaves (s.chan ch) s.files (((s.chan ch).toRead s.files).drop k) := by
  induction k generalizing s with
  | zero => exact ⟨s, rfl, rfl, Channel.leaves_refl hc.2.2⟩
  | succ k ih =>
    have hstep : ∃ u, exec (.rdbit ch) s = .next u ∧ u.files = s.files ∧
        (u.chan ch).leaves (s.chan ch) s.files (((s.chan ch).toRead s.files).drop 1) := by
      cases hr : (s.chan ch).toRead s.files with
      | nil =>
        obtain ⟨c, hx, hl⟩ := exec_rdbit_of_nil hc hr
        exact ⟨_, hx, rfl, by simpa using hl⟩
      | cons b rest =>
        obtain ⟨c, hx, hl⟩ := exec_rdbit_of_cons hc hr
        exact ⟨_, hx, rfl, by simpa using hl⟩
    obtain ⟨u, hu, hfiles, hl⟩ := hstep
    have hreading := hl.reading hc
    obtain ⟨t, ht, hfiles', hl'⟩ := ih (s := u) (hfiles.symm ▸ hreading)
    rw [hfiles, hl.2.2, List.drop_drop, Nat.add_comm] at hl'
    exact ⟨t, (execAll_cons hu _).trans ht, hfiles'.trans hfiles, hl'.trans hl⟩

/-- The `k`-th of a run of RDBITs gives the `k`-th bit left in the stream, and EOS past the end (R103, R104). -/
theorem execAll_rdbits_last {ch : ChanId} {s : State} (hc : (s.chan ch).Reading s.files) (k : Nat) :
    ∃ t, execAll (List.replicate (k + 1) (.rdbit ch)) s = .next t ∧
      (∀ b, ((s.chan ch).toRead s.files)[k]? = some b → statusCode t.status = 0 ∧ t.res = if b then 1#32 else 0#32) ∧
      (((s.chan ch).toRead s.files).length ≤ k → statusCode t.status = 1) := by
  obtain ⟨u, hu, hfiles, hl⟩ := execAll_rdbits hc k
  have hreading : (u.chan ch).Reading u.files := hfiles.symm ▸ hl.reading hc
  rw [List.replicate_succ', execAll_append hu]
  cases hr : ((s.chan ch).toRead s.files).drop k with
  | nil =>
    have hlen := List.drop_eq_nil_iff.1 hr
    obtain ⟨c, hx, _⟩ := exec_rdbit_of_nil hreading (by rw [hfiles, hl.2.2, hr])
    refine ⟨_, execAll_cons hx [], fun b hb => ?_, fun _ => ?_⟩
    · rw [List.getElem?_eq_none hlen] at hb
      cases hb
    · rw [State.complete_status, statusCode_statusAfter]
      rfl
  | cons b rest =>
    obtain ⟨c, hx, _⟩ := exec_rdbit_of_cons hreading (by rw [hfiles, hl.2.2, hr])
    refine ⟨_, execAll_cons hx [], fun b' hb => ?_, fun hlen => ?_⟩
    · have hbit : ((s.chan ch).toRead s.files)[k]? = some b := by
        rw [← Nat.add_zero k, ← List.getElem?_drop, hr, List.getElem?_cons_zero]
      obtain rfl := Option.some.inj (hbit.symm.trans hb)
      rw [State.complete_status, statusCode_statusAfter]
      exact ⟨rfl, rfl⟩
    · rw [List.drop_of_length_le hlen] at hr
      cases hr

/-- A channel just opened for reading will deliver its file (R77, R79, R101). -/
theorem Channel.toRead_openRd (pad : Bool) (f : FileId) (m : Memory) :
    (Channel.openRd pad f).toRead m = if pad then readPadded (m.data f) else unpack (m.data f) := by
  simp [Channel.toRead, Channel.openRd, Channel.unread]

/-- Settles O36: the fresh channel has the whole file to deliver, and each RDBIT takes one bit of it. -/
theorem readSessionDeliversTheFile : Obligations.ReadSessionDeliversTheFile := by
  intro ch f pad k s ho hr
  have hexists := ((s.readable_iff f).1 hr).1
  have hreading : (Channel.openRd pad f).Reading s.files := ⟨rfl, rfl, Channel.ok_openRd pad hexists⟩
  have hlast := execAll_rdbits_last (ch := ch) (s := (s.setChan ch (Channel.openRd pad f)).complete .ok) (by simpa using hreading) k
  simp only [State.complete_chan, State.chan_setChan_self, State.complete_files, State.setChan_files, Channel.toRead_openRd] at hlast
  rw [execAll_cons (exec_bsopen_rd ho hr pad)]
  exact hlast

end Sys2Proof.Machine
end

/-! ### The sentinel round trip -/

section
namespace Sys2Proof.Machine

/-! ### Padded files -/

/-- A padded reader delivers every bit of the bytes before the last, then the last byte's data bits (R79). -/
theorem readPadded_concat (F : List Byte) (v : Byte) : readPadded (F ++ [v]) = unpack F ++ lastByteBits v := by
  induction F with
  | nil => rfl
  | cons u F ih => rw [List.cons_append, readPadded_cons_of_ne u (by simp), ih, unpack_cons, List.append_assoc]

theorem getElem?_bits8 (v : Byte) {q : Nat} (hq : q < 8) : (bits8 v)[7 - q]? = some (v.getLsbD q) := by
  match q, hq with
  | 0, _ | 1, _ | 2, _ | 3, _ | 4, _ | 5, _ | 6, _ | 7, _ => rfl

/-- The data bits of a last byte are those before its sentinel (R78, R79). -/
theorem lastByteBits_eq {v : Byte} {p : Bits} {k : Nat} (h : bits8 v = p ++ true :: List.replicate k false) :
    lastByteBits v = p := by
  have hlen : p.length + (k + 1) = 8 := by simpa using (congrArg List.length h).symm
  have hbit (q : Nat) (hq : q < 8) : (p ++ true :: List.replicate k false)[7 - q]? = some (v.getLsbD q) :=
    h ▸ getElem?_bits8 v hq
  have hset : v.getLsbD k = true := by
    have hk := hbit k (by omega)
    rw [List.getElem?_append_right (by omega), show 7 - k - p.length = 0 by omega] at hk
    simpa using hk.symm
  have hlow (q : Nat) (hq : q < k) : v.getLsbD q = false := by
    have hb := hbit q (by omega)
    obtain ⟨j, hj⟩ : ∃ j, 7 - q - p.length = j + 1 := ⟨6 - q - p.length, by omega⟩
    rw [List.getElem?_append_right (by omega), hj, List.getElem?_cons_succ, List.getElem?_replicate,
      if_pos (by omega)] at hb
    simpa using hb.symm
  have hv : v ≠ 0#8 := by
    rintro rfl
    simp at hset
  rw [lastByteBits, if_neg hv, lsb1_unique v k hset hlow, h, show 7 - k = p.length by omega, List.take_left]

/-- The whole bytes of a padded file hold the first bits written, its last byte the others and the trailer (R78). -/
theorem exists_paddedFile_eq (bits : Bits) : ∃ F v p k, paddedFile bits = F ++ [v] ∧ bits = unpack F ++ p ∧
    bits8 v = p ++ true :: List.replicate k false := by
  have hbytes := length_paddedFile bits
  have hunpack : unpack (paddedFile bits) = fillOut (bits ++ [true]) := unpack_pack _ (length_fillOut _)
  rcases List.eq_nil_or_concat' (paddedFile bits) with hnil | ⟨F, v, hF⟩
  · rw [hnil, List.length_nil] at hbytes
    omega
  · have hle : (unpack F).length ≤ bits.length := by
      rw [length_unpack]
      rw [hF, List.length_append, List.length_singleton] at hbytes
      omega
    rw [hF, unpack_append, fillOut, List.append_assoc] at hunpack
    obtain ⟨p, rfl⟩ := List.prefix_of_prefix_length_le ⟨_, hunpack⟩ (List.prefix_append _ _) hle
    rw [List.append_assoc, List.append_cancel_left_eq] at hunpack
    exact ⟨F, v, p, _, hF, rfl, by simpa [fill] using hunpack⟩

/-- A padded file delivers exactly the bits written (R78, R79, R109). -/
theorem readPadded_paddedFile (bits : Bits) : readPadded (paddedFile bits) = bits := by
  obtain ⟨F, v, p, k, hfile, hbits, hlast⟩ := exists_paddedFile_eq bits
  rw [hfile, readPadded_concat, lastByteBits_eq hlast, ← hbits]

/-- An unpadded file delivers the bits written and the fill (R77, R109). -/
theorem unpack_unpaddedFile (bits : Bits) : unpack (unpaddedFile bits) = fillOut bits := unpack_pack _ (length_fillOut bits)

/-! ### A session after a session -/

/-- Commands that all name one channel leave every other channel alone (R21). -/
theorem execAll_chan_of_ne {is : List Instr} {s t : State} {ch k : ChanId} (h : execAll is s = .next t)
    (his : ∀ i ∈ is, channelOf i = some ch) (hk : k ≠ ch) : t.chan k = s.chan k := by
  induction is generalizing s with
  | nil => cases h; rfl
  | cons i is ih =>
    obtain ⟨hi, his⟩ := List.forall_mem_cons.1 his
    simp only [execAll] at h
    split at h
    · rename_i u hu
      have hsreset : i ≠ .sreset := fun e => by subst e; cases hi
      have hother : channelOf i ≠ some k := fun e => hk (Option.some.inj (e.symm.trans hi))
      rw [ih h his, (exec_channelFramed hu hsreset k).1 hother]
    · cases h
    · cases h

/-- After a write session the file written is readable: its channel is closed and no other one is bound to it (R59). -/
theorem readable_of_writeSession {ch : ChanId} {f : FileId} {pad : Bool} {bits : Bits} {s t : State} (hw : s.writable f = true)
    (h : execAll (.bsopen ch f .wr pad :: (bits.map fun b => .wrbit ch b) ++ [.bsclose ch]) s = .next t)
    (hclosed : t.chan ch = Channel.closed) (hexists : t.files.fileExists f = true) : t.readable f = true := by
  have hnamed : ∀ i ∈ Instr.bsopen ch f .wr pad :: (bits.map fun b => .wrbit ch b) ++ [.bsclose ch], channelOf i = some ch := by
    simp [or_imp, forall_and, channelOf]
  refine (t.readable_iff f).2 ⟨hexists, fun k ⟨hopen, hfid, _⟩ => ?_⟩
  by_cases hk : k = ch
  · rw [hk, hclosed] at hopen
    cases hopen
  · rw [execAll_chan_of_ne h hnamed hk] at hopen hfid
    exact (s.writable_iff f).1 hw k ⟨hopen, hfid⟩

/-- A write session and then a read session of its file: the k-th RDBIT gives the k-th bit that the file delivers, and EOS
once there are no more (R77 to R79). -/
theorem writeSession_readSession {ch : ChanId} {f : FileId} {s : State} (ho : (s.chan ch).isOpen = false)
    (hw : s.writable f = true) (pad : Bool) (bits : Bits) (k : Nat) :
    ∃ t u, execAll (.bsopen ch f .wr pad :: (bits.map fun b => .wrbit ch b) ++ [.bsclose ch]) s = .next t ∧
      t.files.data f = (if pad then paddedFile bits else unpaddedFile bits) ∧
      execAll (.bsopen ch f .rd pad :: List.replicate (k + 1) (.rdbit ch)) t = .next u ∧
      (∀ b, (if pad then bits else fillOut bits)[k]? = some b → statusCode u.status = 0 ∧ u.res = if b then 1#32 else 0#32) ∧
      ((if pad then bits else fillOut bits).length ≤ k → statusCode u.status = 1) := by
  obtain ⟨t, ht, hfile, _, hclosed⟩ := writeSessionProducesItsFile ch f pad bits s ho hw
  have hdata : t.files.data f = if pad then paddedFile bits else unpaddedFile bits := congrArg FileEntry.data hfile
  have hexists : t.files.fileExists f = true := congrArg FileEntry.present hfile
  have hread : (if pad then readPadded (t.files.data f) else unpack (t.files.data f)) = if pad then bits else fillOut bits := by
    rw [hdata]
    cases pad
    · exact unpack_unpaddedFile bits
    · exact readPadded_paddedFile bits
  obtain ⟨u, hu, hbit, heos⟩ := readSessionDeliversTheFile ch f pad k t (by rw [hclosed]; rfl)
    (readable_of_writeSession hw ht hclosed hexists)
  rw [hread] at hbit heos
  exact ⟨t, u, ht, hdata, hu, hbit, heos⟩

/-- Settles O37: the read session runs on the file that the write session left, and the file delivers the bits written. -/
theorem sentinelRoundTrip : Obligations.SentinelRoundTrip := by
  refine ⟨length_paddedFile, fun ch f bits k s ho hw => ⟨?_, ?_⟩⟩
  · exact writeSession_readSession ho hw true bits k
  · obtain ⟨t, u, ht, _, hread⟩ := writeSession_readSession ho hw false bits k
    exact ⟨t, u, ht, hread⟩

end Sys2Proof.Machine
end

/-! ### The commands on a stream's bits: RDBIT, WRBIT, RDBITS and WRBITS -/

section
namespace Sys2Proof.Machine

/-- A channel open for RD that meets its invariant is a channel in reading. -/
theorem Channel.Ok.reading {s : State} {ch : ChanId} (hok : (s.chan ch).Ok s.files) (ho : s.openFor .rd ch = true) :
    (s.chan ch).Reading s.files := by
  obtain ⟨hopen, hmode⟩ := (s.openFor_iff .rd ch).1 ho
  exact ⟨hopen, hmode, hok⟩

/-- A channel open for WR that meets its invariant is a channel in writing. -/
theorem Channel.Ok.writing {s : State} {ch : ChanId} (hok : (s.chan ch).Ok s.files) (ho : s.openFor .wr ch = true) :
    (s.chan ch).Writing s.files := by
  obtain ⟨hopen, hmode⟩ := (s.openFor_iff .wr ch).1 ho
  exact ⟨hopen, hmode, hok⟩

/-- An OK command that leaves a stream grown by its bits wrote these bits and did nothing else (R22, R61). -/
theorem Grew.wrote {s : State} {ch : ChanId} {bits : Bits} {x : Channel × Memory} (h : Grew (s.chan ch) s.files bits x) :
    Wrote s ch bits ((s.setStream ch x).complete .ok) := by
  obtain ⟨vs, hvs⟩ := h.prefixed
  exact ⟨x.1, x.2, rfl, h.handle, h.ok, h.written, h.others,
    fun _ hoff => Memory.read?_of_data_prefix ⟨vs, hvs.symm⟩ hoff⟩

/-! ### Checks that fail -/

theorem exec_rdbit_of_not_open {ch : ChanId} {s : State} (ho : s.openFor .rd ch = false) :
    exec (.rdbit ch) s = .next (s.complete .fileError) := by
  simp [exec, execRdbit, ho]

theorem exec_wrbit_of_not_open {ch : ChanId} {s : State} (ho : s.openFor .wr ch = false) (b : Bool) :
    exec (.wrbit ch b) s = .next (s.complete .fileError) := by
  simp [exec, execWrbit, ho]

theorem exec_rdbits_of_count {n : Nat} (hn : 256 < n) (ch : ChanId) (s : State) :
    exec (.rdbits ch n) s = .next (s.complete .cmdError) := by
  simp [exec, execRdbits, Config.bulkMax, hn]

theorem exec_rdbits_of_not_open {ch : ChanId} {n : Nat} {s : State} (hn : n ≤ 256) (ho : s.openFor .rd ch = false) :
    exec (.rdbits ch n) s = .next (s.complete .fileError) := by
  simp [exec, execRdbits, Config.bulkMax, Nat.not_lt.2 hn, ho]

theorem exec_wrbits_of_count {n : Nat} (hn : 256 < n) (ch : ChanId) (s : State) :
    exec (.wrbits ch n) s = .next (s.complete .cmdError) := by
  simp [exec, execWrbits, Config.bulkMax, hn]

theorem exec_wrbits_of_not_open {ch : ChanId} {n : Nat} {s : State} (hn : n ≤ 256) (ho : s.openFor .wr ch = false) :
    exec (.wrbits ch n) s = .next (s.complete .fileError) := by
  simp [exec, execWrbits, Config.bulkMax, Nat.not_lt.2 hn, ho]

/-! ### The bulk transfers -/

/-- RDBITS on an open RD channel takes the first `n` bits left and puts them into the cleared data buffer (R107). -/
theorem exec_rdbits {ch : ChanId} {n : Nat} {s : State} (hn : n ≤ 256) (hc : (s.chan ch).Reading s.files) :
    ∃ c, exec (.rdbits ch n) s = .next ((((s.setChan ch c).setDbuf
        (DataBuffer.zero.fill 0 (((s.chan ch).toRead s.files).take n))).setRes
        (BitVec.ofNat 32 (min n ((s.chan ch).toRead s.files).length))).complete .ok) ∧
      c.leaves (s.chan ch) s.files (((s.chan ch).toRead s.files).drop n) := by
  obtain ⟨c, hg, hl⟩ := getBits_spec hc n
  have ho := (s.openFor_iff .rd ch).2 ⟨hc.1, hc.2.1⟩
  exact ⟨c, by simp [exec, execRdbits, Config.bulkMax, Nat.not_lt.2 hn, ho, hg], hl⟩

/-- WRBITS on an open WR channel puts the first `n` bits of the data buffer (R108). -/
theorem exec_wrbits {ch : ChanId} {n : Nat} {s : State} (hn : n ≤ 256) (ho : s.openFor .wr ch = true) :
    exec (.wrbits ch n) s = .next ((s.setStream ch (putBits (s.chan ch, s.files) (s.dbuf.bits n))).complete .ok) := by
  simp [exec, execWrbits, Config.bulkMax, Nat.not_lt.2 hn, ho]

/-- The data buffer after a transfer into it: the bits at their own indexes, 0 elsewhere (R31, R107). -/
theorem DataBuffer.bit_fill_zero {bits : Bits} (h : bits.length ≤ 256) (i : Nat) :
    (DataBuffer.zero.fill 0 bits).bit i = (bits[i]?).getD false := by
  rw [DataBuffer.bit_fill _ _ _ (by omega), DataBuffer.bit_zero]
  simp

@[simp] theorem DataBuffer.length_bits (d : DataBuffer) (n : Nat) : (d.bits n).length = n := by
  simp [DataBuffer.bits]

/-- The `i`-th bit of a transfer out of the data buffer is bit `i mod 8` of its register `i div 8` (R53). -/
theorem DataBuffer.getElem?_bits (d : DataBuffer) {n i : Nat} (hi : i < n) (h : i / 8 < 32) :
    (d.bits n)[i]? = some (d[i / 8].getLsbD (i % 8)) := by
  simp [DataBuffer.bits, DataBuffer.bit, hi, h]

/-! ### The four commands -/

/-- Settles O31: a bit left in the stream is delivered, and the end of the stream is EOS. -/
theorem rdbitDeliversTheNextBit : Obligations.RdbitDeliversTheNextBit := fun _ _ =>
  ⟨exec_rdbit_of_not_open, fun _ _ ho hok h => exec_rdbit_of_cons (hok.reading ho) h,
    fun ho hok h => exec_rdbit_of_nil (hok.reading ho) h⟩

/-- Settles O32: PutBit grows the stream by its bit. -/
theorem wrbitAppendsItsBit : Obligations.WrbitAppendsItsBit := fun _ b _ =>
  ⟨fun ho => exec_wrbit_of_not_open ho b, fun ho hok => ⟨_, exec_wrbit ho b, (putBit_grew (hok.writing ho) b).wrote⟩⟩

/-- Settles O33: the bits taken fill the cleared data buffer from index 0. -/
theorem rdbitsFillsTheBuffer : Obligations.RdbitsFillsTheBuffer := by
  intro ch n s
  refine ⟨fun hn => exec_rdbits_of_count hn ch s, exec_rdbits_of_not_open, fun hn ho hok => ?_⟩
  obtain ⟨c, hx, hl⟩ := exec_rdbits hn (hok.reading ho)
  exact ⟨c, _, hx, hl, fun i _ => DataBuffer.bit_fill_zero ((List.length_take_le n _).trans hn) i⟩

/-- Settles O34: the bits of the data buffer, in transfer order, go onto the stream. -/
theorem wrbitsAppendsBufferBits : Obligations.WrbitsAppendsBufferBits := by
  intro ch n s
  refine ⟨fun hn => exec_wrbits_of_count hn ch s, exec_wrbits_of_not_open, fun hn ho hok => ?_⟩
  exact ⟨_, _, exec_wrbits hn ho, (putBits_grew (hok.writing ho) _).wrote, s.dbuf.length_bits n,
    fun i _ hi => s.dbuf.getElem?_bits hi (by omega)⟩

end Sys2Proof.Machine
end

/-! ### BSOPEN, BSCLOSE and the primitives GetBit and PutBit, case by case -/

section
namespace Sys2Proof.Machine

/-- The opcode of an encoded command is that of its row (R70, R71). -/
theorem opcode_encode_of_row {i : Instr} (k : Nat) (hk : k < opcodeMap.length) (h : opcodeMap[k].Codes i) :
    (encode i).extractLsb' 24 8 = opcodeMap[k].opcode :=
  h.1.opcode_eq (List.getElem_mem hk)

theorem exec_bsopen_of_open {ch : ChanId} {s : State} (ho : (s.chan ch).isOpen = true) (fa : FileId) (md : ModeArg) (pad : Bool) :
    exec (.bsopen ch fa md pad) s = .next (s.complete .fileError) := by
  simp [exec, execBsopen, ho]

theorem exec_bsopen_of_bad_mode {md : ModeArg} (hmd : md = .m2 ∨ md = .m3) (ch : ChanId) (fa : FileId) (pad : Bool) (s : State) :
    exec (.bsopen ch fa md pad) s = .next (s.complete .fileError) := by
  rcases hmd with rfl | rfl <;> exact ite_self _

theorem exec_bsopen_of_not_readable {fa : FileId} {s : State} (hr : s.readable fa = false) (ch : ChanId) (pad : Bool) :
    exec (.bsopen ch fa .rd pad) s = .next (s.complete .fileError) := by
  simp [exec, execBsopen, hr]

theorem exec_bsopen_of_not_writable {fa : FileId} {s : State} (hw : s.writable fa = false) (ch : ChanId) (pad : Bool) :
    exec (.bsopen ch fa .wr pad) s = .next (s.complete .fileError) := by
  simp [exec, execBsopen, hw]

/-- Settles O27: the checks that fail, and the two openings. -/
theorem bsopenOpensOrFails : Obligations.BsopenOpensOrFails := by
  intro ch fa md pad s
  refine ⟨?_, fun ho => exec_bsopen_of_open ho fa md pad, fun hmd => exec_bsopen_of_bad_mode hmd ch fa pad s,
    fun _ hr => exec_bsopen_of_not_readable hr ch pad, fun ho hr => exec_bsopen_rd ho hr pad,
    fun _ hw => exec_bsopen_of_not_writable hw ch pad, fun ho hw => exec_bsopen_wr ho hw pad⟩
  exact opcode_encode_of_row 3 (by decide) (codes_bsopen ch fa md pad)

theorem exec_bsclose_of_closed {ch : ChanId} {s : State} (ho : (s.chan ch).isOpen = false) :
    exec (.bsclose ch) s = .next (s.complete .fileError) := by
  simp [exec, execBsclose, ho]

/-! ### What closing a channel appends -/

theorem Channel.flush_rd {c : Channel} (h : c.mode = .rd) (m : Memory) : c.flush m = m := by
  simp [Channel.flush, h]

/-- A padded stream gets its sentinel below the bits written (R102). -/
theorem Channel.flush_padded {c : Channel} (h : c.mode = .wr) (hp : c.pad = true) (m : Memory) :
    c.flush m = m.append c.fid (c.buf ||| (1#8 <<< (c.cur - 1))) := by
  simp [Channel.flush, h, hp]

theorem Channel.flush_partial {c : Channel} (h : c.mode = .wr) (hp : c.pad = false) (hc : c.cur < 8) (m : Memory) :
    c.flush m = m.append c.fid c.buf := by
  simp [Channel.flush, h, hp, hc]

theorem Channel.flush_empty {c : Channel} (h : c.mode = .wr) (hp : c.pad = false) (hc : c.cur = 8) (m : Memory) :
    c.flush m = m := by
  simp [Channel.flush, h, hp, hc]

/-- Settles O28: a closed channel fails, and an open one is closed with what its flush leaves. -/
theorem bscloseFlushesAndReleases : Obligations.BscloseFlushesAndReleases := by
  intro ch s
  refine ⟨?_, exec_bsclose_of_closed, fun ho hmd => ?_, fun ho hmd hp => ?_, fun ho hmd hp hc => ?_, fun ho hmd hp hc => ?_⟩
  · exact opcode_encode_of_row 4 (by decide) (codes_of_channel (by decide) (fun _ => rfl) ch)
  · rw [exec_bsclose ho, Channel.flush_rd hmd]
    rfl
  · rw [exec_bsclose ho, Channel.flush_padded hmd hp]
  · rw [exec_bsclose ho, Channel.flush_partial hmd hp hc]
  · rw [exec_bsclose ho, Channel.flush_empty hmd hp hc]
    rfl

/-! ### GetBit -/

theorem getBit_of_buffered {c : Channel} (h : c.cur ≠ 0) (m : Memory) : getBit m c = c.deliver := by
  simp [getBit, h]

theorem getBit_of_read?_none {m : Memory} {c : Channel} (h0 : c.cur = 0) (hr : m.read? c.fid c.pos = none) :
    getBit m c = (none, c) := by
  simp [getBit, h0, hr]

/-- With an empty buffer and a byte left, GetBit loads it, and it is EOS when the byte loaded holds no bit (R103). -/
theorem getBit_of_read?_some {m : Memory} {c : Channel} {b : Byte} (h0 : c.cur = 0) (hr : m.read? c.fid c.pos = some b) :
    getBit m c = if (c.load (m.fileLen c.fid) b).cur = 0 then (none, c.load (m.fileLen c.fid) b)
      else (c.load (m.fileLen c.fid) b).deliver := by
  simp [getBit, h0, hr]

/-- A byte that is not the last of a padded stream is loaded whole (R103). -/
theorem Channel.load_plain {c : Channel} {len : Nat} (h : ¬(c.pad = true ∧ c.pos + 1 = len)) (b : Byte) :
    c.load len b = { c with pos := c.pos + 1, buf := b, cur := 8 } := by
  simp [Channel.load, h]

/-- An all-zero last byte of a padded stream holds no bit (R79, R103). -/
theorem Channel.load_zero {c : Channel} {len : Nat} (hp : c.pad = true) (hl : c.pos + 1 = len) :
    c.load len 0#8 = { c with pos := c.pos + 1, buf := 0#8, cur := 0 } := by
  simp [Channel.load, hp, hl]

/-- The last byte of a padded stream loses its sentinel, the lowest set bit, and the fill (R79, R103). -/
theorem Channel.load_sentinel {c : Channel} {len p : Nat} {b : Byte} (hp : c.pad = true) (hl : c.pos + 1 = len)
    (hb : b.getLsbD p = true) (hlow : ∀ q, q < p → b.getLsbD q = false) :
    c.load len b = { c with pos := c.pos + 1, buf := b >>> (p + 1), cur := 7 - p } := by
  have hz : b ≠ 0#8 := by
    rintro rfl
    simp at hb
  simp [Channel.load, hp, hl, hz, lsb1_unique b p hb hlow]

/-- A byte is loaded without a bit only as the last one of a padded stream (R103). -/
theorem Channel.pos_of_load_empty {c : Channel} {len : Nat} {b : Byte} (h : (c.load len b).cur = 0) :
    c.pos + 1 = len ∧ (c.load len b).pos = c.pos + 1 := by
  by_cases hlast : c.pad = true ∧ c.pos + 1 = len
  · refine ⟨hlast.2, ?_⟩
    unfold Channel.load
    split
    · split <;> rfl
    · rfl
  · rw [Channel.load_plain hlast] at h
    cases h

/-- EOS leaves the channel empty at the end of its file (R103). -/
theorem getBit_none_atEnd {m : Memory} {c c' : Channel} (h : getBit m c = (none, c')) (hpos : c.pos ≤ m.fileLen c.fid) :
    c'.cur = 0 ∧ c'.pos = m.fileLen c.fid := by
  by_cases h0 : c.cur = 0
  · cases hr : m.read? c.fid c.pos with
    | none =>
      rw [getBit_of_read?_none h0 hr] at h
      cases h
      exact ⟨h0, Nat.le_antisymm hpos (List.getElem?_eq_none_iff.1 hr)⟩
    | some b =>
      rw [getBit_of_read?_some h0 hr] at h
      split at h
      · rename_i hempty
        cases h
        obtain ⟨hend, hload⟩ := Channel.pos_of_load_empty hempty
        exact ⟨hempty, hload.trans hend⟩
      · cases h
  · rw [getBit_of_buffered h0] at h
    cases h

/-- A plain byte gives its top bit and leaves seven (R103). -/
theorem getBit_plain {m : Memory} {c : Channel} {b : Byte} (h0 : c.cur = 0) (hr : m.read? c.fid c.pos = some b)
    (h : ¬(c.pad = true ∧ c.pos + 1 = m.fileLen c.fid)) :
    getBit m c = (some (b.getLsbD 7), { c with pos := c.pos + 1, buf := b, cur := 7 }) := by
  rw [getBit_of_read?_some h0 hr, Channel.load_plain h]
  rfl

/-- The last byte of a padded stream with a bit above its sentinel gives its top bit (R103). -/
theorem getBit_sentinel {m : Memory} {c : Channel} {b : Byte} {p : Nat} (h0 : c.cur = 0) (hr : m.read? c.fid c.pos = some b)
    (hp : c.pad = true) (hl : c.pos + 1 = m.fileLen c.fid) (hb : b.getLsbD p = true) (hlow : ∀ q, q < p → b.getLsbD q = false)
    (h7 : p < 7) : getBit m c = (some (b.getLsbD 7), { c with pos := c.pos + 1, buf := b >>> (p + 1), cur := 6 - p }) := by
  have hcur : 7 - p ≠ 0 := by omega
  have hnext : 7 - p - 1 = 6 - p := by omega
  have htop : p + 1 + (6 - p) = 7 := by omega
  rw [getBit_of_read?_some h0 hr, Channel.load_sentinel hp hl hb hlow, if_neg hcur, Channel.deliver]
  simp only [hnext, BitVec.getLsbD_ushiftRight, htop]

/-- The last byte of a padded stream with its sentinel on top gives EOS (R103). -/
theorem getBit_sentinel_alone {m : Memory} {c : Channel} {b : Byte} (h0 : c.cur = 0) (hr : m.read? c.fid c.pos = some b)
    (hp : c.pad = true) (hl : c.pos + 1 = m.fileLen c.fid) (hb : b.getLsbD 7 = true) (hlow : ∀ q, q < 7 → b.getLsbD q = false) :
    getBit m c = (none, { c with pos := c.pos + 1, buf := 0#8, cur := 0 }) := by
  have hout : b >>> (7 + 1) = 0#8 := BitVec.ushiftRight_eq_zero (Nat.le_refl 8)
  rw [getBit_of_read?_some h0 hr, Channel.load_sentinel hp hl hb hlow, hout]
  rfl

/-- Settles O29: the buffered bit, the end of the file, and a byte loaded plain, empty or with a sentinel. -/
theorem getBitFollowsTheLoader : Obligations.GetBitFollowsTheLoader := by
  intro m c
  refine ⟨fun h => getBit_of_buffered h m, fun h0 hl => ?_, fun b h0 hr h => getBit_plain h0 hr h, fun h0 hr hp hl => ?_,
    fun b p h0 hr hp hl _ hb hlow => ⟨?_, fun h7 => getBit_sentinel h0 hr hp hl hb hlow h7⟩,
    fun c' h => ⟨getBit_none_again h, getBit_none_atEnd h⟩⟩
  · exact getBit_of_read?_none h0 (List.getElem?_eq_none_iff.2 (Nat.le_of_eq hl.symm))
  · rw [getBit_of_read?_some h0 hr, Channel.load_zero hp hl]
    rfl
  · rintro rfl
    exact getBit_sentinel_alone h0 hr hp hl hb hlow

/-! ### PutBit -/

/-- A bit that does not fill the byte is placed (R105). -/
theorem putBit_of_place {c : Channel} (h1 : 1 ≤ c.cur) (h : c.cur ≠ 1) (m : Memory) (b : Bool) :
    putBit (c, m) b = (c.place b, m) := by
  have hcur : c.cur - 1 ≠ 0 := by omega
  exact if_neg hcur

/-- The bit that fills the byte appends it and empties the buffer (R105). -/
theorem putBit_of_full {c : Channel} (h : c.cur = 1) (m : Memory) (b : Bool) :
    putBit (c, m) b = ({ c with buf := 0#8, cur := 8 }, m.append c.fid (c.buf ||| bitByte b)) := by
  simp [putBit, Channel.place, h]

/-- Settles O30: the bit is placed, and the byte is appended when the bit is the last of it. -/
theorem putBitPlacesAndFlushes : Obligations.PutBitPlacesAndFlushes := fun m _ b h1 _ =>
  ⟨fun h => putBit_of_place h1 h m b, fun h => putBit_of_full h m b⟩

end Sys2Proof.Machine
end

/-! ### What FSCAN counts, the tree Build makes of it, and the order of its merges -/

section
namespace Sys2Proof.Machine

/-! ### The total of a table -/

/-- Distinct symbols that include every counted one have all the counts of a table between them (R120, R123). -/
theorem sum_map_get_eq_total {F : FreqTable} {l : List Byte} (hnd : l.Nodup) (hl : ∀ b, 0 < F.get b → b ∈ l) :
    (l.map F.get).sum = ((List.range 256).map fun b => F.get (BitVec.ofNat 8 b)).sum := by
  have hbytes : ((List.range 256).map (BitVec.ofNat 8)).Nodup := List.nodup_range.map_on fun i hi j hj h => by
    rw [List.mem_range] at hi hj
    simpa [Nat.mod_eq_of_lt hi, Nat.mod_eq_of_lt hj] using congrArg BitVec.toNat h
  have hall : ∀ b : Byte, b ∈ (List.range 256).map (BitVec.ofNat 8) := fun b =>
    List.mem_map.2 ⟨b.toNat, List.mem_range.2 b.isLt, by simp⟩
  calc (l.map F.get).sum
      = l.toFinset.sum F.get := (List.sum_toFinset F.get hnd).symm
    _ = ((List.range 256).map (BitVec.ofNat 8)).toFinset.sum F.get := by
        refine Finset.sum_subset (fun b _ => List.mem_toFinset.2 (hall b)) fun b _ hb => ?_
        exact Nat.eq_zero_of_not_pos fun hpos => hb (List.mem_toFinset.2 (hl b hpos))
    _ = (((List.range 256).map (BitVec.ofNat 8)).map F.get).sum := List.sum_toFinset F.get hbytes
    _ = ((List.range 256).map fun b => F.get (BitVec.ofNat 8 b)).sum := by rw [List.map_map]; rfl

/-- The counts of a byte sequence sum to its length (R120). -/
theorem total_countBytes (X : List Byte) :
    ((List.range 256).map fun b => (countBytes X).get (BitVec.ofNat 8 b)).sum = X.length := by
  have hmem : ∀ b, 0 < (countBytes X).get b → b ∈ X.dedup := fun b hb => by
    rw [countBytes_get] at hb
    exact List.mem_dedup.2 (List.count_pos_iff.1 hb)
  rw [← sum_map_get_eq_total X.nodup_dedup hmem, ← X.sum_map_count_dedup_eq_length, funext (countBytes_get X)]

/-! ### FSCAN -/

theorem exec_fscan_of_not_readable {fa : FileId} {s : State} (hr : s.readable fa = false) :
    exec (.fscan fa) s = .next (s.complete .fileError) := by
  simp [exec, execFscan, hr]

/-- FSCAN of a readable file below the limit of U6 puts its counts into FREQ (R120). -/
theorem exec_fscan {fa : FileId} {s : State} (hr : s.readable fa = true) (hl : s.files.fileLen fa < 4294967296) :
    exec (.fscan fa) s = .next ((s.setFreq (countBytes (s.files.data fa))).complete .ok) := by
  simp [exec, execFscan, hr, tooLong_of_lt hl]

/-- Settles O38: the table is the count of each byte, and the counts of the distinct bytes sum to the length. -/
theorem fscanCountsBytes : Obligations.FscanCountsBytes := by
  intro fa s
  refine ⟨?_, exec_fscan_of_not_readable, fun hr hl => ⟨_, exec_fscan hr hl, countBytes_get _, total_countBytes _⟩⟩
  exact opcode_encode_of_row 9 (by decide) (codes_fscan fa)

/-! ### The tree carries the table's counts -/

/-- What the builder's list says of the table it is built from (R121, R123): its leaves are those of the counted symbols, and each leaf
weighs its count. -/
def ForestCounts (F : FreqTable) (L : List HTree) : Prop :=
  (∀ b, b ∈ L.flatMap HTree.syms ↔ 0 < F.get b) ∧ ∀ t ∈ L, t.leafWeights = t.syms.map F.get

theorem ForestCounts.perm {F : FreqTable} {L M : List HTree} (hp : L.Perm M) (h : ForestCounts F L) : ForestCounts F M :=
  ⟨fun b => (hp.flatMap_right _).mem_iff.symm.trans (h.1 b), fun t ht => h.2 t (hp.mem_iff.2 ht)⟩

theorem ForestCounts.merge {F : FreqTable} {a b : HTree} {rest : List HTree} (h : ForestCounts F (a :: b :: rest)) :
    ForestCounts F (rest ++ [.node a b (a.weight + b.weight)]) := by
  obtain ⟨hsyms, hweights⟩ := h
  refine ⟨fun v => Iff.trans ?_ (hsyms v), fun t ht => ?_⟩
  · simp only [HTree.syms, List.flatMap_append, List.flatMap_cons, List.flatMap_nil, List.append_nil, List.mem_append]
    tauto
  · rcases List.mem_append.1 ht with ht | ht
    · exact hweights t (by simp [ht])
    · obtain rfl := List.mem_singleton.1 ht
      rw [HTree.leafWeights, HTree.syms, List.map_append, hweights a (by simp), hweights b (by simp)]

theorem forestCounts_leavesOf (F : FreqTable) : ForestCounts F (leavesOf F) := by
  refine ⟨fun b => ?_, fun t ht => ?_⟩
  · rw [List.mem_flatMap]
    constructor
    · rintro ⟨t, ht, hb⟩
      obtain ⟨v, hv, rfl⟩ := (mem_leavesOf F t).1 ht
      exact List.mem_singleton.1 hb ▸ hv
    · exact fun hb => ⟨_, (mem_leavesOf F _).2 ⟨b, hb, rfl⟩, List.mem_singleton_self b⟩
  · obtain ⟨b, _, rfl⟩ := (mem_leavesOf F t).1 ht
    rfl

/-- The leaves of the tree that Build makes are the counted symbols, and each weighs its count (R123). -/
theorem build_counts {F : FreqTable} {t : HTree} (h : build F = some t) :
    (∀ b, b ∈ t.syms ↔ 0 < F.get b) ∧ t.leafWeights = t.syms.map F.get := by
  obtain ⟨hsyms, hweights⟩ :=
    mergeLoop_induction (fun _ _ => ForestCounts.perm) (fun _ _ _ => ForestCounts.merge) (forestCounts_leavesOf F) le_rfl h
  exact ⟨by simpa using hsyms, hweights t (List.mem_singleton_self t)⟩

/-- Where every internal weight is a sum, a tree weighs what its leaves weigh (R26, R27). -/
theorem HTree.weight_eq_sum_leafWeights {t : HTree} (h : t.sums = true) : t.weight = t.leafWeights.sum := by
  induction t with
  | leaf b w => simp [HTree.weight, HTree.leafWeights]
  | node l r w ihl ihr =>
    simp only [HTree.sums, Bool.and_eq_true, decide_eq_true_eq] at h
    obtain ⟨⟨hl, hr⟩, hw⟩ := h
    rw [HTree.weight, HTree.leafWeights, List.sum_append, ← ihl hl, ← ihr hr, hw]

/-- Settles O40: the merging loop keeps the counted leaves with their counts, and the root weighs what they sum to. -/
theorem buildCountsAndWeights : Obligations.BuildCountsAndWeights := by
  intro F t h
  obtain ⟨hnd, hsums, _⟩ := build_ok h
  obtain ⟨hsyms, hweights⟩ := build_counts h
  refine ⟨hnd, hsyms, t.inner_add_one, hweights, hsums, ?_⟩
  rw [HTree.weight_eq_sum_leafWeights hsums, hweights, sum_map_get_eq_total hnd fun b => (hsyms b).2]

/-! ### TBUILD -/

/-- Two counted symbols do not fit one leaf: the root is a node (R122). -/
theorem build_eq_node {F : FreqTable} {a b : Byte} (hab : a ≠ b) (ha : 0 < F.get a) (hb : 0 < F.get b) :
    ∃ l r w, build F = some (.node l r w) := by
  obtain ⟨t, ht⟩ := exists_build_eq_some ha
  obtain ⟨hsyms, _⟩ := build_counts ht
  cases t with
  | leaf v w =>
    have hav := List.mem_singleton.1 ((hsyms a).2 ha)
    have hbv := List.mem_singleton.1 ((hsyms b).2 hb)
    exact absurd (hav.trans hbv.symm) hab
  | node l r w => exact ⟨l, r, w, ht⟩

/-- Settles O39: the tree is Build's, for no, one, and more counted symbols. -/
theorem tbuildSetsTheTree : Obligations.TbuildSetsTheTree := fun s =>
  ⟨build s.freq, rfl, rfl, rfl, build_eq_none, fun _ => build_eq_leaf, fun _ _ => build_eq_node⟩

/-! ### The order of the merges -/

/-- A pass of the loop merges the two lowest and leaves the fuel for the list it makes (R121 (iii)). -/
theorem mergeLoop_of_two {L rest : List HTree} {a b : HTree} (h : sortByWeight L = a :: b :: rest) :
    mergeLoop L.length L = mergeLoop (rest.length + 1) (rest ++ [.node a b (a.weight + b.weight)]) := by
  have hlen : L.length = rest.length + 1 + 1 := by rw [← length_sortByWeight, h]; rfl
  rw [hlen, mergeLoop, h]

/-- Settles O60: the initial order, the stable sort, and the loop's end and pass. -/
theorem buildFollowsTheMergeOrder : Obligations.BuildFollowsTheMergeOrder :=
  ⟨fun _ => rfl, mem_leavesOf, leavesOf_pairwise,
    fun L => ⟨sortByWeight_perm L, sortByWeight_sorted L, sortByWeight_stable L⟩,
    rfl, fun _ => rfl, fun _ _ _ _ => mergeLoop_of_two⟩

end Sys2Proof.Machine
end

/-! ### The code table: what CGEN puts into it, and codes as paths -/

section
namespace Sys2Proof.Machine

/-! ### CGEN -/

/-- The walk records symbols and paths, not weights (R136). -/
theorem walkCodes_zeroed (t : HTree) (acc : Bits) (C : CodeTable) : walkCodes t.zeroed acc C = walkCodes t acc C := by
  induction t generalizing acc C with
  | leaf sym w => rfl
  | node l r w ihl ihr => rw [HTree.zeroed, walkCodes, ihl, ihr, walkCodes]

theorem codes_zeroed (t : HTree) : codes (some t.zeroed) = codes (some t) := by
  cases t with
  | leaf sym w => rfl
  | node l r w => exact walkCodes_zeroed (.node l r w) [] CodeTable.empty

/-- Settles O41: the table of no tree, of a single leaf, and of a tree whose weights are forgotten. -/
theorem cgenSetsTheCodes : Obligations.CgenSetsTheCodes :=
  ⟨fun _ => rfl, rfl, CodeTable.get_empty, fun sym w b => codes_leaf_get sym b w, codes_zeroed⟩

/-! ### Paths to leaves -/

/-- A leaf has no path but the empty one. -/
theorem HTree.follow_leaf {sym b : Byte} {w n : Nat} {p : Bits} (h : (HTree.leaf sym w).follow p = some (.leaf b n)) :
    p = [] ∧ b = sym := by
  cases p with
  | nil => cases h; exact ⟨rfl, rfl⟩
  | cons x p => cases h

/-- A path from a node to a leaf begins with 0 and goes on in the left subtree, or begins with 1 and goes on in the right one. -/
theorem HTree.follow_node {l r : HTree} {b : Byte} {k n : Nat} {p : Bits} (h : (HTree.node l r k).follow p = some (.leaf b n)) :
    (∃ q, p = false :: q ∧ l.follow q = some (.leaf b n)) ∨ (∃ q, p = true :: q ∧ r.follow q = some (.leaf b n)) := by
  match p, h with
  | false :: q, h => exact .inl ⟨q, rfl, h⟩
  | true :: q, h => exact .inr ⟨q, rfl, h⟩

theorem HTree.mem_syms_of_follow {t : HTree} {p : Bits} {b : Byte} {n : Nat} (h : t.follow p = some (.leaf b n)) : b ∈ t.syms := by
  induction t generalizing p with
  | leaf sym w => exact List.mem_singleton.2 (HTree.follow_leaf h).2
  | node l r k ihl ihr =>
    rcases HTree.follow_node h with ⟨q, _, hq⟩ | ⟨q, _, hq⟩
    · exact List.mem_append_left _ (ihl hq)
    · exact List.mem_append_right _ (ihr hq)

/-- Under distinct leaves one path leads to each: no symbol lies in both subtrees of a node (R135). -/
theorem HTree.follow_unique {t : HTree} (hnd : t.syms.Nodup) {p q : Bits} {b : Byte} {m n : Nat}
    (hp : t.follow p = some (.leaf b m)) (hq : t.follow q = some (.leaf b n)) : p = q := by
  induction t generalizing p q with
  | leaf sym w => exact (HTree.follow_leaf hp).1.trans (HTree.follow_leaf hq).1.symm
  | node l r k ihl ihr =>
    obtain ⟨hl, hr, hdisj⟩ := List.nodup_append.1 hnd
    rcases HTree.follow_node hp with ⟨p, rfl, hp⟩ | ⟨p, rfl, hp⟩ <;> rcases HTree.follow_node hq with ⟨q, rfl, hq⟩ | ⟨q, rfl, hq⟩
    · rw [ihl hl hp hq]
    · exact absurd rfl (hdisj b (HTree.mem_syms_of_follow hp) b (HTree.mem_syms_of_follow hq))
    · exact absurd rfl (hdisj b (HTree.mem_syms_of_follow hq) b (HTree.mem_syms_of_follow hp))
    · rw [ihr hr hp hq]

/-! ### Codes are paths -/

/-- Under a tree that is a node, a symbol of the tree has the path to its leaf as code, and no other symbol has a code (R135). -/
theorem codes_node_get_iff {l r : HTree} {k : Nat} (hnd : (HTree.node l r k).syms.Nodup) {b : Byte} {w : Bits} :
    (codes (some (.node l r k))).get b = some w ↔ ∃ n, (HTree.node l r k).follow w = some (.leaf b n) := by
  refine ⟨follow_of_codes_node hnd, fun ⟨n, hw⟩ => ?_⟩
  obtain ⟨p, m, hget, hp⟩ := walkCodes_get_of_mem hnd [] CodeTable.empty (HTree.mem_syms_of_follow hw)
  rw [HTree.follow_unique hnd hw hp]
  exact hget

/-- Exactly the leaves have codes (R135). -/
theorem codes_get_ne_none_iff {t : HTree} (hnd : t.syms.Nodup) (b : Byte) : (codes (some t)).get b ≠ none ↔ b ∈ t.syms := by
  cases t with
  | leaf sym w => simp [codes_leaf_get, HTree.syms]
  | node l r k =>
    rw [Option.ne_none_iff_exists']
    constructor
    · rintro ⟨w, hw⟩
      obtain ⟨n, hn⟩ := follow_of_codes_node hnd hw
      exact HTree.mem_syms_of_follow hn
    · intro hb
      obtain ⟨p, n, hget, _⟩ := walkCodes_get_of_mem hnd [] CodeTable.empty hb
      exact ⟨p, hget⟩

/-- With two leaves or more a code is shorter than the number of leaves: its path passes each internal node once at most. -/
theorem length_code_lt {t : HTree} (hnd : t.syms.Nodup) (h2 : 2 ≤ t.syms.length) {b : Byte} {w : Bits}
    (h : (codes (some t)).get b = some w) : w.length < t.syms.length := by
  cases t with
  | leaf sym k => exact absurd h2 (Nat.not_succ_le_self 1)
  | node l r k =>
    obtain ⟨n, hn⟩ := follow_of_codes_node hnd h
    have hlen := HTree.length_add_inner_le hn
    have hinner := (HTree.node l r k).inner_add_one
    omega

/-- Settles O42: the codes of a node are the paths to its leaves, each shorter than the number of leaves, and prefix freedom is the
invariant of CODE. -/
theorem codesAreLeafPaths : Obligations.CodesAreLeafPaths := by
  intro t hnd
  obtain ⟨hlen, hprefix⟩ := codes_ok hnd
  refine ⟨codes_get_ne_none_iff hnd, fun b w hinner => ?_, hprefix, fun b w h2 h => ?_⟩
  · cases t with
    | leaf sym k => exact absurd hinner (Nat.not_succ_le_self 0)
    | node l r k => exact codes_node_get_iff hnd
  · obtain ⟨hpos, _⟩ := hlen b w h
    exact ⟨hpos, Nat.le_sub_one_of_lt (length_code_lt hnd h2 h)⟩

end Sys2Proof.Machine
end

/-! ### TSER, TDES and the round trip of the dictionary -/

section
namespace Sys2Proof.Machine

/-! ### Parsing a serialised tree -/

/-- A symbol's bits are taken from the front of a stream one after the other, each shifted in (R147). -/
theorem takeSym_append (bits : Bits) (sym : Byte) (rest : Bits) :
    takeSym bits.length sym (bits ++ rest) = some (bits.foldl shiftIn sym, rest) := by
  induction bits generalizing sym with
  | nil => rfl
  | cons x bits ih => exact ih (shiftIn sym x)

/-- Shifting in the eight bits of a byte, most significant first, gives the byte (R8, R147). -/
theorem foldl_shiftIn_bits8 (v : Byte) : (bits8 v).foldl shiftIn 0#8 = v := by revert v; decide

/-- The symbol of a serialised leaf is read back (R80, R147). -/
theorem takeSym_bits8 (v : Byte) (rest : Bits) : takeSym 8 0#8 (bits8 v ++ rest) = some (v, rest) := by
  have h := takeSym_append (bits8 v) 0#8 rest
  rwa [foldl_shiftIn_bits8] at h

/-- Parsing Ser(t) where the leaves of t are distinct and none has been seen (R147, R149): t with weights 0 and the bits after Ser(t), its
leaves added to the seen ones. The fuel need not exceed the bits of Ser(t). -/
theorem parseBits_ser (t : HTree) {fuel : Nat} {seen : List Byte} (hfuel : t.ser.length ≤ fuel)
    (hnew : (t.syms.reverse ++ seen).Nodup) (rest : Bits) :
    parseBits fuel (t.ser ++ rest) seen = some (t.zeroed, t.syms.reverse ++ seen, rest) := by
  induction t generalizing fuel seen rest with
  | leaf sym w =>
    obtain ⟨fuel, rfl⟩ := Nat.exists_eq_add_of_le' (Nat.one_le_of_lt hfuel)
    have hsym : sym ∉ seen := (List.nodup_cons.1 hnew).1
    simp [HTree.ser, parseBits, takeSym_bits8, hsym, HTree.zeroed, HTree.syms]
  | node l r w ihl ihr =>
    obtain ⟨fuel, rfl⟩ := Nat.exists_eq_add_of_le' (Nat.one_le_of_lt hfuel)
    simp only [HTree.ser, List.length_cons, List.length_append] at hfuel
    rw [HTree.syms, List.reverse_append, List.append_assoc] at hnew ⊢
    have hleft := ihl (fuel := fuel) (by omega) (List.nodup_append.1 hnew).2.1 (r.ser ++ rest)
    have hright := ihr (fuel := fuel) (by omega) hnew rest
    simp [HTree.ser, parseBits, hleft, hright, HTree.zeroed]

/-- Ser(t) at the front of a bit sequence is split off whole (R149, R182). -/
theorem splitDictionary_ser {t : HTree} (hnd : t.syms.Nodup) (rest : Bits) :
    splitDictionary (t.ser ++ rest) = some (t.zeroed, rest) := by
  have hfuel : t.ser.length ≤ (t.ser ++ rest).length + 1 := by simp only [List.length_append]; omega
  have hnew : (t.syms.reverse ++ []).Nodup := by simpa using hnd
  rw [splitDictionary, parseBits_ser t hfuel hnew rest]
  rfl

/-- Settles O46: the parser undoes `HTree.ser`, by induction on the tree, and the walk of the codes never looks at a weight. -/
theorem dictionaryRoundTrip : Obligations.DictionaryRoundTrip := fun t rest hnd =>
  ⟨splitDictionary_ser hnd rest, codes_zeroed t⟩

/-! ### TSER -/

theorem exec_tser_of_not_open {ch : ChanId} {s : State} (ho : s.openFor .wr ch = false) :
    exec (.tser ch) s = .next (s.complete .fileError) := by
  simp [exec, execTser, ho]

/-- TSER on an open WR channel puts the bits of Ser(TREE) (R80, R146). -/
theorem exec_tser {ch : ChanId} {s : State} (ho : s.openFor .wr ch = true) :
    exec (.tser ch) s = .next ((s.setStream ch (putBits (s.chan ch, s.files) (serialise s.tree))).complete .ok) := by
  simp [exec, execTser, ho, emitTree_eq]

/-- Settles O43: EmitTree is a sequence of PutBits, which grows the stream by its bits. -/
theorem tserWritesTheDictionary : Obligations.TserWritesTheDictionary := by
  intro ch s
  refine ⟨?_, exec_tser_of_not_open, fun ho hok => ⟨_, exec_tser ho, (putBits_grew (hok.writing ho) _).wrote⟩⟩
  exact opcode_encode_of_row 12 (by decide) (codes_of_channel (by decide) (fun _ => rfl) ch)

/-! ### TDES -/

/-- The channel after the dictionary has been parsed, in success or in failure: the bits the parse asked for are consumed and no more (R148). -/
theorem parseDictionary_leaves {m : Memory} {c : Channel} (hc : c.Reading m) :
    (parseDictionary m c).2.leaves c m ((c.toRead m).drop (dictionaryReads (c.toRead m))) := by
  obtain ⟨c', hg, hl⟩ := getBits_spec hc (dictionaryReads (c.toRead m))
  rwa [parseDictionary_channel hc, hg]

/-- The tree parsed on a channel is the one its stream begins with (R147, R182). -/
theorem parseDictionary_tree {m : Memory} {c : Channel} (hc : c.Reading m) :
    (parseDictionary m c).1 = (splitDictionary (c.toRead m)).map Prod.fst := by
  rcases parseDictionary_spec hc with ⟨t, rest, c', hs, hp, _⟩ | ⟨hs, c', _, hp, _, _⟩
  · rw [hs, hp]; rfl
  · rw [hs, hp]; rfl

/-- The bits after a parsed dictionary are those after the bits the parse asked for (R147). -/
theorem splitDictionary_rest {m : Memory} {c : Channel} (hc : c.Reading m) {t : HTree} {rest : Bits}
    (h : splitDictionary (c.toRead m) = some (t, rest)) : rest = (c.toRead m).drop (dictionaryReads (c.toRead m)) := by
  obtain ⟨_, _, hdrop⟩ := parseDictionary_leaves hc
  rcases parseDictionary_spec hc with ⟨t', rest', c', hs, hp, _, _, hrest⟩ | ⟨hs, _⟩
  · rw [h] at hs
    cases hs
    rw [← hrest, ← hdrop, hp]
  · rw [h] at hs
    cases hs

theorem exec_tdes_of_not_open {ch : ChanId} {s : State} (ho : s.openFor .rd ch = false) :
    exec (.tdes ch) s = .next (s.complete .fileError) := by
  simp [exec, execTdes, ho]

/-- TDES on an open RD channel: TREE takes what the parse gives, and the outcome says whether that is a tree (R148). -/
theorem exec_tdes {ch : ChanId} {s : State} (ho : s.openFor .rd ch = true) {t : Option HTree}
    (ht : (parseDictionary s.files (s.chan ch)).1 = t) :
    exec (.tdes ch) s = .next (((s.setChan ch (parseDictionary s.files (s.chan ch)).2).setTree t).complete
      (if t.isSome then .ok else .formatError)) := by
  subst ht
  rcases hp : parseDictionary s.files (s.chan ch) with ⟨_ | t, c⟩
  · simp [exec, execTdes, ho, hp]
  · simp [exec, execTdes, ho, hp]

/-- Settles O45: the parser on a channel is the parser of what the channel delivers, and its channel is that of a bulk read of the bits it
asks for. -/
theorem tdesReadsTheDictionary : Obligations.TdesReadsTheDictionary := by
  intro ch s
  refine ⟨exec_tdes_of_not_open, fun t rest ho hok h => ?_, fun ho hok h => ?_⟩
  · have hc := hok.reading ho
    have hrest := splitDictionary_rest hc h
    have ht : (parseDictionary s.files (s.chan ch)).1 = some t := by rw [parseDictionary_tree hc, h]; rfl
    exact ⟨_, exec_tdes ho ht, parseDictionary_channel hc, hrest ▸ parseDictionary_leaves hc, hrest⟩
  · have hc := hok.reading ho
    have ht : (parseDictionary s.files (s.chan ch)).1 = none := by rw [parseDictionary_tree hc, h]; rfl
    exact ⟨_, exec_tdes ho ht, parseDictionary_channel hc, parseDictionary_leaves hc⟩

end Sys2Proof.Machine
end

/-! ### The payload: PENC, TRAIL, the trailer and the walk, PDEC -/

section
namespace Sys2Proof.Machine

/-! ### PENC -/

theorem exec_penc_of_not_open {ch : ChanId} {s : State} (ho : s.openFor .wr ch = false) (fa : FileId) :
    exec (.penc ch fa) s = .next (s.complete .fileError) := by
  simp [exec, execPenc, ho]

theorem exec_penc_of_not_readable {fa : FileId} {s : State} (hr : s.readable fa = false) (ch : ChanId) :
    exec (.penc ch fa) s = .next (s.complete .fileError) := by
  simp [exec, execPenc, hr]

/-- PENC with its checks of files passed: the codes go onto the stream if every byte has one, and nothing is done otherwise (R160). -/
theorem exec_penc {ch : ChanId} {fa : FileId} {s : State} (ho : s.openFor .wr ch = true) (hr : s.readable fa = true)
    (hl : s.files.fileLen fa < 4294967296) : exec (.penc ch fa) s =
      if (s.files.data fa).all fun v => (s.code.get v).isSome then
        .next ((s.setStream ch (putBits (s.chan ch, s.files) (s.code.encodeBytes (s.files.data fa)))).complete .ok)
      else .next (s.complete .cmdError) := by
  simp [exec, execPenc, ho, hr, tooLong_of_lt hl]

/-- Settles O47: the check of the codes decides between CmdError and a sequence of PutBits. -/
theorem pencWritesTheCodes : Obligations.PencWritesTheCodes := by
  intro ch fa s
  refine ⟨?_, ?_, fun ho hr hl hmissing => ?_, fun ho hr hl hok hcodes => ?_⟩
  · exact opcode_encode_of_row 14 (by decide)
      (codes_of_channel_field isField_fa (by decide) (by decide) (by decide) (fun _ _ => rfl) ch fa)
  · rintro (ho | hr)
    · exact exec_penc_of_not_open ho fa
    · exact exec_penc_of_not_readable hr ch
  · obtain ⟨v, hv, hnone⟩ := hmissing
    rw [exec_penc ho hr hl, if_neg]
    exact fun hall => absurd (List.all_eq_true.1 hall v hv) (by simp [hnone])
  · have hall : (s.files.data fa).all (fun v => (s.code.get v).isSome) = true :=
      List.all_eq_true.2 fun v hv => Option.isSome_iff_ne_none.2 (hcodes v hv)
    exact ⟨_, (exec_penc ho hr hl).trans (if_pos hall), (putBits_grew (hok.writing ho) _).wrote⟩

/-! ### TRAIL -/

/-- As many 0 bits as the byte lacks append the buffer as it stands (R105). -/
theorem putBits_replicate_false {c : Channel} {k : Nat} (hcur : c.cur = k + 1) (m : Memory) :
    putBits (c, m) (List.replicate (k + 1) false) = ({ c with buf := 0#8, cur := 8 }, m.append c.fid c.buf) := by
  induction k generalizing c with
  | zero => simp [putBits, putBit_of_full hcur, bitByte]
  | succ k ih =>
    have hplace : c.place false = { c with cur := k + 1 } := by simp [Channel.place, bitByte, hcur]
    rw [List.replicate_succ, putBits_cons, putBit_of_place (by omega) (by omega), hplace]
    exact ih rfl

theorem Channel.Writing.one_le_cur {c : Channel} {m : Memory} (hc : c.Writing m) : 1 ≤ c.cur := by
  obtain ⟨hopen, hmode, _, _, _, hwr⟩ := hc
  exact (hwr hopen hmode).1

/-- The trailer is one byte: the buffer with the sentinel at its next place (R161). -/
theorem trailer_appends_byte {c : Channel} {m : Memory} (hc : c.Writing m) :
    trailer (c, m) = ({ c with buf := 0#8, cur := 8 }, m.append c.fid (c.buf ||| (1#8 <<< (c.cur - 1)))) := by
  have h1 := hc.one_le_cur
  rw [trailer_eq hc, putBits_cons]
  obtain ⟨k, hk⟩ := Nat.exists_eq_add_of_le' h1
  cases k with
  | zero => simp [putBits, putBit_of_full hk, hk, bitByte]
  | succ k =>
    have hcur : (c.place true).cur = k + 1 := by simp [Channel.place, hk]
    rw [putBit_of_place h1 (by omega), hk, Nat.add_sub_cancel, putBits_replicate_false hcur]
    simp [Channel.place, bitByte, hk]

theorem exec_trail_of_not_open {ch : ChanId} {s : State} (ho : s.openFor .wr ch = false) :
    exec (.trail ch) s = .next (s.complete .fileError) := by
  simp [exec, execTrail, ho]

theorem exec_trail {ch : ChanId} {s : State} (ho : s.openFor .wr ch = true) :
    exec (.trail ch) s = .next ((s.setStream ch (trailer (s.chan ch, s.files))).complete .ok) := by
  simp [exec, execTrail, ho]

/-- TRAIL on an open WR channel: one byte appended, the buffer empty (R161). -/
theorem exec_trail_appends {ch : ChanId} {s : State} (ho : s.openFor .wr ch = true) (hok : (s.chan ch).Ok s.files) :
    exec (.trail ch) s = .next (((s.setChan ch { s.chan ch with buf := 0#8, cur := 8 }).setFiles
      (s.files.append (s.chan ch).fid ((s.chan ch).buf ||| (1#8 <<< ((s.chan ch).cur - 1))))).complete .ok) := by
  rw [exec_trail ho, trailer_appends_byte (hok.writing ho), State.setStream_eq]

/-- Settles O48: the trailer's byte, and the same trailer as bits of the stream. -/
theorem trailAppendsOneByte : Obligations.TrailAppendsOneByte := by
  intro ch s
  refine ⟨?_, exec_trail_of_not_open, fun ho hok => ⟨exec_trail_appends ho hok, _, exec_trail ho, ?_⟩⟩
  · exact opcode_encode_of_row 15 (by decide) (codes_of_channel (by decide) (fun _ => rfl) ch)
  · exact (trailer_grew (hok.writing ho)).wrote

/-! ### TRAIL and then BSCLOSE -/

/-- After TRAIL a BSCLOSE finds an empty buffer: it appends a second sentinel byte with padding and nothing without (R102, R161, R244). -/
theorem execAll_trail_bsclose {ch : ChanId} {s : State} (ho : s.openFor .wr ch = true) (hok : (s.chan ch).Ok s.files) :
    ∃ t, execAll [.trail ch, .bsclose ch] s = .next t ∧
      t.files = if (s.chan ch).pad
        then (s.files.append (s.chan ch).fid ((s.chan ch).buf ||| (1#8 <<< ((s.chan ch).cur - 1)))).append (s.chan ch).fid 0x80#8
        else s.files.append (s.chan ch).fid ((s.chan ch).buf ||| (1#8 <<< ((s.chan ch).cur - 1))) := by
  obtain ⟨hopen, hmode⟩ := (s.openFor_iff .wr ch).1 ho
  exact ⟨_, (execAll_cons (exec_trail_appends ho hok) _).trans (execAll_cons (exec_bsclose (by simpa using hopen)) _),
    by simp [Channel.flush, hmode]⟩

/-- Settles O49: without padding TRAIL appends the byte that a padded BSCLOSE appends in its place, with padding both append theirs. -/
theorem oneSentinelPerStream : Obligations.OneSentinelPerStream := by
  intro ch s ho hok
  obtain ⟨hopen, hmode⟩ := (s.openFor_iff .wr ch).1 ho
  obtain ⟨t, ht, hfiles⟩ := execAll_trail_bsclose ho hok
  refine ⟨fun hpad => ?_, fun hpad => ⟨t, ht, by simp [hfiles, hpad]⟩⟩
  have hclose := exec_bsclose (ch := ch) (s := s.setChan ch { s.chan ch with pad := true }) (by simpa using hopen)
  exact ⟨t, _, ht, hclose, by simp [hfiles, hpad, Channel.flush_padded, hmode]⟩

/-! ### The trailer of a residual -/

theorem stripTrailer_replicate_false (z : Nat) : stripTrailer (List.replicate z false) = none := by
  induction z with
  | zero => rfl
  | succ z ih => simp [List.replicate_succ, stripTrailer, ih]

theorem stripTrailer_sentinel (p : Bits) (z : Nat) : stripTrailer (p ++ true :: List.replicate z false) = some p := by
  induction p with
  | nil => simp [stripTrailer, stripTrailer_replicate_false]
  | cons b p ih => simp [stripTrailer, ih]

/-- A bit sequence has no 1, or it has a last one (R163). -/
theorem exists_last_sentinel (R : Bits) :
    (∃ z, R = List.replicate z false) ∨ (∃ p z, R = p ++ true :: List.replicate z false) := by
  induction R with
  | nil => exact .inl ⟨0, rfl⟩
  | cons b R ih =>
    rcases ih with ⟨z, rfl⟩ | ⟨p, z, rfl⟩
    · cases b with
      | false => exact .inl ⟨z + 1, rfl⟩
      | true => exact .inr ⟨[], z, rfl⟩
    · exact .inr ⟨b :: p, z, rfl⟩

/-- Settles O50: StripTrailer on each of the two shapes that a bit sequence can have. -/
theorem stripTrailerTakesTheLastOne : Obligations.StripTrailerTakesTheLastOne := by
  intro R p
  refine ⟨⟨fun h => ?_, ?_⟩, ⟨fun h => ?_, ?_⟩⟩
  · rcases exists_last_sentinel R with ⟨z, rfl⟩ | ⟨q, z, rfl⟩
    · cases (stripTrailer_replicate_false z).symm.trans h
    · cases (stripTrailer_sentinel q z).symm.trans h
      exact ⟨z, rfl⟩
  · rintro ⟨z, rfl⟩
    exact stripTrailer_sentinel p z
  · rcases exists_last_sentinel R with hzeros | ⟨q, z, rfl⟩
    · exact hzeros
    · cases (stripTrailer_sentinel q z).symm.trans h
  · rintro ⟨z, rfl⟩
    exact stripTrailer_replicate_false z

/-! ### The walk of a payload -/

/-- The longest sequence of symbols of the tree whose codes begin the bits, and whether their codes are all the bits (R164). -/
structure LongestDecoding (t : HTree) (bits : Bits) (X : List Byte) (whole : Bool) : Prop where
  symbols : ∀ x ∈ X, x ∈ t.syms
  begins : (codes (some t)).encodeBytes X <+: bits
  whole_iff : whole = true ↔ (codes (some t)).encodeBytes X = bits
  longest : ∀ b ∈ t.syms, ¬ (codes (some t)).encodeBytes (X ++ [b]) <+: bits

/-- Bits that begin with no code decode to nothing. -/
theorem LongestDecoding.nil {t : HTree} {bits : Bits} {whole : Bool} (hw : whole = true ↔ bits = [])
    (hstop : ∀ b ∈ t.syms, ¬ (codes (some t)).bitsOf b <+: bits) : LongestDecoding t bits [] whole where
  symbols := by simp
  begins := List.nil_prefix
  whole_iff := hw.trans eq_comm
  longest := by simpa using hstop

/-- A symbol's code in front of bits decodes to the symbol in front of their decoding. -/
theorem LongestDecoding.cons {t : HTree} {bits : Bits} {X : List Byte} {whole : Bool} (h : LongestDecoding t bits X whole)
    {sym : Byte} (hsym : sym ∈ t.syms) : LongestDecoding t ((codes (some t)).bitsOf sym ++ bits) (sym :: X) whole where
  symbols := List.forall_mem_cons.2 ⟨hsym, h.symbols⟩
  begins := (List.prefix_append_right_inj _).2 h.begins
  whole_iff := h.whole_iff.trans (List.append_right_inj _).symm
  longest b hb := fun hpre => h.longest b hb ((List.prefix_append_right_inj _).1 hpre)

theorem CodeTable.bitsOf_eq_of_get {C : CodeTable} {b : Byte} {w : Bits} (h : C.get b = some w) : C.bitsOf b = w := by
  simp [CodeTable.bitsOf, h]

/-- The walk under the degenerate tree, whose one code is the bit 0 (R164). -/
theorem longestDecoding_walkLeaf (sym : Byte) (k : Nat) (pay : Bits) :
    LongestDecoding (.leaf sym k) pay (walkLeaf sym pay).1 (walkLeaf sym pay).2 := by
  have hcode : (codes (some (.leaf sym k))).bitsOf sym = [false] :=
    CodeTable.bitsOf_eq_of_get (by simp [codes_leaf_get])
  induction pay with
  | nil => exact .nil (by simp [walkLeaf]) (by simp [HTree.syms, hcode])
  | cons x rest ih =>
    cases x with
    | true => exact .nil (by simp [walkLeaf]) (by simp [HTree.syms, hcode])
    | false =>
      have h := ih.cons (List.mem_singleton.2 rfl)
      rwa [hcode] at h

/-- Under a tree that is a node no code begins a path that ends inside the tree (R137). -/
theorem not_code_prefix_of_follow {l r u v : HTree} {k j : Nat} (hnd : (HTree.node l r k).syms.Nodup) {q : Bits}
    (hq : (HTree.node l r k).follow q = some (.node u v j)) {b : Byte} (hb : b ∈ (HTree.node l r k).syms) :
    ¬ (codes (some (.node l r k))).bitsOf b <+: q := by
  obtain ⟨w, hw⟩ := Option.ne_none_iff_exists'.1 ((codes_get_ne_none_iff hnd b).2 hb)
  obtain ⟨n, hn⟩ := follow_of_codes_node hnd hw
  rw [CodeTable.bitsOf_eq_of_get hw]
  rintro ⟨p, rfl⟩
  rw [HTree.follow_append, hn, Option.bind_some] at hq
  cases p with
  | nil => cases hq
  | cons x p => cases hq

/-- The walk from a node that the path `q` leads to decodes `q` and the bits to come: `q` is the part of a code already read (R164). -/
theorem longestDecoding_walkNode {l r : HTree} {k : Nat} (hnd : (HTree.node l r k).syms.Nodup) (pay : Bits) {u v : HTree} {j : Nat}
    {q : Bits} {atRoot : Bool} (hq : (HTree.node l r k).follow q = some (.node u v j)) (hroot : atRoot = true ↔ q = []) :
    LongestDecoding (.node l r k) (q ++ pay) (walkNode (.node l r k) (.node u v j) atRoot pay).1
      (walkNode (.node l r k) (.node u v j) atRoot pay).2 := by
  induction pay generalizing u v j q atRoot with
  | nil =>
    rw [List.append_nil]
    exact .nil hroot fun b hb => not_code_prefix_of_follow hnd hq hb
  | cons x rest ih =>
    have hstep : (HTree.node l r k).follow (q ++ [x]) = some (if x then v else u) := by
      rw [HTree.follow_append, hq]
      cases x <;> simp [HTree.follow]
    rw [List.append_cons]
    cases hchild : (if x then v else u) with
    | leaf sym n =>
      rw [hchild] at hstep
      have hcode := CodeTable.bitsOf_eq_of_get ((codes_node_get_iff hnd).2 ⟨n, hstep⟩)
      have h := (ih (q := []) (atRoot := true) rfl (by simp)).cons (HTree.mem_syms_of_follow hstep)
      rw [hcode] at h
      simpa [walkNode, hchild] using h
    | node u' v' j' =>
      rw [hchild] at hstep
      have h := ih (atRoot := false) hstep (by simp)
      simpa [walkNode, hchild] using h

theorem longestDecoding_walkPayload {t : HTree} (hnd : t.syms.Nodup) (pay : Bits) :
    LongestDecoding t pay (walkPayload t pay).1 (walkPayload t pay).2 := by
  cases t with
  | leaf sym k => exact longestDecoding_walkLeaf sym k pay
  | node l r k => exact longestDecoding_walkNode hnd pay (q := []) rfl (by simp)

/-- Settles O51: the walk gives the longest decoding, by induction on the payload with the path walked since the last symbol. -/
theorem walkDecodesTheCodewords : Obligations.WalkDecodesTheCodewords := by
  intro t pay X good hnd hwalk
  obtain ⟨hsyms, hbegins, hwhole, hlongest⟩ := hwalk ▸ longestDecoding_walkPayload hnd pay
  exact ⟨hsyms, hbegins, hwhole, hlongest⟩

/-! ### PDEC -/

theorem exec_pdec_of_not_open {ch : ChanId} {s : State} (ho : s.openFor .rd ch = false) (fb : FileId) :
    exec (.pdec ch fb) s = .next (s.complete .fileError) := by
  simp [exec, execPdec, pdecWith, ho]

theorem exec_pdec_of_not_writable {fb : FileId} {s : State} (hw : s.writable fb = false) (ch : ChanId) :
    exec (.pdec ch fb) s = .next (s.complete .fileError) := by
  simp [exec, execPdec, pdecWith, hw]

theorem exec_pdec_of_no_tree {ch : ChanId} {fb : FileId} {s : State} (ho : s.openFor .rd ch = true) (hw : s.writable fb = true)
    (ht : s.tree = none) : exec (.pdec ch fb) s = .next (s.complete .cmdError) := by
  simp [exec, execPdec, pdecWith, ho, hw, ht]

/-- PDEC with its checks passed, from what ReadResidual gives once the output is empty (R165). -/
theorem exec_pdec {ch : ChanId} {fb : FileId} {s : State} {t : HTree} {R : Bits} {c : Channel} (ho : s.openFor .rd ch = true)
    (hw : s.writable fb = true) (ht : s.tree = some t) (hR : readResidual (s.files.truncate fb) (s.chan ch) = (R, c)) :
    exec (.pdec ch fb) s = .next (((s.setChan ch c).setFiles (s.files.setFile fb
      { present := true, data := (decodeResidual t R).1 })).complete (if (decodeResidual t R).2 then .ok else .formatError)) := by
  simp [exec, execPdec, pdecWith, ho, hw, ht, hR, Config.rmax, overRmax, formatOutcome]

/-- Emptying another file changes nothing of what ReadResidual delivers and where it ends (R162). -/
theorem readResidual_truncate {c : Channel} {m : Memory} (hc : c.Reading m) {f : FileId} (hf : c.fid ≠ f) :
    ∃ c', readResidual (m.truncate f) c = (c.toRead m, c') ∧ c'.leaves c m [] ∧ c'.cur = 0 ∧ c'.pos = m.fileLen c'.fid := by
  obtain ⟨hopen, hmode, hok⟩ := hc
  have hfile : (m.truncate f).file c.fid = m.file c.fid := m.file_truncate_of_ne hf
  obtain ⟨c', hread, ⟨hsame, hok', hrest⟩, hcur, hpos⟩ := readResidual_spec ⟨hopen, hmode, hok.congr hfile⟩
  have ⟨_, _, _, hfid⟩ := hsame
  have hfile' : m.file c'.fid = (m.truncate f).file c'.fid := hfid ▸ hfile.symm
  obtain ⟨_, hlen, _⟩ := Memory.read_congr hfile'
  rw [c.toRead_congr hfile] at hread
  rw [← hfid, ← hlen] at hpos
  exact ⟨c', hread, ⟨hsame, hok'.congr hfile', (c'.toRead_congr hfile').trans hrest⟩, hcur, hpos⟩

/-- Settles O52: the output is not the channel's file, so the residual is what the stream held before the output was emptied. -/
theorem pdecDecodesTheResidual : Obligations.PdecDecodesTheResidual := by
  intro ch fb s
  refine ⟨?_, exec_pdec_of_no_tree, fun t ho hw ht hok => ?_⟩
  · rintro (ho | hw)
    · exact exec_pdec_of_not_open ho fb
    · exact exec_pdec_of_not_writable hw ch
  · have hc := hok.reading ho
    obtain ⟨c, hread, hend⟩ := readResidual_truncate hc (State.ne_fid_of_writable hw hc.1)
    exact ⟨c, exec_pdec ho hw ht hread, hend⟩

end Sys2Proof.Machine
end

/-! ### The pipelines: HENC, HDEC, their stage commands, and the round trip -/

section
namespace Sys2Proof.Machine

/-! ### A message and its decoding -/

theorem HTree.syms_zeroed (t : HTree) : t.zeroed.syms = t.syms := by
  induction t with
  | leaf b w => rfl
  | node l r w ihl ihr => rw [HTree.zeroed, HTree.syms, ihl, ihr, HTree.syms]

/-- A non-empty input has a tree, with distinct leaves, and every byte of the input is one of them (R81, R123). -/
theorem exists_build_countBytes {X : List Byte} (hX : X ≠ []) :
    ∃ t, build (countBytes X) = some t ∧ t.syms.Nodup ∧ ∀ x ∈ X, x ∈ t.syms := by
  have hcount : ∀ x ∈ X, 0 < (countBytes X).get x := fun x hx => by
    rw [countBytes_get]
    exact List.count_pos_iff.2 hx
  obtain ⟨x, hx⟩ := List.exists_mem_of_ne_nil X hX
  obtain ⟨t, ht⟩ := exists_build_eq_some (hcount x hx)
  obtain ⟨hnd, _⟩ := build_ok ht
  obtain ⟨hsyms, _⟩ := build_counts ht
  exact ⟨t, ht, hnd, fun x hx => (hsyms x).2 (hcount x hx)⟩

/-- Encodings are read off from the front in one way only: where one encoding begins another, its symbols begin the other's,
since no code is empty and none begins another (R137). -/
theorem prefix_of_encodeBytes_prefix {t : HTree} (hnd : t.syms.Nodup) {X Y : List Byte} (hX : ∀ x ∈ X, x ∈ t.syms)
    (hY : ∀ y ∈ Y, y ∈ t.syms) (h : (codes (some t)).encodeBytes X <+: (codes (some t)).encodeBytes Y) : X <+: Y := by
  obtain ⟨hlen, hfree⟩ := codes_ok hnd
  have hcode : ∀ x ∈ t.syms, (codes (some t)).get x = some ((codes (some t)).bitsOf x) := fun x hx => by
    obtain ⟨w, hw⟩ := Option.ne_none_iff_exists'.1 ((codes_get_ne_none_iff hnd x).2 hx)
    rw [hw, CodeTable.bitsOf_eq_of_get hw]
  induction X generalizing Y with
  | nil => exact List.nil_prefix
  | cons x X ih =>
    obtain ⟨hx, hX⟩ := List.forall_mem_cons.1 hX
    rw [CodeTable.encodeBytes_cons] at h
    cases Y with
    | nil =>
      obtain ⟨hpos, _⟩ := hlen x _ (hcode x hx)
      rw [CodeTable.encodeBytes_nil, List.prefix_nil, List.append_eq_nil_iff] at h
      simp [h.1] at hpos
    | cons y Y =>
      obtain ⟨hy, hYs⟩ := List.forall_mem_cons.1 hY
      rw [CodeTable.encodeBytes_cons] at h
      have hxy : x = y := by
        by_contra hne
        rcases List.prefix_or_prefix_of_prefix ((List.prefix_append _ _).trans h) (List.prefix_append _ _) with hpre | hpre
        · exact hfree x y _ _ (hcode x hx) (hcode y hy) hne hpre
        · exact hfree y x _ _ (hcode y hy) (hcode x hx) (Ne.symm hne) hpre
      subst hxy
      exact (List.prefix_cons_inj x).2 (ih hX hYs ((List.prefix_append_right_inj _).1 h))

/-- The longest decoding of an encoding is what was encoded, and it is whole (R164, R184). -/
theorem LongestDecoding.eq_of_encodeBytes {t : HTree} (hnd : t.syms.Nodup) {X Y : List Byte} {whole : Bool} (hX : ∀ x ∈ X, x ∈ t.syms)
    (h : LongestDecoding t ((codes (some t)).encodeBytes X) Y whole) : Y = X ∧ whole = true := by
  obtain ⟨Z, rfl⟩ := prefix_of_encodeBytes_prefix hnd h.symbols hX h.begins
  cases Z with
  | nil => exact ⟨(List.append_nil Y).symm, h.whole_iff.2 (by rw [List.append_nil])⟩
  | cons b Z =>
    refine absurd ?_ (h.longest b (hX b (by simp)))
    rw [CodeTable.encodeBytes, CodeTable.encodeBytes, List.append_cons Y b Z, List.flatMap_append (xs := Y ++ [b])]
    exact List.prefix_append _ _

/-- The walk undoes the encoding (R164, R184). -/
theorem walkPayload_encodeBytes {t : HTree} (hnd : t.syms.Nodup) {X : List Byte} (hX : ∀ x ∈ X, x ∈ t.syms) :
    walkPayload t ((codes (some t)).encodeBytes X) = (X, true) :=
  Prod.ext_iff.2 ((longestDecoding_walkPayload hnd _).eq_of_encodeBytes hnd hX)

/-- A message is its bits, the sentinel and the fill (R81). -/
theorem unpack_message (X : List Byte) : ∃ z, unpack (message X) = messageBits X ++ true :: List.replicate z false := by
  have hunpack : unpack (message X) = fillOut (messageBits X ++ [true]) := unpack_pack _ (length_fillOut _)
  exact ⟨_, by rw [hunpack, fillOut, fill, List.append_assoc, List.singleton_append]⟩

theorem dec_of_split_none {F : List Byte} (hF : F ≠ [0x80#8]) (h : splitDictionary (unpack F) = none) : dec F = ([], false) := by
  simp [dec, hF, h]

theorem dec_of_split_some {F : List Byte} (hF : F ≠ [0x80#8]) {t : HTree} {R : Bits}
    (h : splitDictionary (unpack F) = some (t, R)) : dec F = decodeResidual t R := by
  simp [dec, hF, h]

/-- The pure decoder undoes the pure encoder (R182, R184). -/
theorem dec_message (X : List Byte) : dec (message X) = (X, true) := by
  obtain ⟨hempty, hlong⟩ := emptyMessageIsUnique
  rcases eq_or_ne X [] with rfl | hX
  · simp [hempty, dec]
  · have hF : message X ≠ [0x80#8] := fun h => by
      have := hlong X hX
      simp [h] at this
    obtain ⟨t, ht, hnd, hsyms⟩ := exists_build_countBytes hX
    have hzero : t.zeroed.syms.Nodup := t.syms_zeroed.symm ▸ hnd
    obtain ⟨z, hunpack⟩ := unpack_message X
    have hbits : unpack (message X) = t.ser ++ ((codes (some t)).encodeBytes X ++ true :: List.replicate z false) := by
      rw [hunpack, messageBits, ht, serialise, List.append_assoc]
    have hsplit := hbits ▸ splitDictionary_ser hnd ((codes (some t)).encodeBytes X ++ true :: List.replicate z false)
    rw [dec_of_split_some hF hsplit, decodeResidual, stripTrailer_sentinel, ← codes_zeroed t]
    exact walkPayload_encodeBytes hzero (t.syms_zeroed.symm ▸ hsyms)

/-! ### HENC -/

/-- On an unpadded stream the trailer and the close leave the store that a padded close leaves in their place (R161, R244). -/
theorem flush_trailer {c : Channel} {m : Memory} (hc : c.Writing m) (hpad : c.pad = false) :
    (trailer (c, m)).1.flush (trailer (c, m)).2 = { c with pad := true }.flush m := by
  have ⟨_, hmode, _⟩ := hc
  rw [trailer_appends_byte hc, Channel.flush_padded (c := { c with pad := true }) hmode rfl]
  exact Channel.flush_empty (c := { c with buf := 0#8, cur := 8 }) hmode hpad rfl _

/-- Padding matters at the close of a stream alone (R102, R105). -/
theorem Grew.padded {f : FileId} {m : Memory} {bits : Bits} {x : Channel × Memory} (hx : Grew (Channel.openWr false f) m bits x) :
    Grew (Channel.openWr true f) m bits ({ x.1 with pad := true }, x.2) := by
  obtain ⟨⟨hopen, hmode, _, hfid⟩, ⟨_, hok⟩, hwritten, hothers, hprefixed⟩ := hx
  exact ⟨⟨hopen, hmode, rfl, hfid⟩, ⟨fun h => absurd (hopen.symm.trans h) nofun, hok⟩, hwritten, hothers, hprefixed⟩

theorem Channel.writing_openWr (pad : Bool) (f : FileId) (m : Memory) : (Channel.openWr pad f).Writing (m.truncate f) :=
  ⟨rfl, rfl, Channel.ok_openWr pad (by simp [Memory.fileExists])⟩

/-- Bits, the trailer and the close on a fresh unpadded stream leave the padded file of the bits (R78, R81, R161). -/
theorem flush_trailer_putBits (f : FileId) (m : Memory) (bits : Bits) :
    (trailer (putBits (Channel.openWr false f, m.truncate f) bits)).1.flush
        (trailer (putBits (Channel.openWr false f, m.truncate f) bits)).2 =
      m.setFile f { present := true, data := paddedFile bits } := by
  have hw := Channel.writing_openWr false f m
  have hgrew := putBits_grew hw bits
  obtain ⟨_, _, hpad, _⟩ := hgrew.handle
  obtain ⟨hfile, hothers⟩ := hgrew.padded.file_flush
  rw [flush_trailer (hgrew.writing hw) hpad]
  refine Memory.ext_file fun g => ?_
  by_cases hg : g = f
  · rw [hg, hfile, Memory.file_setFile_self, if_pos rfl]
  · rw [hothers g hg, Memory.file_setFile_of_ne _ _ hg]

/-- Truncation is a store of the empty file (R51). -/
theorem Memory.setFile_empty (m : Memory) (f : FileId) : m.setFile f { present := true, data := [] } = m.truncate f := rfl

/-- A release touches no file (R180). -/
theorem State.release_setFiles (s : State) (m : Memory) : (s.setFiles m).release = s.release.setFiles m := rfl

/-- The pipeline's encoder writes the dictionary and the codes as a padded file (R81, R180). -/
theorem encodeInto_eq (fb : FileId) (t : Option HTree) (data : List Byte) (m : Memory) :
    encodeInto fb t data m =
      m.setFile fb { present := true, data := paddedFile (serialise t ++ (codes t).encodeBytes data) } := by
  rw [encodeInto, emitTree_eq, ← putBits_append, flush_trailer_putBits]

theorem exec_henc_of_fileError {fa fb : FileId} {s : State} (h : s.readable fa = false ∨ fa = fb ∨ s.writable fb = false) :
    exec (.henc fa fb) s = .next (s.release.complete .fileError) := by
  rcases h with hr | heq | hw
  · simp [exec, execHenc, hr]
  · simp [exec, execHenc, heq]
  · simp [exec, execHenc, hw]

/-- HENC with its checks passed writes the message of its input (R81, R180). -/
theorem exec_henc {fa fb : FileId} {s : State} (hr : s.readable fa = true) (hne : fa ≠ fb) (hw : s.writable fb = true)
    (hl : s.files.fileLen fa < 4294967296) : exec (.henc fa fb) s = .next ((s.release.setFiles (s.files.setFile fb
      { present := true, data := message (s.files.data fa) })).complete .ok) := by
  simp [exec, execHenc, hr, hne, hw, tooLong_of_lt hl, encodeInto_eq, State.release_setFiles, message, messageBits]

/-- Settles O53: the encoder's stream is a padded file of the message's bits. -/
theorem hencWritesTheMessage : Obligations.HencWritesTheMessage := by
  intro fa fb s
  refine ⟨?_, exec_henc_of_fileError, exec_henc⟩
  exact opcode_encode_of_row 17 (by decide) (codes_of_files (by decide) (fun _ _ => rfl) fa fb)

/-! ### HDEC -/

theorem Channel.reading_openRd {m : Memory} {f : FileId} (pad : Bool) (he : m.fileExists f = true) :
    (Channel.openRd pad f).Reading m :=
  ⟨rfl, rfl, Channel.ok_openRd pad he⟩

theorem State.fileExists_of_readable {s : State} {f : FileId} (hr : s.readable f = true) : s.files.fileExists f = true :=
  ((s.readable_iff f).1 hr).1

theorem exec_hdec_of_fileError {fa fb : FileId} {s : State} (h : s.readable fa = false ∨ fa = fb ∨ s.writable fb = false) :
    exec (.hdec fa fb) s = .next (s.release.complete .fileError) := by
  rcases h with hr | heq | hw
  · simp [exec, execHdec, hdecWith, hr]
  · simp [exec, execHdec, hdecWith, heq]
  · simp [exec, execHdec, hdecWith, hw]

/-- HDEC with its checks passed writes what the pure decoder gives: emptying the output changes nothing of the input, so the channel
delivers the input's bits, and the channel's parser and residual are those of the bits (R181, R182). -/
theorem exec_hdec {fa fb : FileId} {s : State} (hr : s.readable fa = true) (hne : fa ≠ fb) (hw : s.writable fb = true) :
    exec (.hdec fa fb) s = .next ((s.release.setFiles (s.files.setFile fb
      { present := true, data := (dec (s.files.data fa)).1 })).complete
        (if (dec (s.files.data fa)).2 then .ok else .formatError)) := by
  by_cases hF : s.files.data fa = [0x80#8]
  · simp [exec, execHdec, hdecWith, hr, hne, hw, hF, dec, State.release_setFiles, Memory.setFile_empty]
  · obtain ⟨hdata, _, hexists, _⟩ := Memory.read_congr (s.files.file_truncate_of_ne hne)
    have hc := Channel.reading_openRd (m := s.files.truncate fb) false (hexists.trans (State.fileExists_of_readable hr))
    have hbits : (Channel.openRd false fa).toRead (s.files.truncate fb) = unpack (s.files.data fa) := by
      rw [Channel.toRead_openRd, hdata]
      rfl
    have hparsed := parseDictionary_spec hc
    rw [hbits] at hparsed
    rcases hparsed with ⟨t, R, c, hsplit, hparse, hl⟩ | ⟨hsplit, c, _, hparse, _⟩
    · obtain ⟨c', hresidual, _⟩ := readResidual_spec (hl.reading hc)
      have ⟨_, _, hrest⟩ := hl
      rw [hrest] at hresidual
      rw [dec_of_split_some hF hsplit]
      simp [exec, execHdec, hdecWith, hr, hne, hw, hF, hparse, hresidual, Config.rmax, overRmax, formatOutcome,
        State.release_setFiles]
    · rw [dec_of_split_none hF hsplit]
      simp [exec, execHdec, hdecWith, hr, hne, hw, hF, hparse, State.release_setFiles, Memory.setFile_empty]

/-- Settles O54: the channel's parser, residual and walk are those of the input's bits. -/
theorem hdecWritesTheDecoding : Obligations.HdecWritesTheDecoding := by
  intro fa fb s
  refine ⟨?_, exec_hdec_of_fileError, exec_hdec⟩
  exact opcode_encode_of_row 18 (by decide) (codes_of_files (by decide) (fun _ _ => rfl) fa fb)

/-! ### The round trip -/

/-- A writable file that exists is readable: no channel is bound to it (R59). -/
theorem State.readable_of_writable {s : State} {f : FileId} (hw : s.writable f = true) (he : s.files.fileExists f = true) :
    s.readable f = true :=
  (s.readable_iff f).2 ⟨he, fun ch ⟨hopen, hfid, _⟩ => (s.writable_iff f).1 hw ch ⟨hopen, hfid⟩⟩

/-- Settles O59: HDEC decodes the message that HENC wrote, and the pure decoder undoes the pure encoder. -/
theorem huffmanRoundTrip : Obligations.HuffmanRoundTrip := by
  intro fa fb fc s hab hbc hr hwb hwc hl
  have hread : ((s.release.setFiles (s.files.setFile fb
      { present := true, data := message (s.files.data fa) })).complete .ok).readable fb = true :=
    State.readable_of_writable (by simpa using hwb) (by simp [Memory.fileExists])
  refine ⟨_, _, exec_henc hr hab hwb hl, ?_, exec_hdec hread hbc (by simpa using hwc), ?_, ?_⟩
  · rw [State.complete_status, statusCode_statusAfter]
    rfl
  · simp [dec_message, Completion.code]
  · simp [dec_message]

/-! ### The encoder's stages -/

/-- In `t`, reached from `s`, channel `ch` is in a write session without padding on file `f` that has been given the bits `bits`; the other
channels, TREE and CODE are those of `s`. -/
structure InSession (s : State) (ch : ChanId) (f : FileId) (bits : Bits) (t : State) : Prop where
  stream : (t.chan ch, t.files) = putBits (Channel.openWr false f, s.files.truncate f) bits
  others : ∀ k, k ≠ ch → t.chan k = s.chan k
  tree : t.tree = s.tree
  code : t.code = s.code

section
variable {s t : State} {ch : ChanId} {f : FileId} {bits : Bits}

theorem exec_bsopen_inSession (ho : (s.chan ch).isOpen = false) (hw : s.writable f = true) :
    ∃ t, exec (.bsopen ch f .wr false) s = .next t ∧ InSession s ch f [] t :=
  ⟨_, exec_bsopen_wr ho hw false, by simp [putBits], fun k hk => by simp [hk], rfl, rfl⟩

theorem InSession.grew (h : InSession s ch f bits t) :
    Grew (Channel.openWr false f) (s.files.truncate f) bits (t.chan ch, t.files) :=
  h.stream ▸ putBits_grew (Channel.writing_openWr false f s.files) bits

theorem InSession.openFor (h : InSession s ch f bits t) : t.openFor .wr ch = true := by
  obtain ⟨hopen, hmode, _⟩ := h.grew.handle
  exact (t.openFor_iff .wr ch).2 ⟨hopen, hmode⟩

/-- More bits put on the session's stream. -/
theorem InSession.put (h : InSession s ch f bits t) (more : Bits) :
    InSession s ch f (bits ++ more) ((t.setStream ch (putBits (t.chan ch, t.files) more)).complete .ok) where
  stream := by simp [putBits_append, ← h.stream]
  others k hk := by simpa [hk] using h.others k hk
  tree := h.tree
  code := h.code

/-- The session changes no other file. -/
theorem InSession.file_eq (h : InSession s ch f bits t) {g : FileId} (hg : g ≠ f) : t.files.file g = s.files.file g :=
  (h.grew.others g hg).trans (s.files.file_truncate_of_ne hg)

/-- The session leaves every other file as readable as it was (R59). -/
theorem InSession.readable (h : InSession s ch f bits t) {g : FileId} (hg : g ≠ f) (hr : s.readable g = true) :
    t.readable g = true := by
  obtain ⟨hexists, hnot⟩ := (s.readable_iff g).1 hr
  obtain ⟨_, _, hexists', _⟩ := Memory.read_congr (h.file_eq hg)
  refine (t.readable_iff g).2 ⟨hexists'.trans hexists, fun k => ?_⟩
  by_cases hk : k = ch
  · obtain ⟨_, _, _, hfid⟩ := h.grew.handle
    exact fun ⟨_, hkg, _⟩ => hg (hkg.symm.trans (hk ▸ hfid))
  · rw [h.others k hk]
    exact hnot k

/-- TRAIL and BSCLOSE end the session with the padded file of its bits (R78, R161). -/
theorem InSession.close (h : InSession s ch f bits t) : ∃ u, execAll [.trail ch, .bsclose ch] t = .next u ∧
    u.files = s.files.setFile f { present := true, data := paddedFile bits } := by
  obtain ⟨hopen, _⟩ := h.grew.handle
  have htrail := exec_trail h.openFor
  rw [h.stream] at htrail
  have hopen : (trailer (putBits (Channel.openWr false f, s.files.truncate f) bits)).1.isOpen = true := by
    rw [← h.stream]
    exact ((trailer_sameHandle _).1).trans hopen
  exact ⟨_, (execAll_cons htrail _).trans (execAll_cons (exec_bsclose (by simpa using hopen)) _),
    by simp [flush_trailer_putBits]⟩

end

/-- The table of an input has a code for each of its bytes (R160). -/
theorem codes_build_isSome (X : List Byte) : (X.all fun v => ((codes (build (countBytes X))).get v).isSome) = true := by
  refine List.all_eq_true.2 fun v hv => ?_
  obtain ⟨t, ht, hnd, hsyms⟩ := exists_build_countBytes (List.ne_nil_of_mem hv)
  rw [ht, Option.isSome_iff_ne_none]
  exact (codes_get_ne_none_iff hnd v).2 (hsyms v hv)

/-- The stages from BSOPEN to BSCLOSE, where CODE has a code for each byte of the input: the output is the padded file of
dictionary and codes (R183). -/
theorem execAll_write_stages {ch : ChanId} {fa fb : FileId} {s : State} (ho : (s.chan ch).isOpen = false) (hne : fa ≠ fb)
    (hr : s.readable fa = true) (hw : s.writable fb = true) (hl : s.files.fileLen fa < 4294967296)
    (hcodes : ((s.files.data fa).all fun v => (s.code.get v).isSome) = true) :
    ∃ t, execAll [.bsopen ch fb .wr false, .tser ch, .penc ch fa, .trail ch, .bsclose ch] s = .next t ∧
      t.files = s.files.setFile fb
        { present := true, data := paddedFile (serialise s.tree ++ s.code.encodeBytes (s.files.data fa)) } := by
  obtain ⟨t₁, hopen, h₁⟩ := exec_bsopen_inSession ho hw
  have htser := exec_tser h₁.openFor
  have h₂ := h₁.put (serialise t₁.tree)
  obtain ⟨hdata, hlen, _⟩ := Memory.read_congr (h₂.file_eq hne)
  have hpenc := exec_penc h₂.openFor (h₂.readable hne hr) (hlen ▸ hl)
  rw [hdata, h₂.code, if_pos hcodes] at hpenc
  obtain ⟨t, hclose, hfiles⟩ := (h₂.put (s.code.encodeBytes (s.files.data fa))).close
  refine ⟨t, ?_, by rw [hfiles, h₁.tree, List.nil_append]⟩
  rw [execAll_cons hopen, execAll_cons htser, execAll_cons hpenc, hclose]

theorem exec_tbuild (s : State) : exec .tbuild s = .next ((s.setTree (build s.freq)).complete .ok) := rfl

theorem exec_cgen (s : State) : exec .cgen s = .next ((s.setCode (codes s.tree)).complete .ok) := rfl

/-- Settles O57: FSCAN, TBUILD and CGEN leave the tables that HENC computes, and the write session of the other stages leaves its file. -/
theorem encoderStagesEqualHenc : Obligations.EncoderStagesEqualHenc := by
  intro fa fb s ho hne hr hw hl
  obtain ⟨t, hstages, hfiles⟩ := execAll_write_stages (ch := 0) (fa := fa) (fb := fb)
    (s := (((((s.setFreq (countBytes (s.files.data fa))).complete .ok).setTree (build (countBytes (s.files.data fa)))).complete
      .ok).setCode (codes (build (countBytes (s.files.data fa))))).complete .ok)
    ho hne hr hw hl (codes_build_isSome _)
  refine ⟨t, _, ?_, exec_henc hr hne hw hl, hfiles⟩
  rw [execAll_cons (exec_fscan hr hl), execAll_cons (exec_tbuild _), execAll_cons (exec_cgen _)]
  exact hstages

/-! ### The decoder's stages -/

/-- Opening a channel on another file leaves a file writable (R59). -/
theorem State.writable_setChan {s : State} {f : FileId} (hw : s.writable f = true) {ch : ChanId} {c : Channel} (hc : c.fid ≠ f) :
    (s.setChan ch c).writable f = true := by
  refine (State.writable_iff _ f).2 fun k => ?_
  by_cases hk : k = ch
  · rw [hk, State.chan_setChan_self]
    exact fun ⟨_, hfid⟩ => hc hfid
  · rw [State.chan_setChan_of_ne s c hk]
    exact (s.writable_iff f).1 hw k

/-- TDES where the stream holds a dictionary (R148). -/
theorem exec_tdes_of_parse {ch : ChanId} {s : State} {t : HTree} {c : Channel} (ho : s.openFor .rd ch = true)
    (h : parseDictionary s.files (s.chan ch) = (some t, c)) :
    exec (.tdes ch) s = .next (((s.setChan ch c).setTree (some t)).complete .ok) := by
  simp [exec, execTdes, ho, h]

/-- PDEC and BSCLOSE write what the rest of the stream decodes to: the close of a reading channel touches no file (R102, R165). -/
theorem execAll_pdec_bsclose {ch : ChanId} {fb : FileId} {s : State} {t : HTree} (hc : (s.chan ch).Reading s.files)
    (hw : s.writable fb = true) (ht : s.tree = some t) :
    ∃ u, execAll [.pdec ch fb, .bsclose ch] s = .next u ∧ u.files = s.files.setFile fb
      { present := true, data := (decodeResidual t ((s.chan ch).toRead s.files)).1 } := by
  have ⟨hopen, hmode, _⟩ := hc
  obtain ⟨c, hresidual, ⟨⟨hopen', hmode', _⟩, _⟩, _⟩ := readResidual_truncate hc (State.ne_fid_of_writable hw hopen)
  have hpdec := exec_pdec ((s.openFor_iff .rd ch).2 ⟨hopen, hmode⟩) hw ht hresidual
  exact ⟨_, (execAll_cons hpdec _).trans (execAll_cons (exec_bsclose (by simpa using hopen'.trans hopen)) _),
    by simp [Channel.flush_rd (hmode'.trans hmode)]⟩

/-- The decoder's stages on an input whose dictionary parses: the output is what the residual decodes to (R183). -/
theorem execAll_read_stages {ch : ChanId} {fa fb : FileId} {s : State} (ho : (s.chan ch).isOpen = false) (hne : fa ≠ fb)
    (hr : s.readable fa = true) (hw : s.writable fb = true) {t : HTree} {R : Bits}
    (hsplit : splitDictionary (unpack (s.files.data fa)) = some (t, R)) :
    ∃ u, execAll [.bsopen ch fa .rd false, .tdes ch, .pdec ch fb, .bsclose ch] s = .next u ∧
      u.files = s.files.setFile fb { present := true, data := (decodeResidual t R).1 } := by
  have hread := Channel.reading_openRd false (State.fileExists_of_readable hr)
  have hbits : (Channel.openRd false fa).toRead s.files = unpack (s.files.data fa) := Channel.toRead_openRd false fa s.files
  have hparsed := parseDictionary_spec hread
  rw [hbits, hsplit] at hparsed
  rcases hparsed with ⟨_, _, c, ⟨⟩, hparse, hl⟩ | ⟨hnone, _⟩
  · have ⟨⟨_, _, _, hfid⟩, _, hrest⟩ := hl
    have hfid : c.fid ≠ fb := hfid.symm ▸ hne
    have htdes := exec_tdes_of_parse (ch := ch) (s := (s.setChan ch (Channel.openRd false fa)).complete .ok)
      (by simp [State.openFor_iff, Channel.openRd]) (by simpa using hparse)
    obtain ⟨u, hu, hfiles⟩ := execAll_pdec_bsclose (ch := ch) (fb := fb) (t := t)
      (s := ((((s.setChan ch (Channel.openRd false fa)).complete .ok).setChan ch c).setTree (some t)).complete .ok)
      (by simpa using hl.reading hread) (State.writable_setChan (State.writable_setChan hw hne) hfid) rfl
    refine ⟨u, ?_, by simpa [hrest] using hfiles⟩
    rw [execAll_cons (exec_bsopen_rd ho hr false), execAll_cons htdes, hu]
  · cases hnone

/-- Settles O58: the stages read the same dictionary and residual as the pure decoder, which HDEC agrees with. -/
theorem decoderStagesEqualHdec : Obligations.DecoderStagesEqualHdec := by
  intro fa fb s ho hne hr hw hF hsplit
  obtain ⟨⟨t, R⟩, hsplit⟩ := Option.ne_none_iff_exists'.1 hsplit
  obtain ⟨u, hstages, hfiles⟩ := execAll_read_stages ho hne hr hw hsplit
  exact ⟨u, _, hstages, exec_hdec hr hne hw, by simp [hfiles, dec_of_split_some hF hsplit]⟩

end Sys2Proof.Machine
end

/-! ### The system commands NOP, CLRERR and SRESET -/

section
namespace Sys2Proof.Machine

/-- A word of opcode 0 with any other bit set misses the row of NOP, whose mask is every bit (R71, R200). -/
theorem decode_illegal_of_opcode_zero {w : Word} (hop : w.extractLsb' 24 8 = 0x00#8) (hw : w ≠ 0#32) :
    ∃ why, decode w = .illegal why := by
  obtain ⟨_, unusedFieldSet, _⟩ := illegalWordsEndInCmdError
  refine unusedFieldSet w _ List.mem_cons_self (hop.trans (by decide)) ?_
  change w &&& BitVec.allOnes 32 ≠ 0#32
  rwa [BitVec.and_allOnes]

/-- NOP is its completion with OK alone (R200). -/
theorem exec_nop (s : State) : exec .nop s = .next { s with status := s.status &&& 0x700#32, pc := s.pc + 1 } := by
  rw [← statusAfter_ok]
  rfl

/-- Settles O23: the completion with OK keeps the sticky bits, and only the word 0 falls in the row of NOP. -/
theorem nopOnlyCompletes : Obligations.NopOnlyCompletes := by
  refine ⟨rfl, exec_nop, fun w s hop hw => ?_⟩
  obtain ⟨_, hillegal⟩ := decode_illegal_of_opcode_zero hop hw
  exact runWord_of_illegal hillegal s

/-- The completion with OK keeps no bit but the sticky ones, so STATUS is 0 after it once those are cleared (R201, R215). -/
theorem statusAfter_clearSticky (w : Word) : statusAfter (w &&& ~~~stickyMask) .ok = 0#32 := by
  have hmask : ~~~stickyMask &&& 0x700#32 = 0#32 := by decide
  rw [statusAfter_ok, BitVec.and_assoc, hmask, BitVec.and_zero]

/-- Settles O24: the command clears the sticky bits, and its completion every other bit. -/
theorem clrerrClearsStatus : Obligations.ClrerrClearsStatus := by
  refine ⟨rfl, fun s => ?_⟩
  rw [← statusAfter_clearSticky s.status]
  rfl

/-- The power-on state has every element at its reset value (R39, R240). -/
theorem State.atReset_reset : State.reset.AtReset := by
  have hchan (ch : ChanId) : State.reset.chan ch = Channel.closed := Vector.getElem_replicate ch.isLt
  have hdbuf (i : Fin 32) : State.reset.dbuf[i.val] = 0#8 := Vector.getElem_replicate i.isLt
  exact ⟨hchan, FreqTable.get_zero, rfl, CodeTable.get_empty, rfl, rfl, hdbuf⟩

/-- SRESET's next state: the completion with OK leaves the zero of STATUS as it is (R202). -/
theorem exec_sreset (s : State) : exec .sreset s = .next
    { State.reset with files := s.files, program := s.program, pc := s.pc + 1, hostMoves := s.hostMoves } := by
  have hstatus : statusAfter State.reset.status .ok = State.reset.status := by decide
  simp only [exec, execSreset, finish, State.complete, hstatus]

/-- Settles O10: SRESET's next state has the block of the power-on state and the store, program and moves of the state before. -/
theorem resetTableHolds : Obligations.ResetTableHolds :=
  ⟨State.atReset_reset, rfl, rfl, fun s => ⟨_, exec_sreset s, State.atReset_reset, rfl, rfl, rfl, rfl⟩⟩

end Sys2Proof.Machine
end

/-! ### Outcomes: the code recorded, the outcomes a command may have, and STATUS as a mere record -/

section
namespace Sys2Proof.Machine

/-! ### The code recorded in STATUS -/

/-- STATUS holds the code of an outcome exactly when the command ended with that outcome: the codes are distinct (R210). -/
theorem statusCode_statusAfter_eq_iff (w : Word) (o p : Completion) : statusCode (statusAfter w o) = p.code.toNat ↔ o = p := by
  rw [statusCode_statusAfter]
  cases o <;> cases p <;> decide

/-- Settles O11: a command ends in its completion sequence, which writes the code and adds the sticky bit of that code's error. -/
theorem everyCommandRecordsOneOutcome : Obligations.EveryCommandRecordsOneOutcome := by
  intro i s t h
  obtain ⟨u, o, rfl, hstatus, _, hpc, hprogram, hmoves⟩ := exec_completes h
  have hcode (p : Completion) : decide (o = p) = decide (statusCode (statusAfter u.status o) = p.code.toNat) :=
    decide_eq_decide.2 (statusCode_statusAfter_eq_iff u.status o p).symm
  refine ⟨statusCode_statusAfter_le u.status o, statusAfter_reserved u.status o, congrArg (· + 1) hpc, hprogram, hmoves,
    fun hclr hres => ?_⟩
  rw [State.complete_status, ← hstatus hclr hres, statusSfile_statusAfter, statusSfmt_statusAfter, statusScmd_statusAfter]
  exact ⟨congrArg _ (hcode .fileError), congrArg _ (hcode .formatError), congrArg _ (hcode .cmdError)⟩

/-! ### The outcomes a command may have -/

/-- The commands that may end with an outcome, for the outcomes that R212 to R214 restrict. CmdError is also the end of a command
that no word decodes to (log 14). -/
def MayEnd (i : Instr) : Completion → Prop
  | .ok | .fileError => True
  | .eos => ∃ ch, i = .rdbit ch
  | .formatError => (∃ ch, i = .tdes ch) ∨ (∃ ch fb, i = .pdec ch fb) ∨ ∃ fa fb, i = .hdec fa fb
  | .cmdError => i.wellFormed = false ∨ (∃ ch fa, i = .penc ch fa) ∨ ∃ ch fb, i = .pdec ch fb

/-- From `s` to `t` the command `i` ended with an outcome it may have, and with FileError or CmdError it had done nothing but the release
of the tables that a pipeline does on every exit (R180, R181, R216). -/
def Ends (i : Instr) (s t : State) : Prop :=
  ∃ (u : State) (o : Completion), t = u.complete o ∧ MayEnd i o ∧
    (o = .fileError ∨ o = .cmdError → u = if releases i then s.release else s)

theorem ends_ok {i : Instr} {s : State} (u : State) : Ends i s (u.complete .ok) := ⟨u, .ok, rfl, trivial, by simp⟩

theorem ends_formatError {i : Instr} {s : State} (u : State) (hi : MayEnd i .formatError) : Ends i s (u.complete .formatError) :=
  ⟨u, .formatError, rfl, hi, by simp⟩

theorem ends_formatOutcome {i : Instr} {s : State} (u : State) (hi : MayEnd i .formatError) (good : Bool) :
    Ends i s (u.complete (formatOutcome good)) := by
  cases good with
  | true => exact ends_ok u
  | false => exact ends_formatError u hi

/-- A check that fails before the command has changed anything (R100, R211). -/
theorem ends_fileError {i : Instr} {s : State} (hi : releases i = false) : Ends i s (s.complete .fileError) :=
  ⟨s, .fileError, rfl, trivial, fun _ => by simp [hi]⟩

theorem ends_cmdError {i : Instr} {s : State} (hi : releases i = false) (hmay : MayEnd i .cmdError) : Ends i s (s.complete .cmdError) :=
  ⟨s, .cmdError, rfl, hmay, fun _ => by simp [hi]⟩

/-- A check that fails in a pipeline, which releases the tables (R180, R181). -/
theorem ends_fileError_release {i : Instr} {s : State} (hi : releases i = true) : Ends i s (s.release.complete .fileError) :=
  ⟨s.release, .fileError, rfl, trivial, fun _ => by simp [hi]⟩

/-- A bulk transfer of more than 256 bits is not well formed (R73). -/
theorem mayEnd_cmdError_of_count {i : Instr} {n : Nat} (hi : i.wellFormed = decide (n ≤ Config.bulkMax)) (hn : Config.bulkMax < n) :
    MayEnd i .cmdError :=
  .inl (by simpa [hi] using hn)

theorem exec_ends {i : Instr} {s t : State} (h : exec i s = .next t) : Ends i s t := by
  cases i with
  | nop => cases h; exact ends_ok _
  | clrerr => cases h; exact ends_ok _
  | sreset => cases h; exact ends_ok _
  | bsopen ch fa md pad =>
    rcases execBsopen_cases h with rfl | ⟨_, _, _, rfl⟩ | ⟨_, _, _, rfl⟩
    · exact ends_fileError rfl
    · exact ends_ok _
    · exact ends_ok _
  | bsclose ch =>
    rcases execBsclose_cases h with ⟨_, rfl⟩ | ⟨_, rfl⟩
    · exact ends_fileError rfl
    · exact ends_ok _
  | rdbit ch =>
    rcases execRdbit_cases h with ⟨_, rfl⟩ | ⟨_, _, _, _, rfl⟩ | ⟨_, _, _, rfl⟩
    · exact ends_fileError rfl
    · exact ends_ok _
    · exact ⟨_, .eos, rfl, ⟨ch, rfl⟩, by simp⟩
  | wrbit ch bit =>
    rcases execWrbit_cases h with ⟨_, rfl⟩ | ⟨_, rfl⟩
    · exact ends_fileError rfl
    · exact ends_ok _
  | rdbits ch n =>
    rcases execRdbits_cases h with ⟨hn, rfl⟩ | ⟨_, _, rfl⟩ | ⟨_, _, _, _, _, rfl⟩
    · exact ends_cmdError rfl (mayEnd_cmdError_of_count rfl hn)
    · exact ends_fileError rfl
    · exact ends_ok _
  | wrbits ch n =>
    rcases execWrbits_cases h with ⟨hn, rfl⟩ | ⟨_, _, rfl⟩ | ⟨_, _, rfl⟩
    · exact ends_cmdError rfl (mayEnd_cmdError_of_count rfl hn)
    · exact ends_fileError rfl
    · exact ends_ok _
  | fscan fa =>
    rcases execFscan_cases h with ⟨_, rfl⟩ | ⟨_, _, rfl⟩
    · exact ends_fileError rfl
    · exact ends_ok _
  | tbuild => cases h; exact ends_ok _
  | cgen => cases h; exact ends_ok _
  | tser ch =>
    rcases execTser_cases h with ⟨_, rfl⟩ | ⟨_, rfl⟩
    · exact ends_fileError rfl
    · exact ends_ok _
  | tdes ch =>
    rcases execTdes_cases h with ⟨_, rfl⟩ | ⟨_, _, _, _, rfl⟩ | ⟨_, _, _, rfl⟩
    · exact ends_fileError rfl
    · exact ends_ok _
    · exact ends_formatError _ (.inl ⟨ch, rfl⟩)
  | penc ch fa =>
    rcases execPenc_cases h with rfl | rfl | ⟨_, _, _, rfl⟩
    · exact ends_fileError rfl
    · exact ends_cmdError rfl (.inr (.inl ⟨ch, fa, rfl⟩))
    · exact ends_ok _
  | trail ch =>
    rcases execTrail_cases h with ⟨_, rfl⟩ | ⟨_, rfl⟩
    · exact ends_fileError rfl
    · exact ends_ok _
  | pdec ch fb =>
    rcases execPdec_cases h with rfl | ⟨_, rfl⟩ | ⟨_, _, _, _, _, _, _, rfl⟩
    · exact ends_fileError rfl
    · exact ends_cmdError rfl (.inr (.inr ⟨ch, fb, rfl⟩))
    · exact ends_formatOutcome _ (.inr (.inl ⟨ch, fb, rfl⟩)) _
  | henc fa fb =>
    rcases execHenc_cases h with rfl | ⟨_, _, _, _, rfl⟩
    · exact ends_fileError_release rfl
    · exact ends_ok _
  | hdec fa fb =>
    rcases execHdec_cases h with rfl | ⟨_, _, _, _, _, rfl | rfl, rfl⟩
    · exact ends_fileError_release rfl
    · exact ends_ok _
    · exact ends_formatError _ (.inr (.inr ⟨fa, fb, rfl⟩))

/-- The commands without a check always end OK (R200 to R202, R122, R136). -/
theorem statusCode_of_unchecked {i : Instr} {s t : State}
    (hi : i = .nop ∨ i = .clrerr ∨ i = .sreset ∨ i = .tbuild ∨ i = .cgen) (h : exec i s = .next t) : statusCode t.status = 0 := by
  rcases hi with rfl | rfl | rfl | rfl | rfl <;> cases h <;> exact statusCode_statusAfter _ .ok

/-- Settles O12: the code names the outcome, which is one the command may have. -/
theorem outcomesByCommand : Obligations.OutcomesByCommand := by
  intro i s t hwf h
  have hok := fun hi => statusCode_of_unchecked hi h
  obtain ⟨u, o, rfl, hmay, _⟩ := exec_ends h
  have hcode := statusCode_statusAfter_eq_iff u.status o
  refine ⟨fun hc => ?_, fun hc => ?_, fun hc => ?_, hok⟩
  · obtain rfl := (hcode .eos).1 hc
    exact hmay
  · obtain rfl := (hcode .formatError).1 hc
    exact hmay
  · obtain rfl := (hcode .cmdError).1 hc
    exact hmay.resolve_left (by simp [hwf])

/-- Settles O13: with FileError and CmdError the completion starts from the state before, or from its release in a pipeline. -/
theorem fileAndCmdErrorsChangeOnlyStatus : Obligations.FileAndCmdErrorsChangeOnlyStatus := by
  intro i s t h hc
  obtain ⟨u, o, rfl, _, hkept⟩ := exec_ends h
  have hcode := statusCode_statusAfter_eq_iff u.status o
  obtain rfl := hkept (hc.imp (hcode .fileError).1 (hcode .cmdError).1)
  cases releases i <;> rfl

/-! ### STATUS steers nothing -/

/-- The state with STATUS replaced. -/
def State.setStatus (s : State) (w : Word) : State := { s with status := w }

@[simp] theorem State.setStatus_files (s : State) (w : Word) : (s.setStatus w).files = s.files := rfl
@[simp] theorem State.setStatus_tree (s : State) (w : Word) : (s.setStatus w).tree = s.tree := rfl
@[simp] theorem State.setStatus_chan (s : State) (w : Word) (ch : ChanId) : (s.setStatus w).chan ch = s.chan ch := rfl

/-- Two answers that differ at most in STATUS: both complete with one outcome, or both refuse alike (R218). -/
inductive AgreeButStatus : Answer → Answer → Prop where
  | finish {u v : State} (o : Completion) (h : v = u.setStatus v.status) : AgreeButStatus (finish o u) (finish o v)
  | refused (r : Refusal) : AgreeButStatus (.refused r) (.refused r)

/-- What completes on one side completes on the other, with the same code. -/
theorem AgreeButStatus.next {A B : Answer} (hAB : AgreeButStatus A B) {t : State} (hA : A = .next t) :
    ∃ t', B = .next t' ∧ t' = t.setStatus t'.status ∧ statusCode t'.status = statusCode t.status := by
  cases hAB with
  | refused r => cases hA
  | @finish u v o h =>
    cases hA
    refine ⟨v.complete o, rfl, ?_, ?_⟩
    · rw [h]
      rfl
    · rw [State.complete_status, State.complete_status, statusCode_statusAfter, statusCode_statusAfter]

/-- A check whose condition does not read STATUS. -/
theorem agreeButStatus_ite {p : Prop} [Decidable p] {A B A' B' : Answer} (hA : AgreeButStatus A A') (hB : AgreeButStatus B B') :
    AgreeButStatus (if p then A else B) (if p then A' else B') := by
  split
  · exact hA
  · exact hB

section
variable (s : State) (w : Word)

theorem execBsopen_agreeButStatus (ch : ChanId) (fa : FileId) (md : ModeArg) (pad : Bool) :
    AgreeButStatus (execBsopen ch fa md pad s) (execBsopen ch fa md pad (s.setStatus w)) := by
  refine agreeButStatus_ite (.finish _ rfl) ?_
  cases md with
  | m2 => exact .finish _ rfl
  | m3 => exact .finish _ rfl
  | rd => exact agreeButStatus_ite (.finish _ rfl) (.finish _ rfl)
  | wr => exact agreeButStatus_ite (.finish _ rfl) (.finish _ rfl)

theorem execRdbit_agreeButStatus (ch : ChanId) : AgreeButStatus (execRdbit ch s) (execRdbit ch (s.setStatus w)) := by
  refine agreeButStatus_ite ?_ (.finish _ rfl)
  rcases hg : getBit s.files (s.chan ch) with ⟨_ | r, c⟩ <;> simp only [State.setStatus_files, State.setStatus_chan, hg]
  · exact .finish _ rfl
  · exact .finish _ rfl

theorem execTdes_agreeButStatus (ch : ChanId) : AgreeButStatus (execTdes ch s) (execTdes ch (s.setStatus w)) := by
  refine agreeButStatus_ite ?_ (.finish _ rfl)
  rcases hp : parseDictionary s.files (s.chan ch) with ⟨_ | t, c⟩ <;> simp only [State.setStatus_files, State.setStatus_chan, hp]
  · exact .finish _ rfl
  · exact .finish _ rfl

/-- With the residual unbounded, neither run refuses (U7, log 9). -/
theorem execPdec_agreeButStatus (ch : ChanId) (fb : FileId) : AgreeButStatus (execPdec ch fb s) (execPdec ch fb (s.setStatus w)) := by
  refine agreeButStatus_ite (agreeButStatus_ite ?_ (.finish _ rfl)) (.finish _ rfl)
  rcases ht : s.tree with _ | t <;> simp only [State.setStatus_tree, ht]
  · exact .finish _ rfl
  · exact .finish _ rfl

/-- With the residual unbounded, neither run refuses (U7, log 9). -/
theorem execHdec_agreeButStatus (fa fb : FileId) : AgreeButStatus (execHdec fa fb s) (execHdec fa fb (s.setStatus w)) := by
  refine agreeButStatus_ite (agreeButStatus_ite (.finish _ rfl) ?_) (.finish _ rfl)
  rcases hp : parseDictionary (s.files.truncate fb) (Channel.openRd false fa) with ⟨_ | t, c⟩ <;>
    simp only [State.setStatus_files, hp]
  · exact .finish _ rfl
  · exact .finish _ rfl

/-- No command reads STATUS but to complete (R218). -/
theorem exec_agreeButStatus (i : Instr) : AgreeButStatus (exec i s) (exec i (s.setStatus w)) := by
  cases i with
  | nop => exact .finish _ rfl
  | clrerr => exact .finish _ rfl
  | sreset => exact .finish _ rfl
  | bsopen ch fa md pad => exact execBsopen_agreeButStatus s w ch fa md pad
  | bsclose ch => exact agreeButStatus_ite (.finish _ rfl) (.finish _ rfl)
  | rdbit ch => exact execRdbit_agreeButStatus s w ch
  | wrbit ch bit => exact agreeButStatus_ite (.finish _ rfl) (.finish _ rfl)
  | rdbits ch n => exact agreeButStatus_ite (.finish _ rfl) (agreeButStatus_ite (.finish _ rfl) (.finish _ rfl))
  | wrbits ch n => exact agreeButStatus_ite (.finish _ rfl) (agreeButStatus_ite (.finish _ rfl) (.finish _ rfl))
  | fscan fa => exact agreeButStatus_ite (agreeButStatus_ite (.refused _) (.finish _ rfl)) (.finish _ rfl)
  | tbuild => exact .finish _ rfl
  | cgen => exact .finish _ rfl
  | tser ch => exact agreeButStatus_ite (.finish _ rfl) (.finish _ rfl)
  | tdes ch => exact execTdes_agreeButStatus s w ch
  | penc ch fa =>
    exact agreeButStatus_ite (agreeButStatus_ite (agreeButStatus_ite (.refused _)
      (agreeButStatus_ite (.finish _ rfl) (.finish _ rfl))) (.finish _ rfl)) (.finish _ rfl)
  | trail ch => exact agreeButStatus_ite (.finish _ rfl) (.finish _ rfl)
  | pdec ch fb => exact execPdec_agreeButStatus s w ch fb
  | henc fa fb =>
    exact agreeButStatus_ite (agreeButStatus_ite (agreeButStatus_ite (.refused _) (.finish _ rfl)) (.finish _ rfl)) (.finish _ rfl)
  | hdec fa fb => exact execHdec_agreeButStatus s w fa fb

end

/-- Settles O14: the two runs agree but for STATUS. -/
theorem statusNeverSteersACommand : Obligations.StatusNeverSteersACommand := fun i s _ w h => (exec_agreeButStatus s w i).next h

end Sys2Proof.Machine
end
